-- ==== Sys2Proof/Word.lean ====
section
/-! DEFINITION. The word types of the GLTB transform block. -/

namespace Sys2Proof

/-- A byte of data memory (20_memory.md R60). -/
abbrev Byte := BitVec 8

/-- A 16-bit element: a 15-bit pixel, a 565 pixel, an s16 sample or an s16 coefficient (20_memory.md R61). -/
abbrev Half := BitVec 16

/-- A 32-bit register or element; `REG_W`, `COUNT_W` and `ADDR_W` are all 32 (00_scope.md R6). -/
abbrev Word := BitVec 32

end Sys2Proof
end

