-- ==== Sys2Proof/Config.lean ====
section
/-! DEFINITION. The implementation parameters of 00_scope.md R6: the fixed ones as numbers, the OPEN ones
and the free values as constants without a body. -/

namespace Sys2Proof

/-- What the platform has at an address (70_reset_and_hazards.md R268).
An address in no region does not exist. -/
inductive RegionKind where
  /-- existing ordinary memory that the caller owns: no read side effects, idempotent -/
  | ordinary
  /-- existing ordinary memory that the caller does not own -/
  | foreign
  /-- a device whose reads or writes may have side effects (20_memory.md R65) -/
  | device
  deriving DecidableEq, Repr

/-- One region of the platform's address map: the bytes `base` to `base + size - 1`. -/
structure Region where
  base : Nat
  size : Nat
  kind : RegionKind
  deriving DecidableEq, Repr

/-- The OPEN parameters (00_scope.md R6): the address of the register window, whether the bus can signal
an error to the block, and the address map that 20_memory.md R66 leaves to the platform. -/
structure Platform where
  regBase     : Word
  hasBusError : Bool
  memoryMap   : List Region
  deriving DecidableEq, Repr

namespace Config

/-- `ADDR_W` = 32: the data address space has this many byte addresses (20_memory.md R60). -/
abbrev addressSpace : Nat := 2 ^ 32

/-- The register window is 256 bytes long (10_state.md R30). -/
abbrev windowSize : Nat := 256

/-- `FACTOR_MAX` (00_scope.md R6). -/
abbrev factorMax : Nat := 256

/-- `ACC_LANES` lanes of 4 bytes: the footprint of one accumulator array (40_command_model.md R115). -/
abbrev accBytes : Nat := 16

/-- `COPY_BLOCK`, informative (00_scope.md R6, 44_bulk_copy.md R211). -/
abbrev copyBlock : Nat := 64

/-- `REG_BASE`, OPEN (00_scope.md R6). Log entry 1. -/
opaque regBase : Word

/-- `HAS_BUS_ERROR`, OPEN (00_scope.md R6). Log entry 1. -/
opaque hasBusError : Bool

/-- The platform's address map, left open by 20_memory.md R66. Log entry 1. -/
opaque memoryMap : List Region

/-- The contents of data memory at power-up, as cells in any order (70_reset_and_hazards.md R262). Log entry 2. -/
opaque powerUpCells : List (Nat × Byte)

/-- A free byte: draw number, then the address it is drawn for. Log entry 5. -/
opaque freeByte : Nat → Nat → Byte

/-- A free bit: draw number, then the address it is drawn for. Log entry 5. -/
opaque freeBit : Nat → Nat → Bool

end Config
end Sys2Proof
end

