-- ==== Sys2Proof/Syntax.lean ====
section
/-! DEFINITION. The commands of GLTB-v7: one constructor per row of spec/opcode_table.json. -/

namespace Sys2Proof

/-- The six commands (00_scope.md R2, 30_encoding.md R91).
Addresses and the count are no operands of the word; they stand in registers (30_encoding.md R93). -/
inductive Instr where
  | conv15c
  | conv15n
  | conv32
  /-- `factor` is the one immediate, the FACTOR field (30_encoding.md R92) -/
  | blend (factor : BitVec 9)
  | mac
  | copy
  deriving DecidableEq, Repr

end Sys2Proof
end

