-- ==== Sys2Proof/WellFormed.lean ====
section
/-! DEFINITION. Which terms of `Instr` are commands. -/

namespace Sys2Proof

/-- A command is well formed when its FACTOR is legal: 0 to 256 for BLEND (30_encoding.md R92). The other
commands have no operand in the word. -/
def Instr.wellFormed : Instr → Bool
  | .conv15c => true
  | .conv15n => true
  | .conv32 => true
  | .blend factor => decide (factor.toNat ≤ Config.factorMax)
  | .mac => true
  | .copy => true

end Sys2Proof
end

