-- ==== Sys2Proof/Decode.lean ====
section
/-! DEFINITION. The command word: its fields, the total decoder of 30_encoding.md R94, and the encoder. -/

namespace Sys2Proof

/-- What the decoder makes of a word (30_encoding.md R94). -/
inductive Decoded where
  | command (i : Instr)
  | illegal
  | factor
  deriving DecidableEq, Repr

/-- OP, bits [3:0] (30_encoding.md R90). -/
def opField (w : Word) : BitVec 4 := w.extractLsb' 0 4

/-- RSV0, bits [7:4]. -/
def rsv0Field (w : Word) : BitVec 4 := w.extractLsb' 4 4

/-- FACTOR, bits [16:8]. -/
def factorField (w : Word) : BitVec 9 := w.extractLsb' 8 9

/-- RSV1, bits [31:17]. -/
def rsv1Field (w : Word) : BitVec 15 := w.extractLsb' 17 15

/-- A command without an immediate: its FACTOR field must be 0 (30_encoding.md R94). -/
def plainCommand (i : Instr) (f : BitVec 9) : Decoded :=
  if f = 0 then .command i else .illegal

/-- The case analysis of 30_encoding.md R94 on OP, the reserved fields being 0. -/
def decodeFields (op : BitVec 4) (f : BitVec 9) : Decoded :=
  match op.toNat with
  | 1 => plainCommand .conv15c f
  | 2 => plainCommand .conv15n f
  | 3 => plainCommand .conv32 f
  | 4 => if (Instr.blend f).wellFormed then .command (.blend f) else .factor
  | 5 => plainCommand .mac f
  | 6 => plainCommand .copy f
  | _ => .illegal

/-- The decoder, total on all 2^32 words (30_encoding.md R94). -/
def decode (w : Word) : Decoded :=
  if rsv1Field w ≠ 0 ∨ rsv0Field w ≠ 0 then .illegal
  else decodeFields (opField w) (factorField w)

/-- The OP value of a command (30_encoding.md R91). -/
def opcode : Instr → BitVec 4
  | .conv15c => 1
  | .conv15n => 2
  | .conv32 => 3
  | .blend _ => 4
  | .mac => 5
  | .copy => 6

/-- The FACTOR field of a command's word: 0 for every command but BLEND (30_encoding.md R90). -/
def factorOf : Instr → BitVec 9
  | .conv15c => 0
  | .conv15n => 0
  | .conv32 => 0
  | .blend factor => factor
  | .mac => 0
  | .copy => 0

/-- The word with the given OP and FACTOR and zero reserved fields (30_encoding.md R90). -/
def packWord (op : BitVec 4) (f : BitVec 9) : Word := 0#15 ++ f ++ 0#4 ++ op

/-- The word of a command (30_encoding.md R91, R92). -/
def encode (i : Instr) : Word := packWord (opcode i) (factorOf i)

/-- The host's reading of an opcode-table word of `nbits` bits: the bits above are 0. A command is one 32-bit
register write and is not stored as bytes (20_memory.md R62). Log entry 19. -/
def decodeTableWord (nbits w : Nat) : Option Instr :=
  match decode (BitVec.ofNat 32 (w % 2 ^ nbits)) with
  | .command i => some i
  | .illegal => none
  | .factor => none

end Sys2Proof
end

