-- ==== Sys2Proof/Machine/Memory.lean ====
section
/-! DEFINITION. Data memory (20_memory.md R60, R61): a canonical list of cells, and its operations. -/

namespace Sys2Proof.Machine

/-- Data memory: cells with strictly rising addresses, none equal to what an unlisted address reads as. -/
abbrev Memory := List Host.Cell

/-- What an address that the list leaves out reads as. DESIGN CHOICE, log entry 2: a list stands for every contents
of memory whichever byte this is, and power-up contents are `powerUp`, not this byte. -/
def unlistedByte : Byte := 0

/-- The canonical form: strictly rising addresses within the address space, no cell equal to the unlisted byte. -/
abbrev Memory.Wf (m : Memory) : Prop :=
  m.Pairwise (fun c d => c.1 < d.1) ∧ ∀ c ∈ m, c.1 < Config.addressSpace ∧ c.2 ≠ unlistedByte

/-- `Memory.Wf` as a Bool. -/
def Memory.wf (m : Memory) : Bool := decide (Memory.Wf m)

/-- The byte at an address, `MemRead(a, 1)` (00_scope.md R10). -/
def Memory.read : Memory → Nat → Byte
  | [], _ => unlistedByte
  | (k, v) :: rest, a => if k = a then v else Memory.read rest a

/-- The cells of consecutive bytes from an address on, the unlisted byte left out. -/
def Memory.cellsAt : Nat → List Byte → Memory
  | _, [] => []
  | a, b :: bs => if b = unlistedByte then Memory.cellsAt (a + 1) bs else (a, b) :: Memory.cellsAt (a + 1) bs

/-- Stores consecutive bytes from an address on (00_scope.md R10). -/
def Memory.writeBytes (m : Memory) (a : Nat) (bs : List Byte) : Memory :=
  match bs with
  | [] => m
  | _ :: _ =>
    m.filter (fun c => decide (c.1 < a)) ++ Memory.cellsAt a bs ++
      m.filter (fun c => decide (a + bs.length ≤ c.1))

/-- Stores several runs of consecutive bytes, one after the other. -/
def Memory.writeAll (m : Memory) (ws : List (Nat × List Byte)) : Memory :=
  ws.foldl (fun acc w => Memory.writeBytes acc w.1 w.2) m

/-- The memory of some cells in any order, a later cell over an earlier one, those outside the address space left
out. -/
def Memory.ofCells (cs : List Host.Cell) : Memory :=
  Memory.writeAll [] ((cs.filter (fun c => decide (c.1 < Config.addressSpace))).map (fun c => (c.1, [c.2])))

/-- Data memory at power-up: unspecified (70_reset_and_hazards.md R262). Log entry 2. -/
def Memory.powerUp : Memory := Memory.ofCells Config.powerUpCells

/-- `MemRead(a, 2)`, little-endian (20_memory.md R61). -/
def Memory.read16 (m : Memory) (a : Nat) : Half := Memory.read m (a + 1) ++ Memory.read m a

/-- `MemRead(a, 4)`, little-endian (20_memory.md R61). -/
def Memory.read32 (m : Memory) (a : Nat) : Word :=
  Memory.read m (a + 3) ++ Memory.read m (a + 2) ++ Memory.read m (a + 1) ++ Memory.read m a

/-- `elem16(M, a, i)` (00_scope.md R11). -/
def elem16 (m : Memory) (a i : Nat) : Half := Memory.read16 m (a + 2 * i)

/-- `elem32(M, a, i)` (00_scope.md R11). -/
def elem32 (m : Memory) (a i : Nat) : Word := Memory.read32 m (a + 4 * i)

/-- The bytes of a 16-bit element, lowest address first (20_memory.md R61). -/
def bytes16 (v : Half) : List Byte := [v.extractLsb' 0 8, v.extractLsb' 8 8]

/-- The bytes of a 32-bit element, lowest address first (20_memory.md R61). -/
def bytes32 (v : Word) : List Byte :=
  [v.extractLsb' 0 8, v.extractLsb' 8 8, v.extractLsb' 16 8, v.extractLsb' 24 8]

end Sys2Proof.Machine
end

