-- ==== Sys2Proof/Machine/State.lean ====
section
/-! DEFINITION. The state of the block, of its host and of its platform, as plain data (10_state.md R47). -/

namespace Sys2Proof.Machine

/-- STATUS (10_state.md R34). Reserved bits have no storage and read as 0 (R41). Log entry 16. -/
structure Status where
  busy    : Bool
  done    : Bool
  err     : Bool
  ovf     : Bool
  werr    : Bool
  errcode : BitVec 4
  deriving DecidableEq, Repr

/-- The operand record latched at acceptance (10_state.md R46, 40_command_model.md R111). -/
structure OpRecord where
  op     : BitVec 4
  factor : BitVec 9
  src0   : Word
  src1   : Word
  dst0   : Word
  dst1   : Word
  count  : Word
  deriving DecidableEq, Repr

/-- An accepted command: its operands, the snapshot `M0` (40_command_model.md R118), and whether the host has
written one of its ranges meanwhile (20_memory.md R68; log entry 6). -/
structure Run where
  op    : OpRecord
  m0    : Memory
  raced : Bool
  deriving DecidableEq, Repr

/-- `eng` (10_state.md R46). -/
inductive Engine where
  | idle
  | busy (run : Run)
  deriving DecidableEq, Repr

/-- The width of a host access. -/
inductive Size where
  | byte
  | half
  | word
  deriving DecidableEq, Repr

/-- What the host can do (30_encoding.md R97, 00_scope.md R13). `off` is the offset in the register window. -/
inductive HostOp where
  | regWrite (off : BitVec 8) (size : Size) (v : Word)
  | regRead (off : BitVec 8) (size : Size)
  /-- a store to a bus address; `visible` says that the duty of 20_memory.md R69 is met for it at once (log entry 8) -/
  | store (addr : Word) (size : Size) (v : Word) (visible : Bool)
  | load (addr : Word) (size : Size)
  /-- the host's barrier or cache maintenance: earlier stores become visible to the block (20_memory.md R69) -/
  | publish
  deriving DecidableEq, Repr

/-- How the platform bus answers the accesses of an engine step (60_exceptions.md R236). -/
inductive BusAnswer where
  | ok
  | error
  deriving DecidableEq, Repr

/-- One move of an agent or an input. The moves to come are data of the state (log entry 3). -/
inductive Move where
  | host (core : Nat) (op : HostOp)
  /-- the engine ends the running command (40_command_model.md R118) -/
  | engine (answer : BusAnswer)
  /-- the host writes STATUS in the same step as the engine's (10_state.md R42; log entry 15) -/
  | statusWriteWithEngine (v : Word) (answer : BusAnswer)
  /-- the reset input is asserted and released (70_reset_and_hazards.md R260); it is never held (DESIGN CHOICE, log
  entry 11) -/
  | reset
  deriving DecidableEq, Repr

/-- The core inside the programming critical section, and whether it has written CMD since its last operand write
that took effect (60_exceptions.md R244; log entry 12). -/
structure Session where
  core    : Nat
  started : Bool
  deriving DecidableEq, Repr

/-- The whole state. The first eight fields are the block's (10_state.md R47), `mem` is data memory
(20_memory.md R60), `platform` holds the OPEN parameters (00_scope.md R6); the rest is the model's own
record of the host, of races and of inputs, as INVENTORY.md lists it. -/
structure State where
  cmd    : Word
  status : Status
  src0   : Word
  src1   : Word
  dst0   : Word
  dst1   : Word
  count  : Word
  eng    : Engine
  mem    : Memory
  platform : Platform
  /-- the last `rd` result of the host (30_encoding.md R97; log entry 13) -/
  rdata : Word
  /-- the last result of a host load (log entry 13) -/
  ldata : Word
  /-- the core inside the critical section (log entry 12) -/
  owner : Option Session
  /-- ended commands whose end no STATUS read has shown, newest first (log entries 6 and 7) -/
  unread : List Run
  /-- addresses of host stores not yet visible to the block (log entry 8) -/
  unpublished : List Nat
  /-- the counter the free values are applied to (log entry 5) -/
  draws : Nat
  /-- the moves to come, next first (log entry 3) -/
  pending : List Move
  deriving DecidableEq, Repr

/-- The reasons the machine stops. The block itself has none: its errors are values in STATUS
(60_exceptions.md R230). -/
inductive Fault where
  /-- raised by a host load or store that reaches past address 2^32 - 1, where no byte exists
  (20_memory.md R60); safe -/
  | noSuchAddress
  /-- raised by the engine's move when the latched operand record encodes no command, which no run reaches
  (40_command_model.md R112; log entry 14); safe -/
  | badLatchedOp
  deriving DecidableEq, Repr

/-- The reasons the model gives no meaning. Each is one the spec names as refused, but for the last. -/
inductive Refusal where
  /-- raised by a register access that is not 32 bits wide at a multiple of 4 (10_state.md R31); safe -/
  | registerAccessForm
  /-- raised by the acceptance of a command that passes validation and whose ranges cover the register window
  (20_memory.md R66, 70_reset_and_hazards.md R268); safe -/
  | registerWindowOperand
  /-- raised by such an acceptance when a range covers device memory (20_memory.md R65), and by a host load
  or store to a device; safe -/
  | deviceMemory
  /-- raised by such an acceptance when a range covers memory the caller does not own
  (70_reset_and_hazards.md R268); safe -/
  | notOwned
  /-- raised by such an acceptance when a range covers memory that does not exist and the platform reports no
  bus error (60_exceptions.md R236), and by a host load or store to such memory; safe -/
  | missingMemory
  /-- raised by a write to CMD or to an operand register by one core while another is inside its programming
  critical section (60_exceptions.md R244); safe -/
  | interleavedProgramming
  /-- raised by an arm of exec that has no meaning yet; no arm is so; safe -/
  | notModelled (mnemonic : String)
  deriving DecidableEq, Repr

/-- STATUS after reset (10_state.md R50). -/
def Status.reset : Status :=
  { busy := false, done := false, err := false, ovf := false, werr := false, errcode := 0 }

/-- The machine right after power-up and reset (10_state.md R50, 70_reset_and_hazards.md R260, R262).
The platform's parameters are the OPEN constants (log entry 1); `mem` is unspecified (log entry 2); the
model's own fields are empty or 0 (log entries 3, 5, 8, 12 and 13). -/
def State.reset : State :=
  { cmd := 0, status := Status.reset, src0 := 0, src1 := 0, dst0 := 0, dst1 := 0, count := 0,
    eng := .idle, mem := Memory.powerUp,
    platform := { regBase := Config.regBase, hasBusError := Config.hasBusError, memoryMap := Config.memoryMap },
    rdata := 0, ldata := 0, owner := none, unread := [], unpublished := [], draws := 0, pending := [] }

end Sys2Proof.Machine
end

