-- ==== Sys2Proof/Machine/Flags.lean ====
section
/-! DEFINITION. Every computation on STATUS (10_state.md R34 to R42) and the overflow flag of MAC. -/

namespace Sys2Proof.Machine

/-- The errors a command can end with (60_exceptions.md R231). -/
inductive ErrKind where
  | illegal
  | factor
  | align
  | range
  | overlap
  | bus
  deriving DecidableEq, Repr

/-- The code written to STATUS.ERRCODE (60_exceptions.md R231). -/
def ErrKind.code : ErrKind → BitVec 4
  | .illegal => 1
  | .factor => 2
  | .align => 3
  | .range => 4
  | .overlap => 5
  | .bus => 6

/-- STATUS as the host reads it (10_state.md R34, R41). -/
def Status.toWord (st : Status) : Word :=
  0#20 ++ st.errcode ++ 0#3 ++ BitVec.ofBool st.werr ++ BitVec.ofBool st.ovf ++ BitVec.ofBool st.err ++
    BitVec.ofBool st.done ++ BitVec.ofBool st.busy

/-- A host write to STATUS (10_state.md R42). -/
def Status.hostWrite (w : Word) (st : Status) : Status :=
  { busy := st.busy
    done := st.done && !w.getLsbD 1
    err := st.err && !w.getLsbD 2
    ovf := st.ovf && !w.getLsbD 3
    werr := st.werr && !w.getLsbD 4
    errcode := if w.getLsbD 2 then 0 else st.errcode }

/-- Acceptance clears DONE, ERR and ERRCODE and keeps OVF and WERR (40_command_model.md R110). -/
def Status.onAccept (st : Status) : Status := { st with done := false, err := false, errcode := 0 }

/-- A command that passed validation sets BUSY (40_command_model.md R113). -/
def Status.start (st : Status) : Status := { st with busy := true }

/-- The end of a command with an error (60_exceptions.md R233). -/
def Status.endError (e : ErrKind) (st : Status) : Status :=
  { st with busy := false, done := true, err := true, errcode := e.code }

/-- The completion of a command; only MAC gives `ovf` (40_command_model.md R118, 10_state.md R38). -/
def Status.endDone (ovf : Bool) (st : Status) : Status :=
  { st with busy := false, done := true, ovf := st.ovf || ovf }

/-- A write ignored because BUSY was 1 (10_state.md R39). -/
def Status.setWerr (st : Status) : Status := { st with werr := true }

/-- `wrap_s32` (00_scope.md R8). -/
def wrapS32 (v : Int) : Int := (BitVec.ofInt 32 v).toInt

/-- A running sum outside the s32 range (43_audio_mac.md R193). -/
def outsideS32 (v : Int) : Bool := decide (v < -2 ^ 31) || decide (2 ^ 31 ≤ v)

end Sys2Proof.Machine
end

