-- ==== Sys2Proof/Machine/Operands.lean ====
section
/-! DEFINITION. The operands of a command: latching, byte ranges, validation, and the platform's view of the
ranges (40_command_model.md R111 to R119, 70_reset_and_hazards.md R268). -/

namespace Sys2Proof.Machine

/-- The bytes `base` to `base + len - 1` (40_command_model.md R115). -/
structure Range where
  base : Nat
  len  : Nat
  deriving DecidableEq, Repr

/-- Whether a range holds an address. -/
def Range.holds (r : Range) (a : Nat) : Bool := decide (r.base ≤ a) && decide (a < r.base + r.len)

/-- Intersection of two ranges (40_command_model.md R117). -/
def Range.intersects (r q : Range) : Bool :=
  decide (0 < r.len) && decide (0 < q.len) && decide (r.base < q.base + q.len) && decide (q.base < r.base + r.len)

/-- The addresses of a range, rising. -/
def Range.addresses (r : Range) : List Nat := (List.range r.len).map (fun j => r.base + j)

/-- What one command stores, and whether its MAC sums overflowed (40_command_model.md R118). -/
structure Effect where
  writes : List (Nat × List Byte)
  ovf    : Bool
  deriving DecidableEq, Repr

/-- The latch of the operands at acceptance (40_command_model.md R111). -/
def latch (w : Word) (s : State) : OpRecord :=
  { op := opField w, factor := factorField w, src0 := s.src0, src1 := s.src1, dst0 := s.dst0, dst1 := s.dst1,
    count := s.count }

/-- The command word a latched record stands for. -/
def OpRecord.word (op : OpRecord) : Word := packWord op.op op.factor

/-- The latched command, none if the record encodes none. -/
def OpRecord.instr? (op : OpRecord) : Option Instr :=
  match decode op.word with
  | .command i => some i
  | .illegal => none
  | .factor => none

/-- COUNT as an exact integer (40_command_model.md R115). -/
def OpRecord.n (op : OpRecord) : Nat := op.count.toNat

/-- Bytes of one source element at SRC0 (20_memory.md R63, R64); MAC reads two samples to a tap. -/
def sourceBytes : Instr → Nat
  | .conv15c => 2
  | .conv15n => 2
  | .conv32 => 4
  | .blend _ => 2
  | .mac => 4
  | .copy => 1

/-- Bytes of one destination element (20_memory.md R64); for MAC, one accumulator lane. -/
def destBytes : Instr → Nat
  | .conv15c => 2
  | .conv15n => 2
  | .conv32 => 2
  | .blend _ => 2
  | .mac => 4
  | .copy => 1

/-- S, the range at SRC0 (40_command_model.md R115). -/
def rangeS (i : Instr) (op : OpRecord) : Range := { base := op.src0.toNat, len := sourceBytes i * op.n }

/-- D, the range at DST0 of every command but MAC (40_command_model.md R115). -/
def rangeD (i : Instr) (op : OpRecord) : Range := { base := op.dst0.toNat, len := destBytes i * op.n }

/-- K, the kernel of MAC. -/
def rangeK (op : OpRecord) : Range := { base := op.src1.toNat, len := 2 * op.n }

/-- AL, the left accumulator array of MAC, 16 bytes whatever COUNT is. -/
def rangeAL (op : OpRecord) : Range := { base := op.dst0.toNat, len := Config.accBytes }

/-- AR, the right accumulator array of MAC. -/
def rangeAR (op : OpRecord) : Range := { base := op.dst1.toNat, len := Config.accBytes }

/-- Lane 0 of AL (43_audio_mac.md R192). -/
def laneL (op : OpRecord) : Range := { base := op.dst0.toNat, len := 4 }

/-- Lane 0 of AR. -/
def laneR (op : OpRecord) : Range := { base := op.dst1.toNat, len := 4 }

/-- The ranges of a command (40_command_model.md R115). -/
def operandRanges (i : Instr) (op : OpRecord) : List Range :=
  match i with
  | .conv15c => [rangeS i op, rangeD i op]
  | .conv15n => [rangeS i op, rangeD i op]
  | .conv32 => [rangeS i op, rangeD i op]
  | .blend _ => [rangeS i op, rangeD i op]
  | .mac => [rangeS i op, rangeK op, rangeAL op, rangeAR op]
  | .copy => [rangeS i op, rangeD i op]

/-- The bytes the engine may write (40_command_model.md R119). -/
def writeRanges (i : Instr) (op : OpRecord) : List Range :=
  match i with
  | .conv15c => [rangeD i op]
  | .conv15n => [rangeD i op]
  | .conv32 => [rangeD i op]
  | .blend _ => [rangeD i op]
  | .mac => [laneL op, laneR op]
  | .copy => [rangeD i op]

/-- The bytes the engine may read (40_command_model.md R119); only BLEND reads D. -/
def readRanges (i : Instr) (op : OpRecord) : List Range :=
  match i with
  | .conv15c => [rangeS i op]
  | .conv15n => [rangeS i op]
  | .conv32 => [rangeS i op]
  | .blend _ => [rangeS i op, rangeD i op]
  | .mac => [rangeS i op, rangeK op, laneL op, laneR op]
  | .copy => [rangeS i op]

/-- The bytes the engine does access: none when COUNT = 0 (40_command_model.md R120), and of MAC's accumulator arrays
lane 0 alone (43_audio_mac.md R192). -/
def accessRanges (i : Instr) (op : OpRecord) : List Range :=
  if op.n = 0 then [] else readRanges i op ++ writeRanges i op

/-- The ranges of a latched record. -/
def OpRecord.ranges (op : OpRecord) : List Range :=
  match op.instr? with
  | some i => operandRanges i op
  | none => []

/-- The write ranges of a latched record. -/
def OpRecord.writes (op : OpRecord) : List Range :=
  match op.instr? with
  | some i => writeRanges i op
  | none => []

/-- The read ranges of a latched record. -/
def OpRecord.reads (op : OpRecord) : List Range :=
  match op.instr? with
  | some i => readRanges i op
  | none => []

/-- The bytes a latched record does store to: none when COUNT = 0 (40_command_model.md R120). -/
def OpRecord.stores (op : OpRecord) : List Range := if op.n = 0 then [] else op.writes

/-- The bytes a latched record does read: none when COUNT = 0 (40_command_model.md R120). -/
def OpRecord.loads (op : OpRecord) : List Range := if op.n = 0 then [] else op.reads

/-- The first address of the destination element that holds address `a`, in a write range. -/
def OpRecord.elementAt (op : OpRecord) (r : Range) (a : Nat) : Nat :=
  match op.instr? with
  | some i => r.base + destBytes i * ((a - r.base) / destBytes i)
  | none => a

/-- `aligned_ok` (40_command_model.md R114, 20_memory.md R63). -/
def alignedOk (i : Instr) (op : OpRecord) : Bool :=
  match i with
  | .conv15c => decide (op.src0.toNat % 2 = 0) && decide (op.dst0.toNat % 2 = 0)
  | .conv15n => decide (op.src0.toNat % 2 = 0) && decide (op.dst0.toNat % 2 = 0)
  | .conv32 => decide (op.src0.toNat % 4 = 0) && decide (op.dst0.toNat % 2 = 0)
  | .blend _ => decide (op.src0.toNat % 2 = 0) && decide (op.dst0.toNat % 2 = 0)
  | .mac =>
    decide (op.src0.toNat % 2 = 0) && decide (op.src1.toNat % 2 = 0) && decide (op.dst0.toNat % 4 = 0) &&
      decide (op.dst1.toNat % 4 = 0)
  | .copy => true

/-- `ranges_ok`: no range runs past the top of the address space (40_command_model.md R116). -/
def rangesOk (i : Instr) (op : OpRecord) : Bool :=
  (operandRanges i op).all (fun r => decide (r.len = 0) || decide (r.base + r.len ≤ Config.addressSpace))

/-- Disjoint, or exactly in place (40_command_model.md R117). -/
def inPlaceOrDisjoint (i : Instr) (op : OpRecord) : Bool :=
  !(rangeS i op).intersects (rangeD i op) || decide (op.src0 = op.dst0)

/-- `overlap_ok` (40_command_model.md R117). -/
def overlapOk (i : Instr) (op : OpRecord) : Bool :=
  match i with
  | .conv15c => inPlaceOrDisjoint i op
  | .conv15n => inPlaceOrDisjoint i op
  | .conv32 => inPlaceOrDisjoint i op
  | .blend _ => inPlaceOrDisjoint i op
  | .mac =>
    !(rangeAL op).intersects (rangeAR op) &&
      !(rangeAL op).intersects (rangeS i op) && !(rangeAL op).intersects (rangeK op) &&
      !(rangeAR op).intersects (rangeS i op) && !(rangeAR op).intersects (rangeK op)
  | .copy => inPlaceOrDisjoint i op

/-- The operand checks of validation, in order (40_command_model.md R112). -/
def validateOperands (i : Instr) (op : OpRecord) : Option ErrKind :=
  if alignedOk i op = false then some .align
  else if rangesOk i op = false then some .range
  else if overlapOk i op = false then some .overlap
  else none

/-- `validate(w, op)` (40_command_model.md R112); `none` is NONE. -/
def validate (w : Word) (op : OpRecord) : Option ErrKind :=
  match decode w with
  | .illegal => some .illegal
  | .factor => some .factor
  | .command i => validateOperands i op

/-- What the platform has at an address: the first region that holds it. -/
def Platform.kindAt (p : Platform) (a : Nat) : Option RegionKind :=
  (p.memoryMap.find? (fun r => decide (r.base ≤ a) && decide (a < r.base + r.size))).map Region.kind

/-- The register window as a range of bus addresses (10_state.md R30). -/
def Platform.window (p : Platform) : Range := { base := p.regBase.toNat, len := Config.windowSize }

/-- Some address of the ranges is of the given kind; `none` means that it does not exist. -/
def Platform.covers (p : Platform) (rs : List Range) (k : Option RegionKind) : Bool :=
  rs.any (fun r => r.addresses.any (fun a => decide (Platform.kindAt p a = k)))

/-- Why the model gives an accepted command no meaning, none if it does (70_reset_and_hazards.md R268).
Missing memory is refused only where no bus error is reported (60_exceptions.md R236); where one can be, a range
whose missing bytes the command never accesses (lanes 1 to 3 of MAC, or any lane with COUNT = 0) is accepted
(DESIGN CHOICE, log entry 9). Log entry 10. -/
def operandRefusal (p : Platform) (rs : List Range) : Option Refusal :=
  if rs.any (fun r => r.intersects (Platform.window p)) then some .registerWindowOperand
  else if Platform.covers p rs (some .device) then some .deviceMemory
  else if Platform.covers p rs (some .foreign) then some .notOwned
  else if Platform.covers p rs none && !p.hasBusError then some .missingMemory
  else none

/-- An access of the engine meets memory that does not exist, and the platform answers with a bus error
(60_exceptions.md R236). Only bytes that the command accesses count, not all of its ranges (DESIGN CHOICE, log
entry 9). -/
def accessFails (p : Platform) (rs : List Range) : Bool := Platform.covers p rs none && p.hasBusError

end Sys2Proof.Machine
end

