-- ==== Sys2Proof/Machine/Ops.lean ====
section
/-! DEFINITION. The shared operations on the state: registers, free values, taking an error
(60_exceptions.md R233), and the two phases of a command (40_command_model.md R110, R118). -/

namespace Sys2Proof.Machine

/-- The registers of the window (10_state.md R30). -/
inductive Reg where
  | cmd
  | status
  | src0
  | src1
  | dst0
  | dst1
  | count
  deriving DecidableEq, Repr

/-- The register at an offset of the window, none at a reserved offset (10_state.md R30, R32). -/
def regAt (off : BitVec 8) : Option Reg :=
  match off.toNat with
  | 0x00 => some .cmd
  | 0x04 => some .status
  | 0x08 => some .src0
  | 0x0C => some .src1
  | 0x10 => some .dst0
  | 0x14 => some .dst1
  | 0x18 => some .count
  | _ => none

/-- The offset of a register (10_state.md R30). -/
def regOffset : Reg → BitVec 8
  | .cmd => 0x00
  | .status => 0x04
  | .src0 => 0x08
  | .src1 => 0x0C
  | .dst0 => 0x10
  | .dst1 => 0x14
  | .count => 0x18

/-- What a read of a register returns (10_state.md R33, R34, R43). -/
def readReg : Reg → State → Word
  | .cmd, s => s.cmd
  | .status, s => s.status.toWord
  | .src0, s => s.src0
  | .src1, s => s.src1
  | .dst0, s => s.dst0
  | .dst1, s => s.dst1
  | .count, s => s.count

/-- Makes every byte of the ranges a free value, draw number `n`. Log entry 5. -/
def drawBytes (n : Nat) (rs : List Range) (m : Memory) : Memory :=
  Memory.writeAll m (rs.map (fun r => (r.base, r.addresses.map (fun a => Config.freeByte n a))))

/-- `M0` (40_command_model.md R118): data memory, but for the bytes the command reads whose last host store is
not visible to the block, which are free values (20_memory.md R69). Log entry 8. -/
def snapshot (op : OpRecord) (s : State) : Memory :=
  let stale := s.unpublished.filter (fun a => op.loads.any (fun r => r.holds a))
  Memory.writeAll s.mem (stale.map (fun a => (a, [Config.freeByte s.draws a])))

/-- `end_with_error(e)` (60_exceptions.md R233): the one way an error is taken. -/
def endWithError (e : ErrKind) (s : State) : State :=
  { s with status := s.status.endError e, eng := .idle }

/-- A command that passed validation starts (40_command_model.md R113). -/
def startRun (op : OpRecord) (s : State) : State :=
  { s with
    status := s.status.start
    eng := .busy { op := op, m0 := snapshot op s, raced := false }
    draws := s.draws + 1 }

/-- `accept(w)` (40_command_model.md R110), with the refusals of 70_reset_and_hazards.md R268 after
validation. -/
def accept (w : Word) (s : State) : Host.Outcome State Fault Refusal :=
  let op := latch w s
  let s1 := { s with cmd := w, status := s.status.onAccept }
  match validate w op with
  | some e => .next (endWithError e s1)
  | none =>
    match operandRefusal s.platform op.ranges with
    | some r => .refused r
    | none => .next (startRun op s1)

/-- `engine_complete(op)` (40_command_model.md R118), one step (10_state.md R49; log entry 4). A store of the
engine over a byte whose host store is not yet visible leaves that byte so (DESIGN CHOICE, log entry 8). -/
def complete (run : Run) (eff : Effect) (s : State) : State :=
  { s with
    mem := Memory.writeAll s.mem eff.writes
    status := s.status.endDone eff.ovf
    eng := .idle
    unread := run :: s.unread }

/-- The completion of a command whose ranges the host wrote meanwhile: every destination element is any
value (20_memory.md R68). `mayOverflow` is for a MAC with taps. Log entry 6. -/
def completeRaced (rs : List Range) (mayOverflow : Bool) (run : Run) (s : State) : State :=
  { s with
    mem := drawBytes s.draws rs s.mem
    status := s.status.endDone (mayOverflow && Config.freeBit s.draws 0)
    eng := .idle
    unread := run :: s.unread
    draws := s.draws + 1 }

/-- The end of a command by a bus error: the write ranges become any value (60_exceptions.md R236). -/
def endWithBusError (rs : List Range) (run : Run) (s : State) : State :=
  endWithError .bus
    { s with mem := drawBytes s.draws rs s.mem, unread := run :: s.unread, draws := s.draws + 1 }

/-- Whether a command can set OVF: only a MAC with taps (10_state.md R38, 43_audio_mac.md R195). -/
def mayOverflow (i : Instr) (op : OpRecord) : Bool :=
  match i with
  | .conv15c => false
  | .conv15n => false
  | .conv32 => false
  | .blend _ => false
  | .mac => decide (op.n ≠ 0)
  | .copy => false

/-- The engine's step for a running command: a bus error where an access meets memory that does not exist,
else its completion. -/
def finish (i : Instr) (eff : OpRecord → Memory → Effect) (run : Run) (s : State) : State :=
  if accessFails s.platform (accessRanges i run.op) then endWithBusError (writeRanges i run.op) run s
  else if run.raced then completeRaced (writeRanges i run.op) (mayOverflow i run.op) run s
  else complete run (eff run.op run.m0) s

/-- The meaning of a command, both phases (log entry 4): accepted while the engine is IDLE, ended by the engine
while BUSY. -/
def runCommand (i : Instr) (eff : OpRecord → Memory → Effect) (s : State) : Host.Outcome State Fault Refusal :=
  match s.eng with
  | .idle => accept (encode i) s
  | .busy run => .next (finish i eff run s)

/-- The effect of a command that writes one 16-bit pixel for each index (20_memory.md R64). -/
def pixelEffect (pixel : Nat → Half) (op : OpRecord) : Effect :=
  { writes := [(op.dst0.toNat, (List.range op.n).flatMap (fun k => bytes16 (pixel k)))], ovf := false }

end Sys2Proof.Machine
end

