-- ==== Sys2Proof/Machine/Convert.lean ====
section
/-! DEFINITION. Colour-space conversion: CONV15C, CONV15N and CONV32 (41_color_convert.md). -/

namespace Sys2Proof.Machine

/-- `clamp` (00_scope.md R8). -/
def clamp (v lo hi : Nat) : Nat := min (max v lo) hi

/-- `pack565` (41_color_convert.md R141). -/
def pack565 (r g b : Nat) : Half := BitVec.ofNat 16 ((r <<< 11) ||| (g <<< 5) ||| b)

/-- R of a 15-bit pixel, bits [4:0] (41_color_convert.md R140). -/
def red15 (p : Half) : Nat := (p.extractLsb' 0 5).toNat

/-- G of a 15-bit pixel, bits [9:5]. -/
def green15 (p : Half) : Nat := (p.extractLsb' 5 5).toNat

/-- B of a 15-bit pixel, bits [14:10]. -/
def blue15 (p : Half) : Nat := (p.extractLsb' 10 5).toNat

/-- One pixel of CONV15C (41_color_convert.md R142), the clamps as written. -/
def conv15cPixel (p : Half) : Half :=
  pack565
    (clamp ((red15 p * 13 + green15 p * 2 + blue15 p) >>> 4) 0 31)
    (clamp ((green15 p * 3 + blue15 p) >>> 2) 0 63)
    (clamp ((red15 p * 3 + green15 p * 2 + blue15 p * 11) >>> 4) 0 31)

/-- One pixel of CONV15N (41_color_convert.md R144). -/
def conv15nPixel (p : Half) : Half := pack565 (red15 p) (green15 p <<< 1) (blue15 p)

/-- R8 of a 32-bit pixel, bits [23:16] (41_color_convert.md R148). -/
def red32 (w : Word) : Nat := (w.extractLsb' 16 8).toNat

/-- G8 of a 32-bit pixel, bits [15:8]. -/
def green32 (w : Word) : Nat := (w.extractLsb' 8 8).toNat

/-- B8 of a 32-bit pixel, bits [7:0]. -/
def blue32 (w : Word) : Nat := (w.extractLsb' 0 8).toNat

/-- One pixel of CONV32 (41_color_convert.md R147). -/
def conv32Pixel (w : Word) : Half := pack565 (red32 w >>> 3) (green32 w >>> 2) (blue32 w >>> 3)

/-- Output element `k` of CONV15C. -/
def conv15cOut (op : OpRecord) (m0 : Memory) (k : Nat) : Half := conv15cPixel (elem16 m0 op.src0.toNat k)

/-- Output element `k` of CONV15N. -/
def conv15nOut (op : OpRecord) (m0 : Memory) (k : Nat) : Half := conv15nPixel (elem16 m0 op.src0.toNat k)

/-- Output element `k` of CONV32. -/
def conv32Out (op : OpRecord) (m0 : Memory) (k : Nat) : Half := conv32Pixel (elem32 m0 op.src0.toNat k)

/-- What CONV15C stores. -/
def conv15cEffect (op : OpRecord) (m0 : Memory) : Effect := pixelEffect (conv15cOut op m0) op

/-- What CONV15N stores. -/
def conv15nEffect (op : OpRecord) (m0 : Memory) : Effect := pixelEffect (conv15nOut op m0) op

/-- What CONV32 stores. -/
def conv32Effect (op : OpRecord) (m0 : Memory) : Effect := pixelEffect (conv32Out op m0) op

/-- CONV15C (41_color_convert.md R142). -/
def execConv15c (s : State) : Host.Outcome State Fault Refusal := runCommand .conv15c conv15cEffect s

/-- CONV15N (41_color_convert.md R144). -/
def execConv15n (s : State) : Host.Outcome State Fault Refusal := runCommand .conv15n conv15nEffect s

/-- CONV32 (41_color_convert.md R147). -/
def execConv32 (s : State) : Host.Outcome State Fault Refusal := runCommand .conv32 conv32Effect s

end Sys2Proof.Machine
end

