-- ==== Sys2Proof/Machine/Blend.lean ====
section
/-! DEFINITION. Frame blending: BLEND (42_frame_blend.md). -/

namespace Sys2Proof.Machine

/-- `ch_R`, bits [15:11] (42_frame_blend.md R170). -/
def red565 (q : Half) : Nat := (q.extractLsb' 11 5).toNat

/-- `ch_G`, bits [10:5]. -/
def green565 (q : Half) : Nat := (q.extractLsb' 5 6).toNat

/-- `ch_B`, bits [4:0]. -/
def blue565 (q : Half) : Nat := (q.extractLsb' 0 5).toNat

/-- One channel of BLEND (42_frame_blend.md R171); `f` is at most 256 for a well-formed command. -/
def blendChannel (f s d : Nat) : Nat := (s * f + d * (Config.factorMax - f)) >>> 8

/-- One pixel of BLEND: `s` is the current frame's, `d` the previous frame's. -/
def blendPixel (f : Nat) (s d : Half) : Half :=
  pack565 (blendChannel f (red565 s) (red565 d)) (blendChannel f (green565 s) (green565 d))
    (blendChannel f (blue565 s) (blue565 d))

/-- Output element `k` of BLEND. -/
def blendOut (factor : BitVec 9) (op : OpRecord) (m0 : Memory) (k : Nat) : Half :=
  blendPixel factor.toNat (elem16 m0 op.src0.toNat k) (elem16 m0 op.dst0.toNat k)

/-- What BLEND stores. -/
def blendEffect (factor : BitVec 9) (op : OpRecord) (m0 : Memory) : Effect :=
  pixelEffect (blendOut factor op m0) op

/-- BLEND (42_frame_blend.md R171). The step runs it for a record whose FACTOR field is `factor`. -/
def execBlend (factor : BitVec 9) (s : State) : Host.Outcome State Fault Refusal :=
  runCommand (.blend factor) (blendEffect factor) s

end Sys2Proof.Machine
end

