-- ==== Sys2Proof/Machine/Copy.lean ====
section
/-! DEFINITION. Bulk copy: COPY (44_bulk_copy.md). -/

namespace Sys2Proof.Machine

/-- Output byte `j` of COPY. -/
def copyOut (op : OpRecord) (m0 : Memory) (j : Nat) : Byte := Memory.read m0 (op.src0.toNat + j)

/-- What COPY stores (44_bulk_copy.md R210). -/
def copyEffect (op : OpRecord) (m0 : Memory) : Effect :=
  { writes := [(op.dst0.toNat, (List.range op.n).map (copyOut op m0))], ovf := false }

/-- COPY (44_bulk_copy.md R210). -/
def execCopy (s : State) : Host.Outcome State Fault Refusal := runCommand .copy copyEffect s

end Sys2Proof.Machine
end

