-- ==== Sys2Proof/Machine/Mac.lean ====
section
/-! DEFINITION. Audio multiply-accumulate: MAC (43_audio_mac.md). -/

namespace Sys2Proof.Machine

/-- The two running sums, and whether one has left the s32 range. -/
structure MacSums where
  left  : Int
  right : Int
  ovf   : Bool
  deriving DecidableEq, Repr

/-- One tap: a coefficient and the sample pair it multiplies (00_scope.md R12). -/
structure MacTap where
  k  : Int
  sl : Int
  sr : Int
  deriving DecidableEq, Repr

/-- Tap `i` (43_audio_mac.md R190). -/
def macTap (op : OpRecord) (m0 : Memory) (i : Nat) : MacTap :=
  { k := (elem16 m0 op.src1.toNat i).toInt
    sl := (elem16 m0 op.src0.toNat (2 * i)).toInt
    sr := (elem16 m0 op.src0.toNat (2 * i + 1)).toInt }

/-- The body of the loop (43_audio_mac.md R191): exact sums, the overflow test, the wrap. -/
def macStep (a : MacSums) (t : MacTap) : MacSums :=
  let eL := a.left + t.sl * t.k
  let eR := a.right + t.sr * t.k
  { left := wrapS32 eL, right := wrapS32 eR, ovf := a.ovf || outsideS32 eL || outsideS32 eR }

/-- Lane 0 of both accumulators, from `M0` (43_audio_mac.md R190). -/
def macStart (op : OpRecord) (m0 : Memory) : MacSums :=
  { left := (Memory.read32 m0 op.dst0.toNat).toInt, right := (Memory.read32 m0 op.dst1.toNat).toInt, ovf := false }

/-- The sums after all taps, in the reference order (43_audio_mac.md R193). -/
def macSums (op : OpRecord) (m0 : Memory) : MacSums :=
  ((List.range op.n).map (macTap op m0)).foldl macStep (macStart op m0)

/-- What MAC stores: lane 0 of both arrays, nothing when COUNT = 0 (43_audio_mac.md R191, R195). -/
def macEffect (op : OpRecord) (m0 : Memory) : Effect :=
  if op.n = 0 then { writes := [], ovf := false }
  else
    { writes :=
        [(op.dst0.toNat, bytes32 (BitVec.ofInt 32 (macSums op m0).left)),
         (op.dst1.toNat, bytes32 (BitVec.ofInt 32 (macSums op m0).right))]
      ovf := (macSums op m0).ovf }

/-- MAC (43_audio_mac.md R191). -/
def execMac (s : State) : Host.Outcome State Fault Refusal := runCommand .mac macEffect s

end Sys2Proof.Machine
end

