-- ==== Sys2Proof/Machine/Dispatch.lean ====
section
/-! DEFINITION. One arm per command. -/

namespace Sys2Proof.Machine

def exec (i : Instr) (s : State) : Host.Outcome State Fault Refusal :=
  match i with
  | .conv15c => Sys2Proof.Machine.execConv15c s
  | .conv15n => Sys2Proof.Machine.execConv15n s
  | .conv32 => Sys2Proof.Machine.execConv32 s
  | .blend factor => Sys2Proof.Machine.execBlend factor s
  | .mac => Sys2Proof.Machine.execMac s
  | .copy => Sys2Proof.Machine.execCopy s

end Sys2Proof.Machine
end

