-- ==== Sys2Proof/Machine/Moves.lean ====
section
/-! DEFINITION. The moves of the agents: host accesses to the register window and to data memory, the engine's
step, and the reset input (10_state.md, 20_memory.md R68 to R70, 70_reset_and_hazards.md). -/

namespace Sys2Proof.Machine

/-- Bytes of a host access. -/
def Size.bytes : Size → Nat
  | .byte => 1
  | .half => 2
  | .word => 4

/-- The one form of register access the model gives a meaning (10_state.md R31). -/
def regAccessOk (off : BitVec 8) (size : Size) : Bool := decide (size = .word) && decide (off.toNat % 4 = 0)

/-- The core enters, or stays in, the programming critical section; none if another core is inside it
(60_exceptions.md R244). A CMD write starts a command in it; an operand write that takes effect begins the operands of
the next one, which is not started; an operand write ignored while BUSY changes nothing of this. Log entry 12. -/
def claim (core : Nat) (isCmd : Bool) (s : State) : Option State :=
  match s.owner with
  | none => some { s with owner := some { core := core, started := isCmd } }
  | some o =>
    if o.core = core then some { s with owner := some { core := core, started := isCmd || (s.status.busy && o.started) } }
    else none

/-- A write to CMD while BUSY = 0: command acceptance (10_state.md R33). A word that is a command runs as that
command; acceptance records the error of any other. -/
def writeCmd (w : Word) (s : State) : Host.Outcome State Fault Refusal :=
  match decode w with
  | .command i => exec i s
  | .illegal => accept w s
  | .factor => accept w s

/-- A write to an operand register while BUSY = 0 (10_state.md R43). -/
def writeOperand (reg : Reg) (v : Word) (s : State) : State :=
  match reg with
  | .cmd => s
  | .status => s
  | .src0 => { s with src0 := v }
  | .src1 => { s with src1 := v }
  | .dst0 => { s with dst0 := v }
  | .dst1 => { s with dst1 := v }
  | .count => { s with count := v }

/-- A host write to STATUS, accepted whatever BUSY is (10_state.md R42). -/
def writeStatus (v : Word) (s : State) : State := { s with status := s.status.hostWrite v }

/-- A write to CMD or to an operand register: ignored, with WERR, while BUSY = 1 (10_state.md R33, R39, R43). -/
def programReg (core : Nat) (reg : Reg) (v : Word) (s : State) : Host.Outcome State Fault Refusal :=
  match claim core (decide (reg = .cmd)) s with
  | none => .refused .interleavedProgramming
  | some s1 =>
    if s1.status.busy then .next { s1 with status := s1.status.setWerr }
    else if reg = .cmd then writeCmd v s1
    else .next (writeOperand reg v s1)

/-- A host write to the register window (10_state.md R31 to R43). -/
def hostRegWrite (core : Nat) (off : BitVec 8) (size : Size) (v : Word) (s : State) :
    Host.Outcome State Fault Refusal :=
  if regAccessOk off size = false then .refused .registerAccessForm
  else
    match regAt off with
    | none => .next s
    | some .status => .next (writeStatus v s)
    | some reg => programReg core reg v s

/-- A STATUS read that returns BUSY = 0 shows the host the end of every ended command (20_memory.md R70) and
ends the critical section of a core that has started a command (60_exceptions.md R244). -/
def seeEnd (core : Nat) (s : State) : State :=
  if s.status.busy then s
  else
    { s with
      unread := []
      owner := if s.owner = some { core := core, started := true } then none else s.owner }

/-- A host read of the register window (10_state.md R31 to R34, R43). -/
def hostRegRead (core : Nat) (off : BitVec 8) (size : Size) (s : State) : Host.Outcome State Fault Refusal :=
  if regAccessOk off size = false then .refused .registerAccessForm
  else
    match regAt off with
    | none => .next { s with rdata := 0 }
    | some .status => .next (seeEnd core { s with rdata := readReg .status s })
    | some reg => .next { s with rdata := readReg reg s }

/-- What a command stores, as a function of its latched record and `M0` (40_command_model.md R118). -/
def effectOf (i : Instr) (op : OpRecord) (m0 : Memory) : Effect :=
  match i with
  | .conv15c => conv15cEffect op m0
  | .conv15n => conv15nEffect op m0
  | .conv32 => conv32Effect op m0
  | .blend factor => blendEffect factor op m0
  | .mac => macEffect op m0
  | .copy => copyEffect op m0

/-- The memory a running command will leave if nothing disturbs it. -/
def finalImage (run : Run) (m : Memory) : Memory :=
  match run.op.instr? with
  | some i => Memory.writeAll m (effectOf i run.op run.m0).writes
  | none => m

/-- A byte read by the host while the commands of `runs` (newest first) are running or their end is unread:
in the destination of one, each element is its final value `v` or its value in that command's `M0`, a draw
(20_memory.md R68, 70_reset_and_hazards.md R266); any value if that command's ranges were written meanwhile. The
`M0` value is itself read before the end of the older commands, with a draw of its own for each. Log entry 7. -/
def hostView (n a : Nat) : List Run → Byte → Byte
  | [], v => v
  | run :: rest, v =>
    match run.op.writes.find? (fun r => r.holds a) with
    | none => hostView (n + 1) a rest v
    | some r =>
      if run.raced then Config.freeByte n a
      else if Config.freeBit n (run.op.elementAt r a) then v
      else hostView (n + 1) a rest (Memory.read run.m0 a)

/-- The byte a host load returns. While a command runs on a platform with bus errors, the final value of a
byte it stores to is itself any value (60_exceptions.md R236), and one with COUNT = 0 makes no access that could end
in a bus error (40_command_model.md R120). The load takes the command as undisturbed so far: a host store or a reset
that comes after it does not widen what it returned (DESIGN CHOICE, log entry 7). -/
def hostByte (s : State) (a : Nat) : Byte :=
  match s.eng with
  | .idle => hostView s.draws a s.unread (Memory.read s.mem a)
  | .busy run =>
    let final :=
      if s.platform.hasBusError && run.op.stores.any (fun r => r.holds a) then Config.freeByte s.draws a
      else Memory.read (finalImage run s.mem) a
    hostView s.draws a (run :: s.unread) final

/-- The little-endian value of some bytes, zero-extended (20_memory.md R61). -/
def assemble (bs : List Byte) : Word := BitVec.ofNat 32 (bs.foldr (fun b acc => b.toNat + 256 * acc) 0)

/-- Why a host access to data memory stops, none if it does not (log entry 13). -/
def hostAccessRefusal (p : Platform) (r : Range) : Option Refusal :=
  if r.intersects (Platform.window p) then some .registerAccessForm
  else if Platform.covers p [r] (some .device) then some .deviceMemory
  else if Platform.covers p [r] none then some .missingMemory
  else none

/-- A host write into a range of a running command, or of one whose end is unread, makes its results any
value (20_memory.md R68, 70_reset_and_hazards.md R266). Every byte of an ended command's destination is freed, those
that a newer ended command has since stored to as well, and nothing else: OVF and what later commands have read or
computed stay (DESIGN CHOICE, log entry 6). -/
def markRaces (written : Range) (s : State) : State :=
  let eng :=
    match s.eng with
    | .idle => Engine.idle
    | .busy run =>
      .busy { run with raced := run.raced || run.op.ranges.any (fun r => r.intersects written) }
  let hit := s.unread.filter (fun run => run.op.ranges.any (fun r => r.intersects written))
  if hit = [] then { s with eng := eng }
  else { s with eng := eng, mem := drawBytes s.draws (hit.flatMap (fun run => run.op.writes)) s.mem, draws := s.draws + 1 }

/-- A host store to data memory (30_encoding.md R97). `visible` says that 20_memory.md R69 is met for it. -/
def storeData (addr : Word) (size : Size) (v : Word) (visible : Bool) (s : State) : State :=
  let r : Range := { base := addr.toNat, len := size.bytes }
  let others := s.unpublished.filter (fun a => !r.holds a)
  markRaces r
    { s with
      mem := Memory.writeBytes s.mem addr.toNat ((bytes32 v).take size.bytes)
      unpublished := if visible then others else r.addresses ++ others }

/-- A host load from data memory (30_encoding.md R97). It uses one draw for each command whose end is unread and
one for the running command. -/
def loadData (addr : Word) (size : Size) (s : State) : State :=
  { s with
    ldata := assemble ((List.range size.bytes).map (fun j => hostByte s (addr.toNat + j)))
    draws := s.draws + s.unread.length + 1 }

/-- The offset in the register window of a bus address inside it (10_state.md R30). -/
def windowOffset (p : Platform) (addr : Word) : BitVec 8 := (addr - p.regBase).setWidth 8

/-- A host store to a bus address: to the register window (10_state.md R30) or to data memory. -/
def hostStore (core : Nat) (addr : Word) (size : Size) (v : Word) (visible : Bool) (s : State) :
    Host.Outcome State Fault Refusal :=
  if Config.addressSpace < addr.toNat + size.bytes then .fault .noSuchAddress
  else if (Platform.window s.platform).holds addr.toNat then
    hostRegWrite core (windowOffset s.platform addr) size v s
  else
    match hostAccessRefusal s.platform { base := addr.toNat, len := size.bytes } with
    | some r => .refused r
    | none => .next (storeData addr size v visible s)

/-- A host load from a bus address: from the register window or from data memory. -/
def hostLoad (core : Nat) (addr : Word) (size : Size) (s : State) : Host.Outcome State Fault Refusal :=
  if Config.addressSpace < addr.toNat + size.bytes then .fault .noSuchAddress
  else if (Platform.window s.platform).holds addr.toNat then
    hostRegRead core (windowOffset s.platform addr) size s
  else
    match hostAccessRefusal s.platform { base := addr.toNat, len := size.bytes } with
    | some r => .refused r
    | none => .next (loadData addr size s)

/-- One host operation. -/
def hostMove (core : Nat) (op : HostOp) (s : State) : Host.Outcome State Fault Refusal :=
  match op with
  | .regWrite off size v => hostRegWrite core off size v s
  | .regRead off size => hostRegRead core off size s
  | .store addr size v visible => hostStore core addr size v visible s
  | .load addr size => hostLoad core addr size s
  | .publish => .next { s with unpublished := [] }

/-- The platform answers some access of the command with a bus error: only where it can, and only if the
command makes an access (60_exceptions.md R236). Log entry 9. -/
def answeredWithError (answer : BusAnswer) (p : Platform) (i : Instr) (op : OpRecord) : Bool :=
  decide (answer = .error) && p.hasBusError && decide (accessRanges i op ≠ [])

/-- The engine's move: it ends the running command (40_command_model.md R118, 60_exceptions.md R236). -/
def engineMove (answer : BusAnswer) (s : State) : Host.Outcome State Fault Refusal :=
  match s.eng with
  | .idle => .next s
  | .busy run =>
    match run.op.instr? with
    | none => .fault .badLatchedOp
    | some i =>
      if answeredWithError answer s.platform i run.op then .next (endWithBusError (writeRanges i run.op) run s)
      else exec i s

/-- The reset input (70_reset_and_hazards.md R260, R261). It is asserted and released in this one move, so no access
falls while it is held, and the abandoned command is not among the unread ones, so its early-access race ends here
(DESIGN CHOICE, log entry 11). -/
def resetInput (s : State) : State :=
  let s1 :=
    match s.eng with
    | .idle => s
    | .busy run => { s with mem := drawBytes s.draws run.op.writes s.mem, draws := s.draws + 1 }
  { s1 with
    cmd := 0, status := Status.reset, src0 := 0, src1 := 0, dst0 := 0, dst1 := 0, count := 0, eng := .idle
    owner := none }

/-- One move. In a move of both agents the host's STATUS write comes first and the engine's set second
(10_state.md R42). -/
def doMove (m : Move) (s : State) : Host.Outcome State Fault Refusal :=
  match m with
  | .host core op => hostMove core op s
  | .engine answer => engineMove answer s
  | .statusWriteWithEngine v answer => engineMove answer (writeStatus v s)
  | .reset => .next (resetInput s)

end Sys2Proof.Machine
end

