-- ==== Sys2Proof/Machine/Step.lean ====
section
/-! DEFINITION. One step: the next move of the pending ones, or the engine's when none is left. -/

namespace Sys2Proof.Machine

/-- One step of the whole system. With no move pending the engine moves, which is the weak fairness of
40_command_model.md R121, and an IDLE block stays as it is. Log entries 3 and 18. -/
def step (s : State) : Host.Outcome State Fault Refusal :=
  match s.pending with
  | [] => engineMove .ok s
  | m :: rest => doMove m { s with pending := rest }

/-- The state whose very next step is the host's write of the word to CMD: the write is put first, and the
block is IDLE and outside any core's critical section, as the write needs to be an acceptance
(10_state.md R33). Log entry 19. -/
def State.withFetchWord (s : State) (nbits w : Nat) : State :=
  { s with
    eng := .idle
    status := { s.status with busy := false }
    owner := none
    pending := .host 0 (.regWrite (regOffset .cmd) .word (BitVec.ofNat 32 (w % 2 ^ nbits))) :: s.pending }

end Sys2Proof.Machine
end

