-- ==== Sys2Proof/Machine/Assembler.lean ====
section
/-! DEFINITION. The host-side assembly of 30_encoding.md R97 and R98. Control flow (`label`, `bnz`) is the host
CPU's and not the block's (R97); log entry 17. -/

namespace Sys2Proof.Machine

/-- The primitive lines (30_encoding.md R97). -/
inductive AsmLine where
  | wr (off : BitVec 8) (v : Word)
  | rd (off : BitVec 8)
  | cmd (w : Word)
  | label (n : Nat)
  /-- goes back to the nearest label `n` above if the bits `[lo + len - 1 : lo]` of the last `rd` result are not 0 -/
  | bnz (lo len n : Nat)
  | memSet (addr : Word) (size : Size) (v : Word)
  | memCheck (addr : Word) (size : Size) (v : Word)
  deriving DecidableEq, Repr

/-- The pseudo-instructions (30_encoding.md R98). -/
inductive Pseudo where
  | conv15c (dst src n : Word)
  | conv15n (dst src n : Word)
  | conv32 (dst src n : Word)
  | blend (dest src n : Word) (f : Nat)
  | mac (accl accr samples kernel n : Word)
  | copy (dest src n : Word)
  | wait
  | clr
  deriving DecidableEq, Repr

/-- `wr` to a register by name. -/
def wrReg (reg : Reg) (v : Word) : AsmLine := .wr (regOffset reg) v

/-- The writes of a command with one source and one destination, CMD last. -/
def oneSource (dst src n : Word) (i : Instr) : List AsmLine :=
  [wrReg .src0 src, wrReg .dst0 dst, wrReg .count n, wrReg .cmd (encode i)]

/-- The expansions (30_encoding.md R98). The assembler rejects a BLEND factor above 256. -/
def expand : Pseudo → Option (List AsmLine)
  | .conv15c dst src n => some (oneSource dst src n .conv15c)
  | .conv15n dst src n => some (oneSource dst src n .conv15n)
  | .conv32 dst src n => some (oneSource dst src n .conv32)
  | .blend dest src n f =>
    if f ≤ Config.factorMax then some (oneSource dest src n (.blend (BitVec.ofNat 9 f))) else none
  | .mac accl accr samples kernel n =>
    some [wrReg .src0 samples, wrReg .src1 kernel, wrReg .dst0 accl, wrReg .dst1 accr, wrReg .count n,
      wrReg .cmd (encode .mac)]
  | .copy dest src n => some (oneSource dest src n .copy)
  | .wait => some [.label 1, .rd (regOffset .status), .bnz 0 1 1]
  | .clr => some [wrReg .status 0x0000001E]

/-- The bus operation of a line, none for the host's own control flow (30_encoding.md R97). A host store is
visible to the block before the next CMD write (20_memory.md R69). -/
def AsmLine.hostOp : AsmLine → Option HostOp
  | .wr off v => some (.regWrite off .word v)
  | .rd off => some (.regRead off .word)
  | .cmd w => some (.regWrite (regOffset .cmd) .word w)
  | .label _ => none
  | .bnz _ _ _ => none
  | .memSet addr size v => some (.store addr size v true)
  | .memCheck addr size _ => some (.load addr size)

/-- The host moves of some lines run on one core. -/
def hostMoves (core : Nat) (lines : List AsmLine) : List Move :=
  lines.filterMap (fun l => l.hostOp.map (Move.host core))

/-- Whether the branch of a `bnz` is taken on a last `rd` result (30_encoding.md R97). -/
def bnzTaken (lo len : Nat) (rdata : Word) : Bool := decide (rdata.extractLsb' lo len ≠ 0)

end Sys2Proof.Machine
end

