-- ==== Sys2Proof/Machine/Datapath.lean ====
section
/-! DEFINITION. The batch and tail datapaths of 00_scope.md R14, which the meanings do not use: they state every
result for each element by index. The statements say that the two agree (40_command_model.md R122). -/

namespace Sys2Proof.Machine

/-- The batch width of a command, informative (00_scope.md R6). -/
def batchWidth : Instr → Nat
  | .conv15c => 4
  | .conv15n => 4
  | .conv32 => 4
  | .blend _ => 8
  | .mac => 4
  | .copy => Config.copyBlock

/-- The beats of a command of `n` elements: full batches of `w`, then the tail one element at a time
(44_bulk_copy.md R211). -/
def batches (w n : Nat) : List (List Nat) :=
  (List.range (n / w)).map (fun b => (List.range w).map (fun j => b * w + j)) ++
    (List.range (n % w)).map (fun t => [n / w * w + t])

/-- The bytes of output element `k` of a command with a D range; MAC has none. -/
def outBytes (i : Instr) (op : OpRecord) (m0 : Memory) (k : Nat) : List Byte :=
  match i with
  | .conv15c => bytes16 (conv15cOut op m0 k)
  | .conv15n => bytes16 (conv15nOut op m0 k)
  | .conv32 => bytes16 (conv32Out op m0 k)
  | .blend factor => bytes16 (blendOut factor op m0 k)
  | .mac => []
  | .copy => [copyOut op m0 k]

/-- One beat's transfer: the outputs of consecutive elements in one go (20_memory.md R64). -/
def beatWrite (i : Instr) (op : OpRecord) (m0 : Memory) (beat : List Nat) : Nat × List Byte :=
  (op.dst0.toNat + destBytes i * beat.headD 0, beat.flatMap (outBytes i op m0))

/-- One beat of MAC: the taps added at once and wrapped once, the overflow still that of the reference order
(43_audio_mac.md R193). -/
def macBeat (a : MacSums) (taps : List MacTap) : MacSums :=
  let sumL := fun j => a.left + ((taps.take j).map (fun t => t.sl * t.k)).sum
  let sumR := fun j => a.right + ((taps.take j).map (fun t => t.sr * t.k)).sum
  { left := wrapS32 (sumL taps.length)
    right := wrapS32 (sumR taps.length)
    ovf := a.ovf || (List.range taps.length).any (fun j => outsideS32 (sumL (j + 1)) || outsideS32 (sumR (j + 1))) }

/-- The sums of MAC through the beats. -/
def batchedSums (op : OpRecord) (m0 : Memory) : MacSums :=
  (batches (batchWidth .mac) op.n).foldl (fun a beat => macBeat a (beat.map (macTap op m0))) (macStart op m0)

/-- What the batch and tail datapaths store, beat after beat. -/
def batchedWrites (i : Instr) (op : OpRecord) (m0 : Memory) : List (Nat × List Byte) :=
  (batches (batchWidth i) op.n).map (beatWrite i op m0)

end Sys2Proof.Machine
end

