-- ==== Sys2Proof/Safety.lean ====
section
/-! DEFINITION. What counts as a good state and an undisturbed run, in the terms the statements use. -/

namespace Sys2Proof.Machine

/-- The moves of STATUS that no state contradicts: DONE and ERR are clear while BUSY (40_command_model.md R110),
ERRCODE is 0 exactly while ERR is 0 (10_state.md R40) and never above 6 (60_exceptions.md R231). -/
structure Status.Good (st : Status) : Prop where
  busy_done : st.busy = true → st.done = false
  busy_err : st.busy = true → st.err = false
  code_zero : st.errcode = 0 ↔ st.err = false
  code_bound : st.errcode.toNat ≤ 6

/-- A command that was accepted: its record passes validation and its snapshot is canonical
(40_command_model.md R112, R118). -/
structure Run.Good (run : Run) : Prop where
  snapshot_wf : Memory.Wf run.m0
  valid : validate run.op.word run.op = none

/-- The engine is BUSY exactly when STATUS.BUSY is 1, on a validated command whose record equals the registers
(10_state.md R46, 40_command_model.md R111). -/
def EngineGood (s : State) : Prop :=
  match s.eng with
  | .idle => s.status.busy = false
  | .busy run => s.status.busy = true ∧ run.Good ∧ run.op = latch s.cmd s ∧ run.op.word = s.cmd

/-- The invariant of the machine. -/
structure Invariant (s : State) : Prop where
  mem_wf : Memory.Wf s.mem
  status : s.status.Good
  engine : EngineGood s
  unread : ∀ run ∈ s.unread, run.Good

/-- A running command that nothing disturbs: no host write into its ranges (20_memory.md R68) and no access to
missing memory that the bus answers with an error (60_exceptions.md R236). -/
structure Undisturbed (i : Instr) (run : Run) (s : State) : Prop where
  notRaced : run.raced = false
  noBusError : accessFails s.platform (accessRanges i run.op) = false

/-- The move the next step makes (log entry 3). -/
def State.nextMove (s : State) : Move :=
  match s.pending with
  | [] => .engine .ok
  | m :: _ => m

/-- What the step takes away from the pending moves. -/
def State.popMove (s : State) : State := { s with pending := s.pending.tail }

/-- The register a host access of the given form writes, none if the access is refused or its offset is
reserved (10_state.md R31, R32). -/
def accessedReg (off : BitVec 8) (size : Size) : Option Reg := if regAccessOk off size then regAt off else none

/-- The register write a move makes, with the value: by offset, by bus address inside the window, or together
with the engine (10_state.md R30, R42). -/
def Move.registerWrite (p : Platform) : Move → Option (Reg × Word)
  | .host _ (.regWrite off size v) => (accessedReg off size).map (fun reg => (reg, v))
  | .host _ (.store addr size v _) =>
    if addr.toNat + size.bytes ≤ Config.addressSpace && (Platform.window p).holds addr.toNat then
      (accessedReg (windowOffset p addr) size).map (fun reg => (reg, v))
    else none
  | .host _ (.regRead _ _) => none
  | .host _ (.load _ _) => none
  | .host _ .publish => none
  | .engine _ => none
  | .statusWriteWithEngine v _ => some (.status, v)
  | .reset => none

/-- The core may write operand registers and CMD: no other core is inside the critical section
(60_exceptions.md R244). -/
def State.mayProgram (s : State) (core : Nat) : Prop := ∀ o, s.owner = some o → o.core = core

/-- The move is a STATUS read of the core, by offset or by bus address inside the window (10_state.md R30). -/
def Move.statusRead (p : Platform) : Move → Option Nat
  | .host core (.regRead off size) => if accessedReg off size = some .status then some core else none
  | .host core (.load addr size) =>
    if addr.toNat + size.bytes ≤ Config.addressSpace && (Platform.window p).holds addr.toNat &&
        accessedReg (windowOffset p addr) size = some .status then some core
    else none
  | .host _ (.regWrite _ _ _) => none
  | .host _ (.store _ _ _ _) => none
  | .host _ .publish => none
  | .engine _ => none
  | .statusWriteWithEngine _ _ => none
  | .reset => none

/-- The section after a write to CMD or to an operand register. -/
def State.claimed (s : State) (core : Nat) (isCmd : Bool) : Option Session :=
  some { core := core, started := isCmd || (s.status.busy && s.owner = some { core := core, started := true }) }

/-- A move of the engine (alone or beside a STATUS write). -/
def Move.isEngine : Move → Bool
  | .host _ _ => false
  | .engine _ => true
  | .statusWriteWithEngine _ _ => true
  | .reset => false

end Sys2Proof.Machine
end

