-- ==== Sys2Proof/Certificates/Slice0/Obligations.lean ====
section
/-! DEFINITION. The statements for the provers. Each docstring names the rule of spec/ it formalises. -/

open Sys2Proof Sys2Proof.Machine

/-! ## Encoding -/

/-- Words written out from 30_encoding.md R91 and R92, and the decode rows of 95_test_vectors.md V1 to V10. -/
def Obligations.DecodeReadsTheSpecWords : Prop :=
  decode 0x00000001 = .command .conv15c ∧ decode 0x00000002 = .command .conv15n ∧
  decode 0x00000003 = .command .conv32 ∧ decode 0x00000004 = .command (.blend 0) ∧
  decode 0x00008004 = .command (.blend 128) ∧ decode 0x00010004 = .command (.blend 256) ∧
  decode 0x00000005 = .command .mac ∧ decode 0x00000006 = .command .copy ∧
  decode 0x00000000 = .illegal ∧ decode 0x00000007 = .illegal ∧ decode 0x0000000F = .illegal ∧
  decode 0x00000011 = .illegal ∧ decode 0x00000101 = .illegal ∧ decode 0x00020001 = .illegal ∧
  decode 0x80022C04 = .illegal ∧ decode 0x00010104 = .factor ∧ decode 0x0001FF04 = .factor

/-- Decoder and encoder agree in both directions: a word decodes to a command exactly when the command is well
formed and the word is its encoding. -/
def Obligations.DecodeAndEncodeAgree : Prop :=
  ∀ (w : Word) (i : Instr), decode w = .command i ↔ i.wellFormed = true ∧ w = encode i

/-- 30_encoding.md R94: the words of every command, the 255 FACTOR words, and ILLEGAL for every other word. -/
def Obligations.EveryWordDecodesAsListed : Prop :=
  ∀ w : Word,
    (decode w = .command .conv15c ↔ w = 0x00000001) ∧
    (decode w = .command .conv15n ↔ w = 0x00000002) ∧
    (decode w = .command .conv32 ↔ w = 0x00000003) ∧
    (decode w = .command .mac ↔ w = 0x00000005) ∧
    (decode w = .command .copy ↔ w = 0x00000006) ∧
    (∀ f : BitVec 9, decode w = .command (.blend f) ↔ f.toNat ≤ 256 ∧ w = 0x00000004 ||| (f.setWidth 32 <<< 8)) ∧
    (decode w = .factor ↔ ∃ f : BitVec 9, 257 ≤ f.toNat ∧ w = 0x00000004 ||| (f.setWidth 32 <<< 8)) ∧
    (decode w = .illegal ↔
      w ≠ 0x00000001 ∧ w ≠ 0x00000002 ∧ w ≠ 0x00000003 ∧ w ≠ 0x00000005 ∧ w ≠ 0x00000006 ∧
        ∀ f : BitVec 9, w ≠ 0x00000004 ||| (f.setWidth 32 <<< 8))

/-! ## The register window and STATUS -/

/-- 10_state.md R41, with the bit places of R34: what a STATUS read returns, and that the other bits of a written
value have no effect. -/
def Obligations.StatusReservedBitsReadZero : Prop :=
  (∀ (s : State) (core : Nat) (rest : List Move), s.pending = .host core (.regRead 0x04 .word) :: rest →
    ∃ t, step s = .next t ∧
      t.rdata.getLsbD 0 = s.status.busy ∧ t.rdata.getLsbD 1 = s.status.done ∧ t.rdata.getLsbD 2 = s.status.err ∧
      t.rdata.getLsbD 3 = s.status.ovf ∧ t.rdata.getLsbD 4 = s.status.werr ∧
      t.rdata.extractLsb' 5 3 = 0 ∧ t.rdata.extractLsb' 8 4 = s.status.errcode ∧ t.rdata.extractLsb' 12 20 = 0) ∧
  (∀ (s : State) (core : Nat) (w : Word) (rest : List Move),
    step { s with pending := .host core (.regWrite 0x04 .word w) :: rest } =
      step { s with pending := .host core (.regWrite 0x04 .word (w &&& 0x0000001E)) :: rest })

/-- The whole next state of a STATUS read: it returns STATUS and leaves every register and memory as they were
(10_state.md R34, 20_memory.md R65). What it does to the model's own records is the model's reading: with BUSY = 0 it
shows the end of every ended command (20_memory.md R70, log entry 7) and ends the reader's critical section once a
command was started in it, so that any core may program the block again (60_exceptions.md R244, log entry 12). -/
def Obligations.StatusReadLeavesTheBlockAsItIs : Prop :=
  ∀ (s : State) (core : Nat) (rest : List Move), s.pending = .host core (.regRead 0x04 .word) :: rest →
    ∃ t, step s = .next t ∧ t.rdata = s.status.toWord ∧
      (s.status.busy = true → t = { s with pending := rest, rdata := t.rdata }) ∧
      (s.status.busy = false →
        t = { s with pending := rest, rdata := t.rdata, unread := [], owner := t.owner } ∧
        (s.owner = some { core := core, started := true } → t.owner = none ∧ ∀ other, t.mayProgram other) ∧
        (s.owner ≠ some { core := core, started := true } → t.owner = s.owner))

/-- 10_state.md R42: a STATUS write clears exactly the written bits, whatever BUSY is. In the same step as the end of a
command all but STATUS is as the engine's move alone leaves it, and a bit the engine sets (seen by its move from clear
bits) ends at 1. -/
def Obligations.StatusWriteClearsTheWrittenBits : Prop :=
  (∀ (s : State) (core : Nat) (w : Word) (rest : List Move),
    s.pending = .host core (.regWrite 0x04 .word w) :: rest →
    step s = .next { s with
      pending := rest
      status :=
        { busy := s.status.busy
          done := if w.getLsbD 1 then false else s.status.done
          err := if w.getLsbD 2 then false else s.status.err
          errcode := if w.getLsbD 2 then 0 else s.status.errcode
          ovf := if w.getLsbD 3 then false else s.status.ovf
          werr := if w.getLsbD 4 then false else s.status.werr } }) ∧
  (∀ (s : State) (w : Word) (answer : BusAnswer) (rest : List Move) (run : Run) (i : Instr),
    s.pending = .statusWriteWithEngine w answer :: rest → s.eng = .busy run → run.op.instr? = some i →
    ∃ u, step { s with
        pending := .engine answer :: rest
        status := { s.status with done := false, err := false, errcode := 0, ovf := false } } = .next u ∧
      step s = .next { u with
        status :=
          { busy := false
            done := true
            err := u.status.err || (!w.getLsbD 2 && s.status.err)
            errcode := if u.status.err then u.status.errcode else if w.getLsbD 2 then 0 else s.status.errcode
            ovf := u.status.ovf || (!w.getLsbD 3 && s.status.ovf)
            werr := !w.getLsbD 4 && s.status.werr } })

/-- 10_state.md R32: reserved offsets. -/
def Obligations.ReservedOffsetsReadZeroAndIgnoreWrites : Prop :=
  ∀ (s : State) (core : Nat) (off : BitVec 8) (v : Word) (rest : List Move),
    0x1C ≤ off.toNat → off.toNat % 4 = 0 →
    (s.pending = .host core (.regRead off .word) :: rest → step s = .next { s with pending := rest, rdata := 0 }) ∧
    (s.pending = .host core (.regWrite off .word v) :: rest → step s = .next { s with pending := rest })

/-- 10_state.md R31: only 32-bit accesses at multiples of 4 have a meaning, by offset or by bus address inside the
window. -/
def Obligations.OnlyAlignedWordAccessesHaveMeaning : Prop :=
  ∀ (s : State) (core : Nat) (off : BitVec 8) (size : Size) (v : Word) (rest : List Move),
    (size ≠ .word ∨ off.toNat % 4 ≠ 0 →
      (s.pending = .host core (.regRead off size) :: rest → step s = .refused .registerAccessForm) ∧
      (s.pending = .host core (.regWrite off size v) :: rest → step s = .refused .registerAccessForm)) ∧
    (size = .word ∧ off.toNat % 4 = 0 →
      (s.pending = .host core (.regRead off size) :: rest → ∃ t, step s = .next t) ∧
      (s.pending = .host core (.regWrite off size v) :: rest → step s ≠ .refused .registerAccessForm)) ∧
    (∀ (addr : Word) (visible : Bool), s.platform.regBase.toNat ≤ addr.toNat →
      addr.toNat < s.platform.regBase.toNat + 256 → addr.toNat + size.bytes ≤ 2 ^ 32 →
      off.toNat = addr.toNat - s.platform.regBase.toNat →
      (s.pending = .host core (.load addr size) :: rest →
        step s = step { s with pending := .host core (.regRead off size) :: rest }) ∧
      (s.pending = .host core (.store addr size v visible) :: rest →
        step s = step { s with pending := .host core (.regWrite off size v) :: rest }))

/-- 10_state.md R43, at the offsets of R30: the five operand registers store while BUSY = 0, ignore with WERR while BUSY = 1, read back
without a side effect, are never written by the engine, and reset to 0. That the core must be
able to program, and the section its write begins or goes on with, are the model's reading of 60_exceptions.md R244
(log entry 12, DEDUCED and DESIGN CHOICE). -/
def Obligations.OperandRegistersStoreAndReadBack : Prop :=
  ∀ (reg : Reg) (off : BitVec 8) (value : State → Word),
    (reg, off, value) ∈ [(Reg.src0, 0x08#8, State.src0), (.src1, 0x0C#8, State.src1), (.dst0, 0x10#8, State.dst0),
      (.dst1, 0x14#8, State.dst1), (.count, 0x18#8, State.count)] →
    (∀ (s : State) (core : Nat) (v : Word) (rest : List Move),
      s.pending = .host core (.regWrite off .word v) :: rest → s.mayProgram core →
      (s.status.busy = false →
        ∃ t, step s = .next t ∧ value t = v ∧ (∀ r, r ≠ reg → readReg r t = readReg r s) ∧
          t = { s with
            pending := rest, owner := s.claimed core false
            src0 := t.src0, src1 := t.src1, dst0 := t.dst0, dst1 := t.dst1, count := t.count }) ∧
      (s.status.busy = true →
        step s = .next { s with
          pending := rest, owner := s.claimed core false, status := { s.status with werr := true } })) ∧
    (∀ (s : State) (core : Nat) (rest : List Move),
      s.pending = .host core (.regRead off .word) :: rest →
      step s = .next { s with pending := rest, rdata := value s }) ∧
    (∀ s t : State, s.nextMove.isEngine = true → step s = .next t → value t = value s) ∧
    value State.reset = 0

/-- 10_state.md R39: WERR after any step of any state, and that a write that sets it is ignored. -/
def Obligations.WerrChangesExactlyAsStated : Prop :=
  ∀ s t : State, step s = .next t →
    (t.status.werr =
      match s.nextMove with
      | .reset => false
      | m =>
        match m.registerWrite s.platform with
        | some (.status, v) => s.status.werr && !v.getLsbD 4
        | some _ => s.status.werr || s.status.busy
        | none => s.status.werr) ∧
    (∀ reg v, s.status.busy = true → s.nextMove.registerWrite s.platform = some (reg, v) → reg ≠ .status →
      t = { s with pending := s.pending.tail, owner := t.owner, status := { s.status with werr := true } })

/-- 10_state.md R38: what sets OVF and what clears it. Only a MAC with taps whose ranges the host wrote is left out
(20_memory.md R68 leaves its results open, and OVF is one of them, log entry 6). -/
def Obligations.OvfIsSetOnlyByMacAndIsSticky : Prop :=
  ∀ s t : State, Invariant s → step s = .next t →
    (∀ run, s.eng = .busy run → run.raced = false ∨ run.op.instr? ≠ some .mac ∨ run.op.count = 0) →
    (t.status.ovf = true → s.status.ovf = true ∨
      (s.nextMove.isEngine = true ∧
        ∃ run, s.eng = .busy run ∧ run.op.instr? = some .mac ∧ (macSums run.op run.m0).ovf = true)) ∧
    (s.status.ovf = true → t.status.ovf = false →
      s.nextMove = .reset ∨ ∃ v, s.nextMove.registerWrite s.platform = some (.status, v) ∧ v.getLsbD 3 = true) ∧
    (∀ run, s.nextMove.isEngine = true → s.eng = .busy run → run.op.instr? = some .mac →
      (macSums run.op run.m0).ovf = true → t.status.err = false → t.status.ovf = true) ∧
    (s.nextMove = .reset → t.status.ovf = false) ∧
    (∀ core w, s.nextMove = .host core (.regWrite 0x04 .word w) → w.getLsbD 3 = true → t.status.ovf = false)

/-- 10_state.md R35 and R36: BUSY and DONE after any step. -/
def Obligations.BusyAndDoneFollowTheCommand : Prop :=
  ∀ s t : State, Invariant s → step s = .next t →
    (t.status.busy =
      match s.nextMove with
      | .reset => false
      | .engine _ => false
      | .statusWriteWithEngine _ _ => false
      | m =>
        match m.registerWrite s.platform with
        | some (.cmd, w) => s.status.busy || (validate w (latch w s)).isNone
        | _ => s.status.busy) ∧
    (t.status.done =
      match s.nextMove with
      | .reset => false
      | .engine _ => s.status.done || s.status.busy
      | .statusWriteWithEngine v _ => (s.status.done && !v.getLsbD 1) || s.status.busy
      | m =>
        match m.registerWrite s.platform with
        | some (.cmd, w) => if s.status.busy then s.status.done else (validate w (latch w s)).isSome
        | some (.status, v) => s.status.done && !v.getLsbD 1
        | _ => s.status.done)

/-- 10_state.md R37 and R40: ERR and ERRCODE after any step, the codes those of 60_exceptions.md R231. -/
def Obligations.ErrAndErrcodeFollowTheCommand : Prop :=
  ∀ s t : State, Invariant s → step s = .next t →
    (t.status.err = false → t.status.errcode = 0) ∧
    match s.nextMove with
    | .reset => t.status.err = false ∧ t.status.errcode = 0
    | .engine _ =>
      (t.status.err = s.status.err ∧ t.status.errcode = s.status.errcode) ∨
        (s.status.busy = true ∧ t.status.err = true ∧ t.status.errcode = 6)
    | .statusWriteWithEngine v _ =>
      (t.status.err = (s.status.err && !v.getLsbD 2) ∧
          t.status.errcode = if v.getLsbD 2 then 0 else s.status.errcode) ∨
        (s.status.busy = true ∧ t.status.err = true ∧ t.status.errcode = 6)
    | m =>
      match m.registerWrite s.platform with
      | some (.cmd, w) =>
        if s.status.busy then t.status.err = s.status.err ∧ t.status.errcode = s.status.errcode
        else
          match validate w (latch w s) with
          | some .illegal => t.status.err = true ∧ t.status.errcode = 1
          | some .factor => t.status.err = true ∧ t.status.errcode = 2
          | some .align => t.status.err = true ∧ t.status.errcode = 3
          | some .range => t.status.err = true ∧ t.status.errcode = 4
          | some .overlap => t.status.err = true ∧ t.status.errcode = 5
          | some .bus => False
          | none => t.status.err = false ∧ t.status.errcode = 0
      | some (.status, v) =>
        t.status.err = (s.status.err && !v.getLsbD 2) ∧
          t.status.errcode = if v.getLsbD 2 then 0 else s.status.errcode
      | _ => t.status.err = s.status.err ∧ t.status.errcode = s.status.errcode

/-- 10_state.md R33: CMD holds the last accepted word; nothing else writes it but reset. -/
def Obligations.CmdHoldsTheLastAcceptedWord : Prop :=
  (∀ s t : State, Invariant s → step s = .next t →
    t.cmd =
      match s.nextMove with
      | .reset => 0
      | m =>
        match m.registerWrite s.platform with
        | some (.cmd, w) => if s.status.busy then s.cmd else w
        | _ => s.cmd) ∧
  (∀ (s : State) (core : Nat) (rest : List Move), s.pending = .host core (.regRead 0x00 .word) :: rest →
    step s = .next { s with pending := rest, rdata := s.cmd })

/-! ## Acceptance and validation -/

/-- 10_state.md R33 and 40_command_model.md R110: a write of any word to CMD. The snapshot is data memory, but for
bytes the command reads whose last host store is not visible to the block (20_memory.md R69; the list of them is the
model's, log entry 8, DESIGN CHOICE). A command that 70_reset_and_hazards.md R268 gives no meaning is refused, after
validation (log entry 10, DEDUCED). The critical section is log entry 12's. -/
def Obligations.CmdWriteIsCommandAcceptance : Prop :=
  ∀ (s : State) (core : Nat) (w : Word) (rest : List Move),
    s.pending = .host core (.regWrite 0x00 .word w) :: rest → s.mayProgram core →
    (s.status.busy = true →
      step s = .next { s with
        pending := rest, owner := s.claimed core true, status := { s.status with werr := true } }) ∧
    (s.status.busy = false → s.eng = .idle →
      let op : OpRecord :=
        { op := w.extractLsb' 0 4, factor := w.extractLsb' 8 9
          src0 := s.src0, src1 := s.src1, dst0 := s.dst0, dst1 := s.dst1, count := s.count }
      (∀ e, validate w op = some e →
        step s = .next { s with
          pending := rest, owner := s.claimed core true, cmd := w
          status := { s.status with done := true, err := true, errcode := e.code } }) ∧
      (∀ r, validate w op = none → operandRefusal s.platform op.ranges = some r → step s = .refused r) ∧
      (validate w op = none → operandRefusal s.platform op.ranges = none →
        ∃ m0, (∀ a, a ∉ s.unpublished ∨ (∀ r ∈ op.loads, ¬(r.base ≤ a ∧ a < r.base + r.len)) →
            Memory.read m0 a = Memory.read s.mem a) ∧
          (s.unpublished = [] → m0 = s.mem) ∧
          step s = .next { s with
            pending := rest, owner := s.claimed core true, cmd := w
            status := { s.status with busy := true, done := false, err := false, errcode := 0 }
            eng := .busy { op := op, m0 := m0, raced := false }
            draws := s.draws + 1 }))

/-- 40_command_model.md R112, R114, R116 and R117: the checks of every command in order, in the words of each
command's own Errors list. -/
def Obligations.ValidationChecksInOrder : Prop :=
  ∀ op : OpRecord,
    (∀ w, decode w = .illegal → validate w op = some .illegal) ∧
    (∀ w, decode w = .factor → validate w op = some .factor) ∧
    (∀ i, i = .conv15c ∨ i = .conv15n ∨ (∃ f : BitVec 9, f.toNat ≤ 256 ∧ i = .blend f) →
      validate (encode i) op =
        if op.src0.toNat % 2 ≠ 0 ∨ op.dst0.toNat % 2 ≠ 0 then some .align
        else if 2 ^ 32 < op.src0.toNat + 2 * op.count.toNat ∨ 2 ^ 32 < op.dst0.toNat + 2 * op.count.toNat then
          some .range
        else if op.count ≠ 0 ∧ op.src0.toNat < op.dst0.toNat + 2 * op.count.toNat ∧
            op.dst0.toNat < op.src0.toNat + 2 * op.count.toNat ∧ op.src0 ≠ op.dst0 then some .overlap
        else none) ∧
    (validate (encode .conv32) op =
        if op.src0.toNat % 4 ≠ 0 ∨ op.dst0.toNat % 2 ≠ 0 then some .align
        else if 2 ^ 32 < op.src0.toNat + 4 * op.count.toNat ∨ 2 ^ 32 < op.dst0.toNat + 2 * op.count.toNat then
          some .range
        else if op.count ≠ 0 ∧ op.src0.toNat < op.dst0.toNat + 2 * op.count.toNat ∧
            op.dst0.toNat < op.src0.toNat + 4 * op.count.toNat ∧ op.src0 ≠ op.dst0 then some .overlap
        else none) ∧
    (validate (encode .mac) op =
        if op.src0.toNat % 2 ≠ 0 ∨ op.src1.toNat % 2 ≠ 0 ∨ op.dst0.toNat % 4 ≠ 0 ∨ op.dst1.toNat % 4 ≠ 0 then
          some .align
        else if 2 ^ 32 < op.src0.toNat + 4 * op.count.toNat ∨ 2 ^ 32 < op.src1.toNat + 2 * op.count.toNat ∨
            2 ^ 32 < op.dst0.toNat + 16 ∨ 2 ^ 32 < op.dst1.toNat + 16 then some .range
        else if (op.dst0.toNat < op.dst1.toNat + 16 ∧ op.dst1.toNat < op.dst0.toNat + 16) ∨
            (op.count ≠ 0 ∧ ∃ d ∈ [op.dst0.toNat, op.dst1.toNat],
              ((d < op.src0.toNat + 4 * op.count.toNat ∧ op.src0.toNat < d + 16) ∨
                (d < op.src1.toNat + 2 * op.count.toNat ∧ op.src1.toNat < d + 16))) then some .overlap
        else none) ∧
    (validate (encode .copy) op =
        if 2 ^ 32 < op.src0.toNat + op.count.toNat ∨ 2 ^ 32 < op.dst0.toNat + op.count.toNat then some .range
        else if op.count ≠ 0 ∧ op.src0.toNat < op.dst0.toNat + op.count.toNat ∧
            op.dst0.toNat < op.src0.toNat + op.count.toNat ∧ op.src0 ≠ op.dst0 then some .overlap
        else none)

/-- 40_command_model.md R110 and R113 for the meaning of each command while the engine is IDLE: it starts, ends
with the validation error, or is refused by 70_reset_and_hazards.md R268; a BLEND with an illegal factor ends in
FACTOR (30_encoding.md R92). Its snapshot is data memory, but for bytes it reads whose last host store is not visible
to the block, which are the model's free values (20_memory.md R69, log entries 5 and 8). That the validation error comes
before the refusal is the model's deduction (log entry 10, DEDUCED). -/
def Obligations.IdleCommandStartsOrEndsInError : Prop :=
  (∀ (f : BitVec 9) (s : State), 256 < f.toNat → s.eng = .idle → s.status.busy = false →
    exec (.blend f) s = .next { s with
      cmd := 0x00000004 ||| (f.setWidth 32 <<< 8), status := { s.status with done := true, err := true, errcode := 2 } }) ∧
  ∀ (i : Instr) (s : State), i.wellFormed = true → s.eng = .idle → s.status.busy = false →
    (∀ e, validateOperands i (latch (encode i) s) = some e →
      exec i s = .next { s with
        cmd := encode i, status := { s.status with done := true, err := true, errcode := e.code } }) ∧
    (validateOperands i (latch (encode i) s) = none →
      (∀ r, operandRefusal s.platform (operandRanges i (latch (encode i) s)) = some r → exec i s = .refused r) ∧
      (operandRefusal s.platform (operandRanges i (latch (encode i) s)) = none →
        ∃ m0, exec i s = .next { s with
            cmd := encode i
            status := { s.status with busy := true, done := false, err := false, errcode := 0 }
            eng := .busy { op := latch (encode i) s, m0 := m0, raced := false }
            draws := s.draws + 1 } ∧
          (∀ a, a ∉ s.unpublished ∨ s.count = 0 ∨
              (∀ r ∈ readRanges i (latch (encode i) s), ¬(r.base ≤ a ∧ a < r.base + r.len)) →
            Memory.read m0 a = Memory.read s.mem a) ∧
          (∀ a ∈ s.unpublished, s.count ≠ 0 →
            (∃ r ∈ readRanges i (latch (encode i) s), r.base ≤ a ∧ a < r.base + r.len) →
            Memory.read m0 a = Config.freeByte s.draws a)))

/-- 20_memory.md R69: the host's barrier or cache maintenance. It empties the model's list of stores that are not yet
visible and changes nothing else (log entry 8), and the snapshot of a command accepted next is data memory.
The critical section is log entry 12's. -/
def Obligations.PublishMakesEveryStoreVisible : Prop :=
  ∀ (s : State) (core : Nat) (rest : List Move), s.pending = .host core .publish :: rest →
    step s = .next { s with pending := rest, unpublished := [] } ∧
    ∀ (w : Word) (rest' : List Move), rest = .host core (.regWrite 0x00 .word w) :: rest' → s.mayProgram core →
      s.status.busy = false → s.eng = .idle → validate w (latch w s) = none →
      operandRefusal s.platform (latch w s).ranges = none →
      Sys2Proof.core.run 2 s = .next { s with
        pending := rest', unpublished := [], owner := s.claimed core true, cmd := w
        status := { s.status with busy := true, done := false, err := false, errcode := 0 }
        eng := .busy { op := latch w s, m0 := s.mem, raced := false }, draws := s.draws + 1 }

/-- 70_reset_and_hazards.md R268, 20_memory.md R66 and 60_exceptions.md R236: exactly which ranges the model
accepts (log entry 10). That missing memory is accepted wherever bus errors can be reported is log entry 9's. -/
def Obligations.OnlyOwnedOrdinaryMemoryIsAccepted : Prop :=
  ∀ (p : Platform) (rs : List Range),
    operandRefusal p rs = none ↔
      ∀ r ∈ rs,
        (r.len = 0 ∨ r.base + r.len ≤ p.regBase.toNat ∨ p.regBase.toNat + 256 ≤ r.base) ∧
        ∀ a, r.base ≤ a → a < r.base + r.len →
          Platform.kindAt p a = some .ordinary ∨ (Platform.kindAt p a = none ∧ p.hasBusError = true)

/-! ## The six commands while BUSY -/

/-- 41_color_convert.md R142: CONV15C, undisturbed, source and output byte by byte (20_memory.md R61). -/
def Obligations.Conv15cConvertsEveryPixel : Prop :=
  ∀ (s : State) (run : Run), s.eng = .busy run → Undisturbed .conv15c run s →
    ∃ m, exec .conv15c s = .next { s with
        mem := m, status := { s.status with busy := false, done := true }, eng := .idle, unread := run :: s.unread } ∧
      (∀ i, i < run.op.count.toNat →
        let p := (Memory.read run.m0 (run.op.src0.toNat + 2 * i)).toNat +
          256 * (Memory.read run.m0 (run.op.src0.toNat + 2 * i + 1)).toNat
        let R := p % 32
        let G := p / 32 % 32
        let B := p / 1024 % 32
        (Memory.read m (run.op.dst0.toNat + 2 * i)).toNat + 256 * (Memory.read m (run.op.dst0.toNat + 2 * i + 1)).toNat =
          min ((R * 13 + G * 2 + B) / 16) 31 * 2048 + min ((G * 3 + B) / 4) 63 * 32 +
            min ((R * 3 + G * 2 + B * 11) / 16) 31) ∧
      (∀ a, ¬(run.op.dst0.toNat ≤ a ∧ a < run.op.dst0.toNat + 2 * run.op.count.toNat) →
        Memory.read m a = Memory.read s.mem a)

/-- 41_color_convert.md R144: CONV15N, undisturbed, source and output byte by byte (20_memory.md R61). -/
def Obligations.Conv15nConvertsEveryPixel : Prop :=
  ∀ (s : State) (run : Run), s.eng = .busy run → Undisturbed .conv15n run s →
    ∃ m, exec .conv15n s = .next { s with
        mem := m, status := { s.status with busy := false, done := true }, eng := .idle, unread := run :: s.unread } ∧
      (∀ i, i < run.op.count.toNat →
        let p := (Memory.read run.m0 (run.op.src0.toNat + 2 * i)).toNat +
          256 * (Memory.read run.m0 (run.op.src0.toNat + 2 * i + 1)).toNat
        (Memory.read m (run.op.dst0.toNat + 2 * i)).toNat + 256 * (Memory.read m (run.op.dst0.toNat + 2 * i + 1)).toNat =
          p % 32 * 2048 + p / 32 % 32 * 64 + p / 1024 % 32) ∧
      (∀ a, ¬(run.op.dst0.toNat ≤ a ∧ a < run.op.dst0.toNat + 2 * run.op.count.toNat) →
        Memory.read m a = Memory.read s.mem a)

/-- 41_color_convert.md R147: CONV32, undisturbed, in the equivalent form of masks and shifts, source and output byte
by byte (20_memory.md R61). -/
def Obligations.Conv32ConvertsEveryPixel : Prop :=
  ∀ (s : State) (run : Run), s.eng = .busy run → Undisturbed .conv32 run s →
    ∃ m, exec .conv32 s = .next { s with
        mem := m, status := { s.status with busy := false, done := true }, eng := .idle, unread := run :: s.unread } ∧
      (∀ i, i < run.op.count.toNat →
        let byte := fun j => (Memory.read run.m0 (run.op.src0.toNat + 4 * i + j)).toNat
        let w := byte 0 + 2 ^ 8 * byte 1 + 2 ^ 16 * byte 2 + 2 ^ 24 * byte 3
        (Memory.read m (run.op.dst0.toNat + 2 * i)).toNat + 256 * (Memory.read m (run.op.dst0.toNat + 2 * i + 1)).toNat =
          ((w >>> 8) &&& 0xF800) ||| ((w >>> 5) &&& 0x07E0) ||| ((w >>> 3) &&& 0x001F)) ∧
      (∀ a, ¬(run.op.dst0.toNat ≤ a ∧ a < run.op.dst0.toNat + 2 * run.op.count.toNat) →
        Memory.read m a = Memory.read s.mem a)

/-- 42_frame_blend.md R171: BLEND with a legal factor, undisturbed, both frames and the output byte by byte
(20_memory.md R61). -/
def Obligations.BlendMixesEveryPixel : Prop :=
  ∀ (f : BitVec 9) (s : State) (run : Run), f.toNat ≤ 256 → s.eng = .busy run → Undisturbed (.blend f) run s →
    ∃ m, exec (.blend f) s = .next { s with
        mem := m, status := { s.status with busy := false, done := true }, eng := .idle, unread := run :: s.unread } ∧
      (∀ i, i < run.op.count.toNat →
        let c := (Memory.read run.m0 (run.op.src0.toNat + 2 * i)).toNat +
          256 * (Memory.read run.m0 (run.op.src0.toNat + 2 * i + 1)).toNat
        let d := (Memory.read run.m0 (run.op.dst0.toNat + 2 * i)).toNat +
          256 * (Memory.read run.m0 (run.op.dst0.toNat + 2 * i + 1)).toNat
        let mix := fun x y : Nat => (x * f.toNat + y * (256 - f.toNat)) / 256
        (Memory.read m (run.op.dst0.toNat + 2 * i)).toNat + 256 * (Memory.read m (run.op.dst0.toNat + 2 * i + 1)).toNat =
          mix (c / 2048) (d / 2048) * 2048 + mix (c / 32 % 64) (d / 32 % 64) * 32 + mix (c % 32) (d % 32)) ∧
      (∀ a, ¬(run.op.dst0.toNat ≤ a ∧ a < run.op.dst0.toNat + 2 * run.op.count.toNat) →
        Memory.read m a = Memory.read s.mem a)

/-- 43_audio_mac.md R191 and R193: MAC on validated operands, undisturbed, in closed form, samples,
kernel and lanes byte by byte (20_memory.md R61, signed by `Int.bmod`); OVF is or'ed with
whether some exact running sum leaves the s32 range. -/
def Obligations.MacAccumulatesBothChannels : Prop :=
  ∀ (s : State) (run : Run), s.eng = .busy run → Undisturbed .mac run s → validateOperands .mac run.op = none →
    let byte := fun (m : Memory) (a : Nat) => ((Memory.read m a).toNat : Int)
    let s16 := fun a : Nat => Int.bmod (byte run.m0 a + 2 ^ 8 * byte run.m0 (a + 1)) (2 ^ 16)
    let u32 := fun (m : Memory) (a : Nat) =>
      byte m a + 2 ^ 8 * byte m (a + 1) + 2 ^ 16 * byte m (a + 2) + 2 ^ 24 * byte m (a + 3)
    let k := fun i => s16 (run.op.src1.toNat + 2 * i)
    let sl := fun i => s16 (run.op.src0.toNat + 4 * i)
    let sr := fun i => s16 (run.op.src0.toNat + 4 * i + 2)
    let sumL := fun n => Int.bmod (u32 run.m0 run.op.dst0.toNat) (2 ^ 32) + ((List.range n).map (fun i => sl i * k i)).sum
    let sumR := fun n => Int.bmod (u32 run.m0 run.op.dst1.toNat) (2 ^ 32) + ((List.range n).map (fun i => sr i * k i)).sum
    ∃ m b, exec .mac s = .next { s with
        mem := m, status := { s.status with busy := false, done := true, ovf := s.status.ovf || b }
        eng := .idle, unread := run :: s.unread } ∧
      (b = true ↔ ∃ j, j < run.op.count.toNat ∧
        (sumL (j + 1) < -2 ^ 31 ∨ 2 ^ 31 ≤ sumL (j + 1) ∨ sumR (j + 1) < -2 ^ 31 ∨ 2 ^ 31 ≤ sumR (j + 1))) ∧
      (run.op.count = 0 → m = s.mem) ∧
      (run.op.count ≠ 0 →
        u32 m run.op.dst0.toNat = sumL run.op.count.toNat % 2 ^ 32 ∧
        u32 m run.op.dst1.toNat = sumR run.op.count.toNat % 2 ^ 32) ∧
      (∀ a, ¬(run.op.dst0.toNat ≤ a ∧ a < run.op.dst0.toNat + 4) →
        ¬(run.op.dst1.toNat ≤ a ∧ a < run.op.dst1.toNat + 4) → Memory.read m a = Memory.read s.mem a)

/-- 44_bulk_copy.md R210: COPY, undisturbed. -/
def Obligations.CopyMovesEveryByte : Prop :=
  ∀ (s : State) (run : Run), s.eng = .busy run → Undisturbed .copy run s →
    ∃ m, exec .copy s = .next { s with
        mem := m, status := { s.status with busy := false, done := true }, eng := .idle, unread := run :: s.unread } ∧
      (∀ j, j < run.op.count.toNat →
        Memory.read m (run.op.dst0.toNat + j) = Memory.read run.m0 (run.op.src0.toNat + j)) ∧
      (∀ a, ¬(run.op.dst0.toNat ≤ a ∧ a < run.op.dst0.toNat + run.op.count.toNat) →
        Memory.read m a = Memory.read s.mem a)

/-- 40_command_model.md R119: the frame of every command while BUSY, however it ends (completed, raced, bus
error), and the bytes its result depends on. -/
def Obligations.CommandsTouchOnlyTheirRanges : Prop :=
  (∀ (i : Instr) (s t : State) (run : Run), s.eng = .busy run → exec i s = .next t →
    (∀ a, (∀ r ∈ writeRanges i run.op, ¬(r.base ≤ a ∧ a < r.base + r.len)) →
      Memory.read t.mem a = Memory.read s.mem a) ∧
    t.cmd = s.cmd ∧ t.src0 = s.src0 ∧ t.src1 = s.src1 ∧ t.dst0 = s.dst0 ∧ t.dst1 = s.dst1 ∧ t.count = s.count ∧
    t.status.werr = s.status.werr ∧ t.platform = s.platform ∧ t.rdata = s.rdata ∧ t.ldata = s.ldata ∧
    t.owner = s.owner ∧ t.unpublished = s.unpublished ∧ t.pending = s.pending) ∧
  (∀ (i : Instr) (op : OpRecord) (m m' : Memory),
    (∀ r ∈ readRanges i op, ∀ a, r.base ≤ a → a < r.base + r.len → Memory.read m a = Memory.read m' a) →
    effectOf i op m = effectOf i op m') ∧
  (∀ (i : Instr) (op : OpRecord), rangeD i op ∈ readRanges i op → i ≠ .mac → rangeS i op ≠ rangeD i op →
    ∃ f, i = .blend f)

/-- 40_command_model.md R120 and 43_audio_mac.md R195: COUNT = 0: the checks, the acceptance (it reads nothing, so its
snapshot is data memory even where host stores are not visible to the block, 20_memory.md R69), and the completion. -/
def Obligations.ZeroCountCompletesWithoutAccess : Prop :=
  (∀ (i : Instr) (op : OpRecord), i ≠ .mac → op.count = 0 →
    validateOperands i op = if alignedOk i op = true then none else some .align) ∧
  (∀ op : OpRecord, op.count = 0 →
    validateOperands .mac op =
      if op.src0.toNat % 2 ≠ 0 ∨ op.src1.toNat % 2 ≠ 0 ∨ op.dst0.toNat % 4 ≠ 0 ∨ op.dst1.toNat % 4 ≠ 0 then some .align
      else if 2 ^ 32 < op.dst0.toNat + 16 ∨ 2 ^ 32 < op.dst1.toNat + 16 then some .range
      else if op.dst0.toNat < op.dst1.toNat + 16 ∧ op.dst1.toNat < op.dst0.toNat + 16 then some .overlap
      else none) ∧
  (∀ (i : Instr) (s : State) (run : Run), s.eng = .busy run → run.raced = false → run.op.count = 0 →
    exec i s = .next { s with
      status := { s.status with busy := false, done := true }, eng := .idle, unread := run :: s.unread }) ∧
  (∀ (i : Instr) (s : State), i.wellFormed = true → s.eng = .idle → s.status.busy = false → s.count = 0 →
    validateOperands i (latch (encode i) s) = none →
    operandRefusal s.platform (operandRanges i (latch (encode i) s)) = none →
    exec i s = .next { s with
      cmd := encode i, status := { s.status with busy := true, done := false, err := false, errcode := 0 }
      eng := .busy { op := latch (encode i) s, m0 := s.mem, raced := false }, draws := s.draws + 1 })

/-! ## The arithmetic of the pixels -/

/-- 41_color_convert.md R143: the range properties of CONV15C on every 15-bit input. -/
def Obligations.Conv15cClampsNeverBind : Prop :=
  (∀ p : Half,
    (red15 p * 13 + green15 p * 2 + blue15 p) >>> 4 ≤ 31 ∧ (green15 p * 3 + blue15 p) >>> 2 ≤ 31 ∧
    (red15 p * 3 + green15 p * 2 + blue15 p * 11) >>> 4 ≤ 31 ∧
    red15 p * 13 + green15 p * 2 + blue15 p ≤ 496 ∧ green15 p * 3 + blue15 p ≤ 124 ∧
    red15 p * 3 + green15 p * 2 + blue15 p * 11 ≤ 496 ∧
    conv15cPixel p = pack565 ((red15 p * 13 + green15 p * 2 + blue15 p) >>> 4) ((green15 p * 3 + blue15 p) >>> 2)
      ((red15 p * 3 + green15 p * 2 + blue15 p * 11) >>> 4) ∧
    (conv15cPixel p).getLsbD 10 = false ∧ (conv15cPixel p).toNat ≤ 0xFBFF ∧
    (red15 p = green15 p → green15 p = blue15 p → conv15cPixel p = pack565 (red15 p) (red15 p) (red15 p))) ∧
  (red15 0x7FFF * 13 + green15 0x7FFF * 2 + blue15 0x7FFF = 496 ∧ green15 0x7FFF * 3 + blue15 0x7FFF = 124 ∧
    red15 0x7FFF * 3 + green15 0x7FFF * 2 + blue15 0x7FFF * 11 = 496 ∧ conv15cPixel 0x7FFF = 0xFBFF)

/-- 41_color_convert.md R145: the channels of every CONV15N output. -/
def Obligations.Conv15nKeepsChannelsAndClearsBit5 : Prop :=
  ∀ p : Half,
    (conv15nPixel p).getLsbD 5 = false ∧ (conv15nPixel p).extractLsb' 11 5 = p.extractLsb' 0 5 ∧
    (conv15nPixel p).extractLsb' 0 5 = p.extractLsb' 10 5 ∧ (conv15nPixel p).extractLsb' 6 5 = p.extractLsb' 5 5

/-- 41_color_convert.md R149: truncation without overflow, and every 565 value is reached. -/
def Obligations.Conv32TruncatesEveryChannel : Prop :=
  (∀ w : Word,
    red32 w >>> 3 ≤ 31 ∧ green32 w >>> 2 ≤ 63 ∧ blue32 w >>> 3 ≤ 31 ∧
    (conv32Pixel w).extractLsb' 11 5 = w.extractLsb' 19 5 ∧ (conv32Pixel w).extractLsb' 5 6 = w.extractLsb' 10 6 ∧
    (conv32Pixel w).extractLsb' 0 5 = w.extractLsb' 3 5) ∧
  (∀ q : Half, ∃ w : Word, conv32Pixel w = q) ∧
  conv32Pixel 0x00FFFFFF = 0xFFFF ∧ conv32Pixel 0x00080408 = 0x0821 ∧ conv32Pixel 0x00070307 = 0x0000

/-- 41_color_convert.md R140, R146 and R148: bits no rule reads, and the two scales of green. -/
def Obligations.UnusedBitsAndGreenScales : Prop :=
  (∀ p : Half, conv15cPixel (p ^^^ 0x8000) = conv15cPixel p ∧ conv15nPixel (p ^^^ 0x8000) = conv15nPixel p) ∧
  (∀ w v : Word, w.extractLsb' 0 24 = v.extractLsb' 0 24 → conv32Pixel w = conv32Pixel v) ∧
  (∀ p : Half, red15 p = green15 p → green15 p = blue15 p →
    ((conv15nPixel p).extractLsb' 5 6).toNat = 2 * green15 p ∧ ((conv15cPixel p).extractLsb' 5 6).toNat = green15 p)

/-- 42_frame_blend.md R172: factors 256 and 0 are exact, for every pair of pixels and for the whole command. -/
def Obligations.BlendIdentitiesAreExact : Prop :=
  (∀ s d : Half, blendPixel 256 s d = s ∧ blendPixel 0 s d = d) ∧
  (∀ (s : State) (run : Run), s.eng = .busy run → Undisturbed (.blend 256) run s →
    ∃ t, exec (.blend 256) s = .next t ∧ ∀ k, k < run.op.count.toNat →
      elem16 t.mem run.op.dst0.toNat k = elem16 run.m0 run.op.src0.toNat k) ∧
  (∀ (s : State) (run : Run), s.eng = .busy run → Undisturbed (.blend 0) run s →
    ∃ t, exec (.blend 0) s = .next t ∧ ∀ k, k < run.op.count.toNat →
      elem16 t.mem run.op.dst0.toNat k = elem16 run.m0 run.op.dst0.toNat k)

/-- 42_frame_blend.md R173: every channel stays between its inputs, the rule is symmetric, and the three
truncation cases. -/
def Obligations.BlendStaysBetweenItsInputs : Prop :=
  (∀ (f cs cd : Nat), f ≤ 256 → min cs cd ≤ blendChannel f cs cd ∧ blendChannel f cs cd ≤ max cs cd) ∧
  (∀ (f : Nat) (s d : Half), f ≤ 256 →
    red565 (blendPixel f s d) = blendChannel f (red565 s) (red565 d) ∧
    green565 (blendPixel f s d) = blendChannel f (green565 s) (green565 d) ∧
    blue565 (blendPixel f s d) = blendChannel f (blue565 s) (blue565 d) ∧
    green565 s * f + green565 d * (256 - f) ≤ 16128 ∧ blendPixel f s d = blendPixel (256 - f) d s) ∧
  blendPixel 1 0xFFFF 0x0000 = 0x0000 ∧ blendPixel 255 0xFFFF 0x0000 = 0xF7DE ∧ blendPixel 128 0x0000 0x0842 = 0x0021

/-! ## MAC and COPY -/

/-- 43_audio_mac.md R193: OVF is the overflow of the exact running sums in the reference order; the lanes do not
depend on the order of the taps; the example of the rule. -/
def Obligations.MacOverflowIsThatOfTheExactSums : Prop :=
  (∀ (a : MacSums) (taps : List MacTap),
    -2 ^ 31 ≤ a.left → a.left < 2 ^ 31 → -2 ^ 31 ≤ a.right → a.right < 2 ^ 31 →
    let sumL := fun j => a.left + ((taps.take j).map (fun t => t.sl * t.k)).sum
    let sumR := fun j => a.right + ((taps.take j).map (fun t => t.sr * t.k)).sum
    (taps.foldl macStep a).left = wrapS32 (sumL taps.length) ∧
    (taps.foldl macStep a).right = wrapS32 (sumR taps.length) ∧
    ((taps.foldl macStep a).ovf = true ↔ a.ovf = true ∨ ∃ j, j ≤ taps.length ∧
      (sumL j < -2 ^ 31 ∨ 2 ^ 31 ≤ sumL j ∨ sumR j < -2 ^ 31 ∨ 2 ^ 31 ≤ sumR j))) ∧
  (∀ (a : MacSums) (taps taps' : List MacTap),
    -2 ^ 31 ≤ a.left → a.left < 2 ^ 31 → -2 ^ 31 ≤ a.right → a.right < 2 ^ 31 → taps.Perm taps' →
    (taps.foldl macStep a).left = (taps'.foldl macStep a).left ∧
    (taps.foldl macStep a).right = (taps'.foldl macStep a).right) ∧
  [MacTap.mk (-32768) (-32768) (-32768), MacTap.mk (-32768) (-32768) (-32768)].foldl macStep (MacSums.mk 0 0 false) =
    MacSums.mk (-2 ^ 31) (-2 ^ 31) true

/-- 43_audio_mac.md R194: one MAC over N taps, or two MACs over its first `j` and its remaining taps. -/
def Obligations.SplitMacGivesTheSameSums : Prop :=
  ∀ (op : OpRecord) (m : Memory) (j : Nat), validateOperands .mac op = none → j ≤ op.count.toNat →
    let op1 := { op with count := BitVec.ofNat 32 j }
    let op2 :=
      { op with
        src0 := op.src0 + BitVec.ofNat 32 (4 * j), src1 := op.src1 + BitVec.ofNat 32 (2 * j)
        count := op.count - BitVec.ofNat 32 j }
    let m1 := Memory.writeAll m (macEffect op1 m).writes
    let m2 := Memory.writeAll m1 (macEffect op2 m1).writes
    let mAll := Memory.writeAll m (macEffect op m).writes
    Memory.read32 m2 op.dst0.toNat = Memory.read32 mAll op.dst0.toNat ∧
    Memory.read32 m2 op.dst1.toNat = Memory.read32 mAll op.dst1.toNat ∧
    ((macEffect op1 m).ovf = false → (macEffect op m).ovf = (macEffect op2 m1).ovf)

/-- 43_audio_mac.md R192: lanes 1 to 3 do not affect any result and are left as they were. -/
def Obligations.MacIgnoresLanesOneToThree : Prop :=
  ∀ (s s' : State) (run run' : Run), s.eng = .busy run → s'.eng = .busy run' →
    Undisturbed .mac run s → Undisturbed .mac run' s' → run'.op = run.op → s'.status = s.status →
    validateOperands .mac run.op = none →
    (∀ a, ¬(run.op.dst0.toNat + 4 ≤ a ∧ a < run.op.dst0.toNat + 16) →
      ¬(run.op.dst1.toNat + 4 ≤ a ∧ a < run.op.dst1.toNat + 16) →
      Memory.read run.m0 a = Memory.read run'.m0 a ∧ Memory.read s.mem a = Memory.read s'.mem a) →
    ∃ t t', exec .mac s = .next t ∧ exec .mac s' = .next t' ∧ t.status = t'.status ∧
      Memory.read32 t.mem run.op.dst0.toNat = Memory.read32 t'.mem run.op.dst0.toNat ∧
      Memory.read32 t.mem run.op.dst1.toNat = Memory.read32 t'.mem run.op.dst1.toNat ∧
      (∀ a, (run.op.dst0.toNat + 4 ≤ a ∧ a < run.op.dst0.toNat + 16) ∨
          (run.op.dst1.toNat + 4 ≤ a ∧ a < run.op.dst1.toNat + 16) →
        Memory.read t.mem a = Memory.read s.mem a ∧ Memory.read t'.mem a = Memory.read s'.mem a)

/-- 44_bulk_copy.md R213 and 42_frame_blend.md R174: with the destination at the source, COPY and BLEND pass the
overlap check and leave the range as it was in `M0`; another intersection of BLEND's ranges is OVERLAP. -/
def Obligations.InPlaceCopyAndBlendChangeNothing : Prop :=
  (∀ i, i = .copy ∨ (∃ f : BitVec 9, f.toNat ≤ 256 ∧ i = .blend f) →
    (∀ op : OpRecord, op.src0 = op.dst0 → overlapOk i op = true) ∧
    ∀ (s : State) (run : Run), s.eng = .busy run → Undisturbed i run s → run.op.src0 = run.op.dst0 →
      ∃ t, exec i s = .next t ∧
        ∀ a, (rangeD i run.op).base ≤ a → a < (rangeD i run.op).base + (rangeD i run.op).len →
          Memory.read t.mem a = Memory.read run.m0 a) ∧
  (∀ (f : BitVec 9) (op : OpRecord), f.toNat ≤ 256 → alignedOk (.blend f) op = true → rangesOk (.blend f) op = true →
    (rangeS (.blend f) op).intersects (rangeD (.blend f) op) = true → op.src0 ≠ op.dst0 →
    validate (encode (.blend f)) op = some .overlap)

/-- 00_scope.md R14, 40_command_model.md R122 and 44_bulk_copy.md R211: the batch and tail datapaths leave the
same memory as the element rules, and the same MAC sums and overflow. -/
def Obligations.BatchAndTailDatapathsAgree : Prop :=
  (∀ (i : Instr) (op : OpRecord) (m0 m : Memory), i ≠ .mac → Memory.Wf m →
    Memory.writeAll m (batchedWrites i op m0) = Memory.writeAll m (effectOf i op m0).writes) ∧
  (∀ (op : OpRecord) (m0 : Memory), batchedSums op m0 = macSums op m0)

/-- 40_command_model.md R123: the final memory of a command is a function of `op` and `M0`. -/
def Obligations.ResultDependsOnlyOnOpAndSnapshot : Prop :=
  ∀ (i : Instr) (s s' : State) (run : Run), s.eng = .busy run → s'.eng = .busy run →
    s.platform = s'.platform → s.mem = run.m0 → s'.mem = run.m0 → Undisturbed i run s →
    ∃ t t', exec i s = .next t ∧ exec i s' = .next t' ∧ t.mem = t'.mem ∧
      t.mem = Memory.writeAll run.m0 (effectOf i run.op run.m0).writes ∧
      (s.status = s'.status → t.status = t'.status) ∧
      ({ s.status with ovf := false } = { s'.status with ovf := false } →
        { t.status with ovf := false } = { t'.status with ovf := false }) ∧
      (s.status.ovf = true → t.status.ovf = true)

/-! ## Errors, reset, races -/

/-- 60_exceptions.md R236: a bus error during execution, where the platform can report one and where not; a
command with COUNT = 0 makes no access that could be answered so (40_command_model.md R120). The
value of a byte that becomes unspecified is the model's free value (log entry 5). -/
def Obligations.BusErrorEndsTheCommand : Prop :=
  (∀ (s : State) (run : Run) (i : Instr) (rest : List Move),
    s.pending = .engine .error :: rest → s.eng = .busy run → run.op.instr? = some i →
    (s.platform.hasBusError = true → run.op.count ≠ 0 →
      ∃ m, step s = .next { s with
          pending := rest, mem := m, eng := .idle, unread := run :: s.unread, draws := s.draws + 1
          status := { s.status with busy := false, done := true, err := true, errcode := 6 } } ∧
        (∀ a, (∀ r ∈ writeRanges i run.op, ¬(r.base ≤ a ∧ a < r.base + r.len)) →
          Memory.read m a = Memory.read s.mem a) ∧
        (∀ r ∈ writeRanges i run.op, ∀ a, r.base ≤ a → a < r.base + r.len →
          Memory.read m a = Config.freeByte s.draws a)) ∧
    (s.platform.hasBusError = false ∨ run.op.count = 0 → step s = step { s with pending := .engine .ok :: rest })) ∧
  (∀ (p : Platform) (rs : List Range), p.hasBusError = false → operandRefusal p rs = none →
    ∀ r ∈ rs, ∀ a, r.base ≤ a → a < r.base + r.len → Platform.kindAt p a ≠ none)

/-- The model's own deduction (log entry 9, DEDUCED): on a platform with bus errors an access to memory that does not
exist is always answered with an error. What such an answer then does is 60_exceptions.md R233 and R236. The open
bytes are free values (log entry 5). -/
def Obligations.MissingMemoryEndsTheCommandWithBus : Prop :=
  ∀ (i : Instr) (s : State) (run : Run), s.eng = .busy run → s.platform.hasBusError = true → run.op.count ≠ 0 →
    (∃ r ∈ readRanges i run.op ++ writeRanges i run.op, ∃ a, r.base ≤ a ∧ a < r.base + r.len ∧
      Platform.kindAt s.platform a = none) →
    ∃ m, exec i s = .next { s with
        mem := m, eng := .idle, unread := run :: s.unread, draws := s.draws + 1
        status := { s.status with busy := false, done := true, err := true, errcode := 6 } } ∧
      (∀ r ∈ writeRanges i run.op, ∀ a, r.base ≤ a → a < r.base + r.len →
        Memory.read m a = Config.freeByte s.draws a) ∧
      (∀ a, (∀ r ∈ writeRanges i run.op, ¬(r.base ≤ a ∧ a < r.base + r.len)) →
        Memory.read m a = Memory.read s.mem a)

/-- 70_reset_and_hazards.md R260 and R261: the reset input. The open bytes are free values (log entries 5, 11). -/
def Obligations.ResetInputClearsEveryRegister : Prop :=
  ∀ (s : State) (rest : List Move), s.pending = .reset :: rest →
    ∃ t, step s = .next t ∧
      t.cmd = 0 ∧ t.status.toWord = 0 ∧ t.src0 = 0 ∧ t.src1 = 0 ∧ t.dst0 = 0 ∧ t.dst1 = 0 ∧ t.count = 0 ∧
      t.eng = .idle ∧ t.pending = rest ∧ t.platform = s.platform ∧
      (s.eng = .idle → t.mem = s.mem) ∧
      ∀ run, s.eng = .busy run →
        (∀ a, (∀ r ∈ run.op.writes, ¬(r.base ≤ a ∧ a < r.base + r.len)) →
          Memory.read t.mem a = Memory.read s.mem a) ∧
        (∀ r ∈ run.op.writes, ∀ a, r.base ≤ a → a < r.base + r.len →
          Memory.read t.mem a = Config.freeByte s.draws a)

/-- 10_state.md R50: the block after reset. -/
def Obligations.ResetStateIsAllZero : Prop :=
  State.reset.cmd = 0 ∧ State.reset.status.toWord = 0 ∧ State.reset.src0 = 0 ∧ State.reset.src1 = 0 ∧
  State.reset.dst0 = 0 ∧ State.reset.dst1 = 0 ∧ State.reset.count = 0 ∧ State.reset.eng = .idle

/-- 20_memory.md R61, R68 and R69, 30_encoding.md R97, 70_reset_and_hazards.md R266: a host store puts the low bytes
of its value in memory, lowest address first, and touches nothing else but this: it marks a running command one of
whose ranges it meets, and makes the destination of an ended command whose end is unread, one of whose ranges it
meets, any value. Every destination byte of a marked command ends as any value; OVF stays as it was but after
a MAC with taps (10_state.md R38, 43_audio_mac.md R195). The mark and the free values are the
model's (log entries 5 and 6), and so is the record of the addresses whose last store is not visible to the block (log
entry 8, DESIGN CHOICE). That a host may store at any alignment is the model's choice (log entry 13, DESIGN CHOICE). -/
def Obligations.HostWriteIntoRunningRangesFreesTheResult : Prop :=
  (∀ (s : State) (core : Nat) (addr : Word) (size : Size) (v : Word) (visible : Bool) (rest : List Move),
    s.pending = .host core (.store addr size v visible) :: rest →
    addr.toNat + size.bytes ≤ 2 ^ 32 → (Platform.window s.platform).holds addr.toNat = false →
    hostAccessRefusal s.platform ⟨addr.toNat, size.bytes⟩ = none →
    let met := fun run : Run =>
      ∃ r ∈ run.op.ranges, 0 < r.len ∧ r.base < addr.toNat + size.bytes ∧ addr.toNat < r.base + r.len
    let writes := fun (run : Run) (a : Nat) => ∃ r ∈ run.op.writes, r.base ≤ a ∧ a < r.base + r.len
    ∃ t, step s = .next t ∧
      t = { s with
        pending := rest, mem := t.mem, eng := t.eng, unpublished := t.unpublished, draws := t.draws } ∧
      (s.eng = .idle → t.eng = .idle) ∧
      (∀ run, s.eng = .busy run → ∃ run', t.eng = .busy run' ∧ run'.op = run.op ∧ run'.m0 = run.m0 ∧
        (run'.raced = true ↔ run.raced = true ∨ met run)) ∧
      (∀ a, a ∈ t.unpublished ↔
        if addr.toNat ≤ a ∧ a < addr.toNat + size.bytes then visible = false else a ∈ s.unpublished) ∧
      (∀ q ∈ s.unread, met q → ∀ a, writes q a → Memory.read t.mem a = Config.freeByte s.draws a) ∧
      (∀ a, (∀ q ∈ s.unread, met q → ¬writes q a) →
        Memory.read t.mem a =
          if addr.toNat ≤ a ∧ a < addr.toNat + size.bytes then v.extractLsb' (8 * (a - addr.toNat)) 8
          else Memory.read s.mem a)) ∧
  (∀ (i : Instr) (s : State) (run : Run), s.eng = .busy run → run.raced = true →
    accessFails s.platform (accessRanges i run.op) = false →
    ∃ t, exec i s = .next t ∧ t.status.busy = false ∧ t.status.done = true ∧ t.status.err = s.status.err ∧
      (s.status.ovf = true → t.status.ovf = true) ∧
      (i ≠ .mac ∨ run.op.count = 0 → t.status.ovf = s.status.ovf) ∧
      (∀ r ∈ writeRanges i run.op, ∀ a, r.base ≤ a → a < r.base + r.len →
        Memory.read t.mem a = Config.freeByte s.draws a) ∧
      (∀ a, (∀ r ∈ writeRanges i run.op, ¬(r.base ≤ a ∧ a < r.base + r.len)) →
        Memory.read t.mem a = Memory.read s.mem a))

/-- 20_memory.md R68: a host load of any size while a command runs. All bytes of one destination element (pixel, byte
or lane 0) are those of its `M0` value, or all are those of its final value; where the platform can report bus errors
the final value is itself any value (60_exceptions.md R236), but for a command with COUNT = 0, which makes no access
and leaves memory as it is (40_command_model.md R120, 43_audio_mac.md R195). Every other byte is memory's, which the command does
not write. Raced commands and unread ones that write the same bytes are excluded by premise (the next statement has
the unread ones, and the one after it the raced ones). The draw is the model's (log entries 5 and 7), and so are the
load at any alignment and the result register (log entry 13, DESIGN CHOICE). -/
def Obligations.HostReadOfRunningDestinationIsOldOrFinal : Prop :=
  ∀ (s : State) (core : Nat) (addr : Word) (size : Size) (rest : List Move) (run : Run) (i : Instr),
    Invariant s → s.pending = .host core (.load addr size) :: rest → s.eng = .busy run → run.op.instr? = some i →
    run.raced = false →
    addr.toNat + size.bytes ≤ 2 ^ 32 → (Platform.window s.platform).holds addr.toNat = false →
    hostAccessRefusal s.platform ⟨addr.toNat, size.bytes⟩ = none →
    (∀ q ∈ s.unread, ∀ r ∈ q.op.writes, ∀ j, j < size.bytes →
      ¬(r.base ≤ addr.toNat + j ∧ addr.toNat + j < r.base + r.len)) →
    ∃ t, step s = .next t ∧ t = { s with pending := rest, ldata := t.ldata, draws := t.draws } ∧
      t.ldata.toNat < 2 ^ (8 * size.bytes) ∧
      (∀ r ∈ writeRanges i run.op, ∀ k, destBytes i * (k + 1) ≤ r.len →
        let loads := fun value : Nat → Byte => ∀ j, j < size.bytes → r.base + destBytes i * k ≤ addr.toNat + j →
          addr.toNat + j < r.base + destBytes i * (k + 1) →
          t.ldata.extractLsb' (8 * j) 8 = value (addr.toNat + j)
        loads (Memory.read run.m0) ∨
        (s.platform.hasBusError = false ∧
          loads (Memory.read (Memory.writeAll s.mem (effectOf i run.op run.m0).writes))) ∨
        (run.op.count = 0 ∧ loads (Memory.read s.mem)) ∨
        (s.platform.hasBusError = true ∧ run.op.count ≠ 0 ∧ loads (Config.freeByte s.draws))) ∧
      (∀ j, j < size.bytes →
        (∀ r ∈ writeRanges i run.op, ¬(r.base ≤ addr.toNat + j ∧ addr.toNat + j < r.base + r.len)) →
        t.ldata.extractLsb' (8 * j) 8 = Memory.read s.mem (addr.toNat + j))

/-- 70_reset_and_hazards.md R266 with 20_memory.md R68: until a STATUS read shows their end, each byte that a host
load returns is the current value (memory's, or what the running command will leave) or the `M0` value of one of the
running and unread commands that write the byte. Raced commands are excluded by premise. That the race lasts until
the STATUS read is the model's deduction (log entry 7). On a platform with bus errors what a command with COUNT above 0
will leave is any value (60_exceptions.md R236, 40_command_model.md R120, a free value, log entry 5). The load at any
alignment and the result register are the model's choice (log entry 13, DESIGN CHOICE). -/
def Obligations.EarlyHostReadIsCurrentOrOlder : Prop :=
  ∀ (s : State) (core : Nat) (addr : Word) (size : Size) (rest : List Move),
    s.pending = .host core (.load addr size) :: rest →
    addr.toNat + size.bytes ≤ 2 ^ 32 → (Platform.window s.platform).holds addr.toNat = false →
    hostAccessRefusal s.platform ⟨addr.toNat, size.bytes⟩ = none →
    (∀ q ∈ s.unread, q.raced = false) →
    let older := fun (runs : List Run) (a : Nat) (b : Byte) =>
      ∃ q ∈ runs, (∃ r ∈ q.op.writes, r.base ≤ a ∧ a < r.base + r.len) ∧ b = Memory.read q.m0 a
    ∃ t, step s = .next t ∧ ∀ j, j < size.bytes →
      let a := addr.toNat + j
      let b := t.ldata.extractLsb' (8 * j) 8
      (s.eng = .idle → b = Memory.read s.mem a ∨ older s.unread a b) ∧
      (∀ run i, s.eng = .busy run → run.raced = false → run.op.instr? = some i →
        (s.platform.hasBusError = false ∧ b = Memory.read (Memory.writeAll s.mem (effectOf i run.op run.m0).writes) a) ∨
        (s.platform.hasBusError = true ∧
          b = if run.op.count ≠ 0 ∧ ∃ r ∈ writeRanges i run.op, r.base ≤ a ∧ a < r.base + r.len then Config.freeByte s.draws a
            else Memory.read s.mem a) ∨
        older (run :: s.unread) a b)

/-- 20_memory.md R68: a host load while a command runs one of whose ranges the host has written. Its results are
unspecified, so each loaded byte of its destination is any value, whichever commands are unread; every byte that no such
command writes is memory's. That the race frees what a load returns, and the free values, are the model's (log entries
5, 6 and 7), and so are the load at any alignment and the result register (log entry 13, DESIGN CHOICE). -/
def Obligations.HostReadOfRacedDestinationIsAnyValue : Prop :=
  ∀ (s : State) (core : Nat) (addr : Word) (size : Size) (rest : List Move) (run : Run) (i : Instr),
    s.pending = .host core (.load addr size) :: rest → s.eng = .busy run → run.op.instr? = some i →
    run.raced = true →
    addr.toNat + size.bytes ≤ 2 ^ 32 → (Platform.window s.platform).holds addr.toNat = false →
    hostAccessRefusal s.platform ⟨addr.toNat, size.bytes⟩ = none →
    ∃ t, step s = .next t ∧ t = { s with pending := rest, ldata := t.ldata, draws := t.draws } ∧
      ∀ j, j < size.bytes →
        ((∃ r ∈ writeRanges i run.op, r.base ≤ addr.toNat + j ∧ addr.toNat + j < r.base + r.len) →
          t.ldata.extractLsb' (8 * j) 8 = Config.freeByte s.draws (addr.toNat + j)) ∧
        ((∀ q ∈ run :: s.unread, ∀ r ∈ q.op.writes, ¬(r.base ≤ addr.toNat + j ∧ addr.toNat + j < r.base + r.len)) →
          t.ldata.extractLsb' (8 * j) 8 = Memory.read s.mem (addr.toNat + j))

/-- 20_memory.md R70, 60_exceptions.md R240, 70_reset_and_hazards.md R266: once a STATUS read has returned BUSY = 0,
every byte of a host load of any size is memory's, as the commands left it. The load at any alignment and the result
register are the model's choice (log entry 13, DESIGN CHOICE). -/
def Obligations.StatusReadMakesResultsVisible : Prop :=
  ∀ (s : State) (core : Nat) (addr : Word) (size : Size) (rest : List Move), Invariant s →
    s.pending = .host core (.regRead 0x04 .word) :: .host core (.load addr size) :: rest → s.status.busy = false →
    addr.toNat + size.bytes ≤ 2 ^ 32 → (Platform.window s.platform).holds addr.toNat = false →
    hostAccessRefusal s.platform ⟨addr.toNat, size.bytes⟩ = none →
    ∃ t, Sys2Proof.core.run 2 s = .next t ∧ t.rdata.getLsbD 0 = false ∧ t.mem = s.mem ∧
      t.ldata.toNat < 2 ^ (8 * size.bytes) ∧
      ∀ j, j < size.bytes → t.ldata.extractLsb' (8 * j) 8 = Memory.read s.mem (addr.toNat + j)

/-- 60_exceptions.md R244: a core that programs the block while another is inside its critical section is
refused. The critical section is the model's reading of that duty (log entry 12). -/
def Obligations.InterleavedProgrammingIsRefused : Prop :=
  ∀ (s : State) (core : Nat) (v : Word) (rest : List Move) (o : Session), s.owner = some o → o.core ≠ core →
    ∀ reg, reg ≠ .status → s.pending = .host core (.regWrite (regOffset reg) .word v) :: rest →
      step s = .refused .interleavedProgramming

/-- 60_exceptions.md R244: how long one core keeps the others out, over any step. A section begins with a write to CMD
or to an operand register and ends with a STATUS read of BUSY = 0 by the same core, once CMD was written after the last
operand write that took effect; so no core can start a command with operands that another has begun to write. The
record of the section is the model's reading of the duty (log entry 12), and that reset ends it is log entry 11's. -/
def Obligations.OwnerFollowsTheCriticalSection : Prop :=
  ∀ s t : State, step s = .next t →
    t.owner =
      match s.nextMove with
      | .reset => none
      | .host core op =>
        match (Move.host core op).registerWrite s.platform with
        | some (.status, _) => s.owner
        | some (.cmd, _) => some { core := core, started := true }
        | some _ =>
          some { core := core, started := s.status.busy && s.owner = some { core := core, started := true } }
        | none =>
          if (Move.host core op).statusRead s.platform = some core ∧ s.status.busy = false ∧
              s.owner = some { core := core, started := true } then none
          else s.owner
      | _ => s.owner

/-! ## The step, the invariant, the end of every command -/

/-- A step runs the decoded command: at the host's CMD write of a well-formed command's word, and at the engine's
move for the latched record. The step adds the removal of the move and the host's critical section. The third clause,
that with no move pending the step is the engine's, is the model's own schedule (log entry 3, DESIGN CHOICE, and log
entry 18, DEDUCED).
The critical section is log entry 12's. -/
def Obligations.StepRunsTheDecodedCommand : Prop :=
  (∀ (s : State) (core : Nat) (w : Word) (rest : List Move) (i : Instr),
    s.pending = .host core (.regWrite 0x00 .word w) :: rest → s.mayProgram core → s.status.busy = false →
    decode w = .command i → step s = exec i { s with pending := rest, owner := s.claimed core true }) ∧
  (∀ (s : State) (run : Run) (rest : List Move) (i : Instr),
    s.pending = .engine .ok :: rest → s.eng = .busy run →
    decode (0#15 ++ run.op.factor ++ 0#4 ++ run.op.op) = .command i → step s = exec i { s with pending := rest }) ∧
  (∀ (s : State) (run : Run) (i : Instr), s.pending = [] → s.eng = .busy run →
    decode (0#15 ++ run.op.factor ++ 0#4 ++ run.op.op) = .command i → step s = exec i s)

/-- The invariant (canonical memory, coherent STATUS, a validated command behind BUSY whose record equals the
registers) holds after reset. -/
def Obligations.ResetMeetsTheInvariant : Prop := Invariant State.reset

/-- Every step of every state keeps the invariant. -/
def Obligations.EveryStepKeepsTheInvariant : Prop := ∀ s t : State, Invariant s → step s = .next t → Invariant t

/-- 40_command_model.md R121: whatever moves are pending, once they are made and the engine has had its turn no
command is left running; and a running command with no other move pending ends in the next step. The schedule is the model's fairness (log entries 3 and 18). -/
def Obligations.EveryCommandEnds : Prop :=
  (∀ s t : State, Invariant s → Sys2Proof.core.run (s.pending.length + 1) s = .next t →
    t.eng = .idle ∧ t.status.busy = false) ∧
  (∀ (s : State) (run : Run), Invariant s → s.eng = .busy run → s.pending = [] →
    ∃ t, step s = .next t ∧ t.eng = .idle ∧ t.status.busy = false ∧ t.status.done = true)

/-- 30_encoding.md R98: the expansions of the six command mnemonics, run as host writes from an idle block, leave
the operands in the registers they name, the others as they were, and end in the acceptance of the command.
The critical section is log entry 12's. -/
def Obligations.PseudoInstructionsProgramTheirOperands : Prop :=
  (∀ (s : State) (core : Nat) (dst src n : Word) (lines : List AsmLine) (q : Pseudo) (i : Instr),
    ((q = .conv15c dst src n ∧ i = .conv15c) ∨ (q = .conv15n dst src n ∧ i = .conv15n) ∨
      (q = .conv32 dst src n ∧ i = .conv32) ∨ (q = .copy dst src n ∧ i = .copy) ∨
      (∃ f : Nat, f ≤ 256 ∧ q = .blend dst src n f ∧ i = .blend (BitVec.ofNat 9 f))) →
    expand q = some lines → s.pending = hostMoves core lines → s.status.busy = false → s.owner = none →
    Sys2Proof.core.run 4 s = exec i { s with
      src0 := src, dst0 := dst, count := n, pending := [], owner := some { core := core, started := true } }) ∧
  (∀ (s : State) (core : Nat) (accl accr samples kernel n : Word) (lines : List AsmLine),
    expand (.mac accl accr samples kernel n) = some lines → s.pending = hostMoves core lines →
    s.status.busy = false → s.owner = none →
    Sys2Proof.core.run 6 s = exec .mac { s with
      src0 := samples, src1 := kernel, dst0 := accl, dst1 := accr, count := n, pending := []
      owner := some { core := core, started := true } }) ∧
  (∀ (dst src n : Word) (f : Nat), 256 < f → expand (.blend dst src n f) = none)
end

