-- ==== Sys2Proof/Laws/Decode.lean ====
section
/-! SUPPORT. The fields of a packed word, and how the decoder reads it. -/

namespace Sys2Proof

@[simp] theorem opField_packWord (op : BitVec 4) (f : BitVec 9) : opField (packWord op f) = op := by
  apply BitVec.eq_of_getLsbD_eq
  intro i hi
  simp only [opField, packWord, BitVec.getLsbD_append, BitVec.getLsbD_extractLsb']
  simp [hi]

@[simp] theorem rsv0Field_packWord (op : BitVec 4) (f : BitVec 9) : rsv0Field (packWord op f) = 0 := by
  apply BitVec.eq_of_getLsbD_eq
  intro i hi
  simp only [rsv0Field, packWord, BitVec.getLsbD_append, BitVec.getLsbD_extractLsb']
  simp
  omega

@[simp] theorem factorField_packWord (op : BitVec 4) (f : BitVec 9) : factorField (packWord op f) = f := by
  apply BitVec.eq_of_getLsbD_eq
  intro i hi
  have h1 : ¬8 + i < 4 := by omega
  have h2 : ¬8 + i - 4 < 4 := by omega
  have h3 : 8 + i - 4 - 4 = i := by omega
  simp only [factorField, packWord, BitVec.getLsbD_append, BitVec.getLsbD_extractLsb']
  simp [hi, h1, h2, h3]

@[simp] theorem rsv1Field_packWord (op : BitVec 4) (f : BitVec 9) : rsv1Field (packWord op f) = 0 := by
  apply BitVec.eq_of_getLsbD_eq
  intro i hi
  have h1 : ¬17 + i < 4 := by omega
  have h2 : ¬17 + i - 4 < 4 := by omega
  have h3 : ¬17 + i - 4 - 4 < 9 := by omega
  simp only [rsv1Field, packWord, BitVec.getLsbD_append, BitVec.getLsbD_extractLsb']
  simp [h1, h2, h3]

/-- A word with zero reserved fields is the packing of its OP and FACTOR. -/
theorem packWord_fields {w : Word} (h0 : rsv0Field w = 0) (h1 : rsv1Field w = 0) :
    packWord (opField w) (factorField w) = w := by
  apply BitVec.eq_of_getLsbD_eq
  intro i hi
  have e0 : ∀ j, j < 4 → w.getLsbD (4 + j) = false := fun j hj => by
    have := congrArg (fun v => BitVec.getLsbD v j) h0
    simpa [rsv0Field, hj] using this
  have e1 : ∀ j, j < 15 → w.getLsbD (17 + j) = false := fun j hj => by
    have := congrArg (fun v => BitVec.getLsbD v j) h1
    simpa [rsv1Field, hj] using this
  simp only [packWord, opField, factorField, BitVec.getLsbD_append, BitVec.getLsbD_extractLsb']
  by_cases c1 : i < 4
  · simp [c1]
  · by_cases c2 : i - 4 < 4
    · have := e0 (i - 4) c2
      rw [show 4 + (i - 4) = i by omega] at this
      simp [c1, c2, this]
    · by_cases c3 : i - 4 - 4 < 9
      · have : 8 + (i - 4 - 4) = i := by omega
        simp [c1, c2, c3, this]
      · have := e1 (i - 17) (by omega)
        rw [show 17 + (i - 17) = i by omega] at this
        simp [c1, c2, c3, this]

/-- The decoder on a packed word reads its fields. -/
theorem decode_packWord (op : BitVec 4) (f : BitVec 9) : decode (packWord op f) = decodeFields op f := by
  simp [decode]

/-- A word that is not ILLEGAL has zero reserved fields. -/
theorem packWord_of_decode {w : Word} (h : decode w ≠ .illegal) : packWord (opField w) (factorField w) = w := by
  unfold decode at h
  split at h
  · exact absurd rfl h
  · rename_i hr
    simp only [not_or, not_not] at hr
    exact packWord_fields hr.2 hr.1

/-- The decoder depends only on OP and FACTOR once the reserved fields are zero. -/
theorem decode_eq_fields {w : Word} (h : decode w ≠ .illegal) : decode w = decodeFields (opField w) (factorField w) := by
  conv_lhs => rw [← packWord_of_decode h]
  exact decode_packWord _ _

/-- What the fields of a command are. -/
theorem decodeFields_eq_command {op : BitVec 4} {f : BitVec 9} {i : Instr} (h : decodeFields op f = .command i) :
    i.wellFormed = true ∧ opcode i = op ∧ factorOf i = f := by
  have ho : op = BitVec.ofNat 4 op.toNat := by simp
  unfold decodeFields at h
  split at h
  case h_7 => simp at h
  all_goals
    rename_i hn
    rw [hn] at ho
    try unfold plainCommand at h
    split at h <;> simp only [Decoded.command.injEq, reduceCtorEq] at h
    subst h
    subst ho
    simp_all [Instr.wellFormed, opcode, factorOf]

/-- A word that decodes to a command is that command's word. -/
theorem encode_of_decode {w : Word} {i : Instr} (h : decode w = .command i) : encode i = w := by
  have hn : decode w ≠ .illegal := by rw [h]; simp
  obtain ⟨-, h1, h2⟩ := decodeFields_eq_command ((decode_eq_fields hn).symm.trans h)
  rw [encode, h1, h2, packWord_of_decode hn]

end Sys2Proof
end

