-- ==== Sys2Proof/Laws/Memory.lean ====
section
/-! SUPPORT. The laws of data memory: read after write, the canonical form, extensionality. -/

namespace Sys2Proof.Machine

theorem Memory.read_of_not_mem {m : Memory} {x : Nat} (h : ∀ c ∈ m, c.1 ≠ x) : Memory.read m x = unlistedByte := by
  induction m with
  | nil => rfl
  | cons c rest ih =>
    obtain ⟨k, v⟩ := c
    have hk : k ≠ x := h (k, v) (by simp)
    simp only [Memory.read, hk, if_false]
    exact ih fun c hc => h c (by simp [hc])

theorem Memory.read_append_left {m m' : Memory} {x : Nat} (h : ∀ c ∈ m, c.1 ≠ x) :
    Memory.read (m ++ m') x = Memory.read m' x := by
  induction m with
  | nil => rfl
  | cons c rest ih =>
    obtain ⟨k, v⟩ := c
    have hk : k ≠ x := h (k, v) (by simp)
    simp only [List.cons_append, Memory.read, hk, if_false]
    exact ih fun c hc => h c (by simp [hc])

theorem Memory.read_append_right {m m' : Memory} {x : Nat} (h : ∀ c ∈ m', c.1 ≠ x) :
    Memory.read (m ++ m') x = Memory.read m x := by
  induction m with
  | nil => simpa [Memory.read] using Memory.read_of_not_mem h
  | cons c rest ih =>
    obtain ⟨k, v⟩ := c
    simp only [List.cons_append, Memory.read, ih]

theorem Memory.read_filter {m : Memory} {x : Nat} (p : Nat → Bool) (hx : p x = true) :
    Memory.read (m.filter (fun c => p c.1)) x = Memory.read m x := by
  induction m with
  | nil => rfl
  | cons c rest ih =>
    obtain ⟨k, v⟩ := c
    by_cases hk : k = x
    · subst hk; simp [Memory.read, hx]
    · by_cases hp : p k = true
      · simp [Memory.read, hp, hk, ih]
      · simp [Memory.read, hp, hk, ih]

theorem Memory.cellsAt_mem {a : Nat} {bs : List Byte} {c : Host.Cell} (h : c ∈ Memory.cellsAt a bs) :
    a ≤ c.1 ∧ c.1 < a + bs.length ∧ c.2 ≠ unlistedByte := by
  induction bs generalizing a with
  | nil => simp [Memory.cellsAt] at h
  | cons b bs ih =>
    simp only [Memory.cellsAt] at h
    split at h
    · have h1 := ih h
      rw [List.length_cons]
      exact ⟨by omega, by omega, h1.2.2⟩
    · rcases List.mem_cons.mp h with rfl | h
      · exact ⟨le_refl _, by simp, by assumption⟩
      · have h1 := ih h
        rw [List.length_cons]
        exact ⟨by omega, by omega, h1.2.2⟩

theorem Memory.read_cellsAt (a : Nat) (bs : List Byte) (x : Nat) :
    Memory.read (Memory.cellsAt a bs) x = if a ≤ x then bs.getD (x - a) unlistedByte else unlistedByte := by
  induction bs generalizing a with
  | nil => simp [Memory.cellsAt, Memory.read]
  | cons b bs ih =>
    have step : ∀ y, a < y → (b :: bs).getD (y - a) unlistedByte = bs.getD (y - (a + 1)) unlistedByte := by
      intro y hy
      obtain ⟨d, rfl⟩ := Nat.exists_eq_add_of_lt hy
      have h1 : a + d + 1 - a = d + 1 := by omega
      have h2 : a + d + 1 - (a + 1) = d := by omega
      simp [h1, h2]
    have tail : a ≠ x → Memory.read (Memory.cellsAt (a + 1) bs) x =
        if a ≤ x then (b :: bs).getD (x - a) unlistedByte else unlistedByte := by
      intro hx
      rw [ih]
      by_cases h : a < x
      · rw [if_pos (by omega), if_pos (by omega), step x h]
      · rw [if_neg (by omega), if_neg (by omega)]
    simp only [Memory.cellsAt]
    by_cases hb : b = unlistedByte
    · rw [if_pos hb]
      by_cases hx : a = x
      · subst hx
        rw [ih, if_neg (by omega)]
        simp [hb]
      · exact tail hx
    · rw [if_neg hb]
      by_cases hx : a = x
      · subst hx; simp [Memory.read]
      · simp only [Memory.read, hx, if_false]
        exact tail hx

/-- A read after a write: the written bytes in the written range, the old ones elsewhere. -/
theorem Memory.read_writeBytes (m : Memory) (a : Nat) (bs : List Byte) (x : Nat) :
    Memory.read (Memory.writeBytes m a bs) x =
      if a ≤ x ∧ x < a + bs.length then bs.getD (x - a) unlistedByte else Memory.read m x := by
  cases bs with
  | nil => simp [Memory.writeBytes]
  | cons b bs =>
    simp only [Memory.writeBytes]
    generalize hbs : b :: bs = l
    have hcells : ∀ c ∈ Memory.cellsAt a l, a ≤ c.1 ∧ c.1 < a + l.length := fun c hc =>
      ⟨(Memory.cellsAt_mem hc).1, (Memory.cellsAt_mem hc).2.1⟩
    by_cases hlt : x < a
    · rw [if_neg (by omega), List.append_assoc, Memory.read_append_right]
      · exact Memory.read_filter (fun k => decide (k < a)) (by simpa using hlt)
      · intro c hc
        rcases List.mem_append.mp hc with hc | hc
        · have := hcells c hc; omega
        · have := (List.mem_filter.mp hc).2; simp at this; omega
    · rw [List.append_assoc, Memory.read_append_left]
      · by_cases hin : x < a + l.length
        · rw [if_pos ⟨by omega, hin⟩, Memory.read_append_right, Memory.read_cellsAt, if_pos (by omega)]
          intro c hc
          have := (List.mem_filter.mp hc).2; simp at this; omega
        · rw [if_neg (by omega), Memory.read_append_left]
          · exact Memory.read_filter (fun k => decide (a + l.length ≤ k)) (by simp; omega)
          · intro c hc; have := hcells c hc; omega
      · intro c hc
        have := (List.mem_filter.mp hc).2; simp at this; omega

theorem Memory.read_writeBytes_of_not_mem {m : Memory} {a : Nat} {bs : List Byte} {x : Nat}
    (h : ¬(a ≤ x ∧ x < a + bs.length)) : Memory.read (Memory.writeBytes m a bs) x = Memory.read m x := by
  rw [Memory.read_writeBytes, if_neg h]

theorem Memory.cellsAt_sorted (a : Nat) (bs : List Byte) :
    (Memory.cellsAt a bs).Pairwise (fun c d => c.1 < d.1) := by
  induction bs generalizing a with
  | nil => simp [Memory.cellsAt]
  | cons b bs ih =>
    simp only [Memory.cellsAt]
    split
    · exact ih (a + 1)
    · refine List.pairwise_cons.mpr ⟨fun c hc => ?_, ih (a + 1)⟩
      have := Memory.cellsAt_mem hc
      show a < c.1
      omega

/-- The canonical form without the bound of the address space, which any write keeps. -/
structure Memory.Canonical (m : Memory) : Prop where
  sorted : m.Pairwise (fun c d => c.1 < d.1)
  listed : ∀ c ∈ m, c.2 ≠ unlistedByte

theorem Memory.Wf.canonical {m : Memory} (h : Memory.Wf m) : Memory.Canonical m :=
  ⟨h.1, fun c hc => (h.2 c hc).2⟩

/-- A write keeps the cells sorted and listed. -/
theorem Memory.writeBytes_canonical {m : Memory} {a : Nat} {bs : List Byte} (hm : Memory.Canonical m) :
    Memory.Canonical (Memory.writeBytes m a bs) := by
  cases bs with
  | nil => exact hm
  | cons b bs =>
    simp only [Memory.writeBytes]
    generalize b :: bs = l
    refine ⟨?_, ?_⟩
    · rw [List.append_assoc, List.pairwise_append, List.pairwise_append]
      refine ⟨hm.1.filter _, ⟨Memory.cellsAt_sorted a l, hm.1.filter _, ?_⟩, ?_⟩
      · intro c hc d hd
        have h1 := Memory.cellsAt_mem hc
        have h2 := (List.mem_filter.mp hd).2
        simp at h2
        omega
      · intro c hc d hd
        have h1 := (List.mem_filter.mp hc).2
        simp at h1
        rcases List.mem_append.mp hd with hd | hd
        · have := Memory.cellsAt_mem hd; omega
        · have h2 := (List.mem_filter.mp hd).2
          simp at h2
          omega
    · intro c hc
      rcases List.mem_append.mp hc with hc | hc
      · rcases List.mem_append.mp hc with hc | hc
        · exact hm.2 c (List.mem_filter.mp hc).1
        · exact (Memory.cellsAt_mem hc).2.2
      · exact hm.2 c (List.mem_filter.mp hc).1

/-- Every cell of a written memory is an old one or lies in the written range. -/
theorem Memory.mem_writeBytes {m : Memory} {a : Nat} {bs : List Byte} {c : Host.Cell}
    (h : c ∈ Memory.writeBytes m a bs) : c ∈ m ∨ (a ≤ c.1 ∧ c.1 < a + bs.length) := by
  cases bs with
  | nil => exact .inl h
  | cons b bs =>
    rcases List.mem_append.mp h with h | h
    · rcases List.mem_append.mp h with h | h
      · exact .inl (List.mem_filter.mp h).1
      · exact .inr ⟨(Memory.cellsAt_mem h).1, (Memory.cellsAt_mem h).2.1⟩
    · exact .inl (List.mem_filter.mp h).1

/-- A write inside the address space keeps the canonical form. -/
theorem Memory.writeBytes_wf {m : Memory} {a : Nat} {bs : List Byte} (hm : Memory.Wf m)
    (hb : a + bs.length ≤ Config.addressSpace) : Memory.Wf (Memory.writeBytes m a bs) := by
  have hc := Memory.writeBytes_canonical (a := a) (bs := bs) ⟨hm.1, fun c hc => (hm.2 c hc).2⟩
  refine ⟨hc.sorted, fun c h => ⟨?_, hc.listed c h⟩⟩
  rcases Memory.mem_writeBytes h with h | h
  · exact (hm.2 c h).1
  · omega

/-- Several writes keep the cells sorted and listed. -/
theorem Memory.writeAll_canonical {ws : List (Nat × List Byte)} {m : Memory} (hm : Memory.Canonical m) :
    Memory.Canonical (Memory.writeAll m ws) := by
  induction ws generalizing m with
  | nil => exact hm
  | cons w ws ih => exact ih (Memory.writeBytes_canonical hm)

/-- Several writes inside the address space keep the canonical form. -/
theorem Memory.writeAll_wf {ws : List (Nat × List Byte)} {m : Memory} (hm : Memory.Wf m)
    (h : ∀ w ∈ ws, w.1 + w.2.length ≤ Config.addressSpace) : Memory.Wf (Memory.writeAll m ws) := by
  induction ws generalizing m with
  | nil => exact hm
  | cons w ws ih =>
    exact ih (Memory.writeBytes_wf hm (h w (by simp))) fun v hv => h v (by simp [hv])

/-- Several writes leave every byte outside them. -/
theorem Memory.read_writeAll_of_not_mem {ws : List (Nat × List Byte)} {m : Memory} {x : Nat}
    (h : ∀ w ∈ ws, ¬(w.1 ≤ x ∧ x < w.1 + w.2.length)) : Memory.read (Memory.writeAll m ws) x = Memory.read m x := by
  induction ws generalizing m with
  | nil => rfl
  | cons w ws ih =>
    show Memory.read (Memory.writeAll (Memory.writeBytes m w.1 w.2) ws) x = _
    rw [ih fun v hv => h v (by simp [hv]), Memory.read_writeBytes_of_not_mem (h w (by simp))]

/-- Equal canonical memories are equal data. -/
theorem Memory.ext {m m' : Memory} (hm : Memory.Canonical m) (hm' : Memory.Canonical m')
    (h : ∀ a, Memory.read m a = Memory.read m' a) : m = m' := by
  induction m generalizing m' with
  | nil =>
    cases m' with
    | nil => rfl
    | cons c r =>
      obtain ⟨k, v⟩ := c
      have := h k
      simp [Memory.read] at this
      exact absurd this.symm (hm'.2 (k, v) (by simp))
  | cons c r ih =>
    obtain ⟨k, v⟩ := c
    have hv := hm.2 (k, v) (by simp)
    cases m' with
    | nil =>
      have := h k
      simp [Memory.read] at this
      exact absurd this hv
    | cons c' r' =>
      obtain ⟨k', v'⟩ := c'
      have hv' := hm'.2 (k', v') (by simp)
      have hs := List.pairwise_cons.mp hm.1
      have hs' := List.pairwise_cons.mp hm'.1
      have outside : ∀ x, x ≤ k → Memory.read r x = unlistedByte := fun x hx =>
        Memory.read_of_not_mem fun c hc => by have : k < c.1 := hs.1 c hc; omega
      have outside' : ∀ x, x ≤ k' → Memory.read r' x = unlistedByte := fun x hx =>
        Memory.read_of_not_mem fun c hc => by have : k' < c.1 := hs'.1 c hc; omega
      have hk : k = k' := by
        rcases Nat.lt_trichotomy k k' with hlt | heq | hgt
        · have := h k
          rw [Memory.read, if_pos rfl, Memory.read, if_neg (by omega), outside' k (by omega)] at this
          exact absurd this hv
        · exact heq
        · have := h k'
          rw [Memory.read, if_neg (by omega), outside k' (by omega), Memory.read, if_pos rfl] at this
          exact absurd this.symm hv'
      subst hk
      have hvv : v = v' := by simpa [Memory.read] using h k
      subst hvv
      congr 1
      refine ih ⟨hs.2, fun c hc => hm.2 c (by simp [hc])⟩ ⟨hs'.2, fun c hc => hm'.2 c (by simp [hc])⟩ fun a => ?_
      by_cases ha : k = a
      · subst ha; rw [outside k (le_refl k), outside' k (le_refl k)]
      · simpa [Memory.read, ha] using h a

/-! ### Memory at power-up -/

theorem Memory.wf_nil : Memory.Wf [] := ⟨List.Pairwise.nil, by simp⟩

/-- The memory of any cells is canonical. -/
theorem Memory.ofCells_wf (cs : List Host.Cell) : Memory.Wf (Memory.ofCells cs) := by
  refine Memory.writeAll_wf Memory.wf_nil fun w hw => ?_
  obtain ⟨c, hc, rfl⟩ := List.mem_map.mp hw
  have := of_decide_eq_true (List.mem_filter.mp hc).2
  simp only [List.length_singleton]
  omega

theorem Memory.powerUp_wf : Memory.Wf Memory.powerUp := Memory.ofCells_wf _

/-- Writing sorted cells one by one: the cells where they are, the old bytes elsewhere. -/
theorem Memory.read_writeAll_cells {cs m : Memory} {a : Nat} (hs : cs.Pairwise (fun c d => c.1 < d.1)) :
    Memory.read (Memory.writeAll m (cs.map (fun c => (c.1, [c.2])))) a =
      if ∃ c ∈ cs, c.1 = a then Memory.read cs a else Memory.read m a := by
  induction cs generalizing m with
  | nil => simp [Memory.writeAll]
  | cons c rest ih =>
    have hc := List.pairwise_cons.mp hs
    show Memory.read (Memory.writeAll (Memory.writeBytes m c.1 [c.2]) _) a = _
    rw [ih hc.2]
    by_cases ha : c.1 = a
    · have hrest : ¬∃ d ∈ rest, d.1 = a := by
        rintro ⟨d, hd, rfl⟩
        have := hc.1 d hd
        omega
      rw [if_neg hrest, if_pos ⟨c, by simp, ha⟩, Memory.read_writeBytes, if_pos (by simp; omega)]
      simp [Memory.read, ha]
    · rw [Memory.read_writeBytes_of_not_mem (by simp; omega)]
      simp [Memory.read, ha]

/-- Every canonical memory is the memory of its own cells, so power-up contents may be any contents
(70_reset_and_hazards.md R262). -/
theorem Memory.ofCells_of_wf {m : Memory} (h : Memory.Wf m) : Memory.ofCells m = m := by
  have hf : m.filter (fun c => decide (c.1 < Config.addressSpace)) = m :=
    List.filter_eq_self.mpr fun c hc => decide_eq_true (h.2 c hc).1
  refine Memory.ext (Memory.ofCells_wf m).canonical h.canonical fun a => ?_
  unfold Memory.ofCells
  rw [hf, Memory.read_writeAll_cells h.1]
  split
  · rfl
  · rename_i hn
    exact (Memory.read_of_not_mem fun c hc hca => hn ⟨c, hc, hca⟩).symm

@[simp] theorem bytes16_length (v : Half) : (bytes16 v).length = 2 := rfl

@[simp] theorem bytes32_length (v : Word) : (bytes32 v).length = 4 := rfl

/-- A 16-bit element whose two bytes are those of `v` reads as `v`. -/
theorem Memory.read16_eq {m : Memory} {a : Nat} {v : Half} (h0 : Memory.read m a = v.extractLsb' 0 8)
    (h1 : Memory.read m (a + 1) = v.extractLsb' 8 8) : Memory.read16 m a = v := by
  unfold Memory.read16
  rw [h0, h1]
  apply BitVec.eq_of_getLsbD_eq
  intro i hi
  simp only [BitVec.getLsbD_append, BitVec.getLsbD_extractLsb']
  by_cases hi8 : i < 8
  · simp [hi8]
  · have : i - 8 < 8 := by omega
    have : 8 + (i - 8) = i := by omega
    simp [*]

/-- A 32-bit element whose four bytes are those of `v` reads as `v`. -/
theorem Memory.read32_eq {m : Memory} {a : Nat} {v : Word} (h0 : Memory.read m a = v.extractLsb' 0 8)
    (h1 : Memory.read m (a + 1) = v.extractLsb' 8 8) (h2 : Memory.read m (a + 2) = v.extractLsb' 16 8)
    (h3 : Memory.read m (a + 3) = v.extractLsb' 24 8) : Memory.read32 m a = v := by
  unfold Memory.read32
  rw [h0, h1, h2, h3]
  apply BitVec.eq_of_getLsbD_eq
  intro i hi
  simp only [BitVec.getLsbD_append, BitVec.getLsbD_extractLsb']
  by_cases h8 : i < 8
  · simp [h8]
  · by_cases h16 : i - 8 < 8
    · have : 8 + (i - 8) = i := by omega
      simp [*]
    · by_cases h24 : i - 8 - 8 < 8
      · have : 16 + (i - 8 - 8) = i := by omega
        simp [*]
      · have h : i - 8 - 8 - 8 < 8 := by omega
        have : 24 + (i - 8 - 8 - 8) = i := by omega
        simp [*]

/-- A 16-bit element is little-endian (20_memory.md R61). -/
theorem Memory.read16_toNat (m : Memory) (a : Nat) :
    (Memory.read16 m a).toNat = (Memory.read m a).toNat + 256 * (Memory.read m (a + 1)).toNat := by
  have h := (Memory.read m a).isLt
  rw [Memory.read16, BitVec.toNat_append, ← Nat.shiftLeft_add_eq_or_of_lt h, Nat.shiftLeft_eq]
  omega

/-- A 32-bit element is little-endian (20_memory.md R61). -/
theorem Memory.read32_toNat (m : Memory) (a : Nat) :
    (Memory.read32 m a).toNat = (Memory.read m a).toNat + 2 ^ 8 * (Memory.read m (a + 1)).toNat +
      2 ^ 16 * (Memory.read m (a + 2)).toNat + 2 ^ 24 * (Memory.read m (a + 3)).toNat := by
  have h0 := (Memory.read m a).isLt
  have h1 := (Memory.read m (a + 1)).isLt
  have h2 := (Memory.read m (a + 2)).isLt
  rw [Memory.read32, BitVec.toNat_append, ← Nat.shiftLeft_add_eq_or_of_lt h0, BitVec.toNat_append,
    ← Nat.shiftLeft_add_eq_or_of_lt h1, BitVec.toNat_append, ← Nat.shiftLeft_add_eq_or_of_lt h2]
  simp only [Nat.shiftLeft_eq]
  omega

/-- A 16-bit element, read as signed. -/
theorem Memory.read16_toInt (m : Memory) (a : Nat) :
    (Memory.read16 m a).toInt =
      Int.bmod (((Memory.read m a).toNat : Int) + 2 ^ 8 * ((Memory.read m (a + 1)).toNat : Int)) (2 ^ 16) := by
  rw [BitVec.toInt_eq_toNat_bmod, Memory.read16_toNat]
  push_cast
  norm_num

/-- A 32-bit element, read as signed. -/
theorem Memory.read32_toInt (m : Memory) (a : Nat) :
    (Memory.read32 m a).toInt =
      Int.bmod (((Memory.read m a).toNat : Int) + 2 ^ 8 * ((Memory.read m (a + 1)).toNat : Int) +
        2 ^ 16 * ((Memory.read m (a + 2)).toNat : Int) + 2 ^ 24 * ((Memory.read m (a + 3)).toNat : Int)) (2 ^ 32) := by
  rw [BitVec.toInt_eq_toNat_bmod, Memory.read32_toNat]
  push_cast
  norm_num

/-- A 16-bit element depends only on its two bytes. -/
theorem Memory.read16_congr {m m' : Memory} {a : Nat}
    (h : ∀ x, a ≤ x → x < a + 2 → Memory.read m x = Memory.read m' x) : Memory.read16 m a = Memory.read16 m' a := by
  simp only [Memory.read16, h a (by omega) (by omega), h (a + 1) (by omega) (by omega)]

/-- A 32-bit element depends only on its four bytes. -/
theorem Memory.read32_congr {m m' : Memory} {a : Nat}
    (h : ∀ x, a ≤ x → x < a + 4 → Memory.read m x = Memory.read m' x) : Memory.read32 m a = Memory.read32 m' a := by
  simp only [Memory.read32, h a (by omega) (by omega), h (a + 1) (by omega) (by omega),
    h (a + 2) (by omega) (by omega), h (a + 3) (by omega) (by omega)]

/-- A stored 32-bit element reads back. -/
theorem Memory.read32_writeBytes (m : Memory) (a : Nat) (v : Word) :
    Memory.read32 (Memory.writeBytes m a (bytes32 v)) a = v := by
  apply Memory.read32_eq <;> rw [Memory.read_writeBytes, if_pos (by simp)] <;> simp [bytes32]

end Sys2Proof.Machine
end

