-- ==== Sys2Proof/Laws/Operands.lean ====
section
/-! SUPPORT. Ranges and the checks on them, as propositions about addresses. -/

namespace Sys2Proof.Machine

section
variable (i : Instr) (op : OpRecord) (p : Platform)

@[simp] theorem rangeS_base : (rangeS i op).base = op.src0.toNat := rfl
@[simp] theorem rangeS_len : (rangeS i op).len = sourceBytes i * op.count.toNat := rfl
@[simp] theorem rangeD_base : (rangeD i op).base = op.dst0.toNat := rfl
@[simp] theorem rangeD_len : (rangeD i op).len = destBytes i * op.count.toNat := rfl
@[simp] theorem rangeK_base : (rangeK op).base = op.src1.toNat := rfl
@[simp] theorem rangeK_len : (rangeK op).len = 2 * op.count.toNat := rfl
@[simp] theorem rangeAL_base : (rangeAL op).base = op.dst0.toNat := rfl
@[simp] theorem rangeAL_len : (rangeAL op).len = 16 := rfl
@[simp] theorem rangeAR_base : (rangeAR op).base = op.dst1.toNat := rfl
@[simp] theorem rangeAR_len : (rangeAR op).len = 16 := rfl
@[simp] theorem laneL_base : (laneL op).base = op.dst0.toNat := rfl
@[simp] theorem laneL_len : (laneL op).len = 4 := rfl
@[simp] theorem laneR_base : (laneR op).base = op.dst1.toNat := rfl
@[simp] theorem laneR_len : (laneR op).len = 4 := rfl
@[simp] theorem window_base : (Platform.window p).base = p.regBase.toNat := rfl
@[simp] theorem window_len : (Platform.window p).len = 256 := rfl
end

theorem Range.holds_iff {r : Range} {a : Nat} : r.holds a = true ↔ r.base ≤ a ∧ a < r.base + r.len := by
  simp [Range.holds]

theorem Range.holds_eq_false {r : Range} {a : Nat} : r.holds a = false ↔ ¬(r.base ≤ a ∧ a < r.base + r.len) := by
  rw [← Range.holds_iff, Bool.not_eq_true]

theorem Range.intersects_iff {r q : Range} :
    r.intersects q = true ↔ 0 < r.len ∧ 0 < q.len ∧ r.base < q.base + q.len ∧ q.base < r.base + r.len := by
  simp [Range.intersects, and_assoc]

theorem Range.mem_addresses {r : Range} {a : Nat} : a ∈ r.addresses ↔ r.base ≤ a ∧ a < r.base + r.len := by
  simp only [Range.addresses, List.mem_map, List.mem_range]
  constructor
  · rintro ⟨j, hj, rfl⟩; omega
  · rintro ⟨h1, h2⟩; exact ⟨a - r.base, by omega, by omega⟩

@[simp] theorem Range.addresses_length (r : Range) : r.addresses.length = r.len := by simp [Range.addresses]

/-- COUNT as a word and as a number are 0 together. -/
theorem OpRecord.count_ne_zero {op : OpRecord} : op.count ≠ 0 ↔ op.count.toNat ≠ 0 := by
  rw [not_iff_not]
  exact ⟨fun h => by simp [h], fun h => BitVec.eq_of_toNat_eq (by simpa using h)⟩

@[simp] theorem OpRecord.mem_stores {op : OpRecord} {r : Range} : r ∈ op.stores ↔ op.count ≠ 0 ∧ r ∈ op.writes := by
  have : op.n = 0 ↔ op.count = 0 := not_iff_not.mp OpRecord.count_ne_zero.symm
  simp [OpRecord.stores, this]

@[simp] theorem OpRecord.mem_loads {op : OpRecord} {r : Range} : r ∈ op.loads ↔ op.count ≠ 0 ∧ r ∈ op.reads := by
  have : op.n = 0 ↔ op.count = 0 := not_iff_not.mp OpRecord.count_ne_zero.symm
  simp [OpRecord.loads, this]

/-- The failure of the overlap rule of a command with one source and one destination. -/
theorem inPlaceOrDisjoint_eq_false {i : Instr} {op : OpRecord} :
    inPlaceOrDisjoint i op = false ↔ (rangeS i op).intersects (rangeD i op) = true ∧ op.src0 ≠ op.dst0 := by
  simp [inPlaceOrDisjoint]

/-- The failure of the overlap rule of MAC. -/
theorem overlapOk_mac_eq_false {op : OpRecord} :
    overlapOk .mac op = false ↔
      (rangeAL op).intersects (rangeAR op) = true ∨
      (rangeAL op).intersects (rangeS .mac op) = true ∨ (rangeAL op).intersects (rangeK op) = true ∨
      (rangeAR op).intersects (rangeS .mac op) = true ∨ (rangeAR op).intersects (rangeK op) = true := by
  simp only [overlapOk, Bool.and_eq_false_iff, Bool.not_eq_false', or_assoc]

/-- The ranges cover an address of a kind. -/
theorem Platform.covers_iff {p : Platform} {rs : List Range} {k : Option RegionKind} :
    Platform.covers p rs k = true ↔
      ∃ r ∈ rs, ∃ a, r.base ≤ a ∧ a < r.base + r.len ∧ Platform.kindAt p a = k := by
  simp only [Platform.covers, List.any_eq_true, decide_eq_true_eq, Range.mem_addresses, and_assoc]

/-- With elements to process a command accesses its read and write ranges. -/
theorem accessRanges_of_count {i : Instr} {op : OpRecord} (h : op.count ≠ 0) :
    accessRanges i op = readRanges i op ++ writeRanges i op := by
  have : op.n ≠ 0 := OpRecord.count_ne_zero.mp h
  simp [accessRanges, this]

end Sys2Proof.Machine
end

