-- ==== Sys2Proof/Laws/State.lean ====
section
/-! SUPPORT. One lemma per field and update of the state, each true by rfl. -/

namespace Sys2Proof.Machine

section
variable (st : Status) (e : ErrKind) (b : Bool) (w : Word)

@[simp] theorem Status.hostWrite_busy : (st.hostWrite w).busy = st.busy := rfl
@[simp] theorem Status.hostWrite_done : (st.hostWrite w).done = (st.done && !w.getLsbD 1) := rfl
@[simp] theorem Status.hostWrite_err : (st.hostWrite w).err = (st.err && !w.getLsbD 2) := rfl
@[simp] theorem Status.hostWrite_ovf : (st.hostWrite w).ovf = (st.ovf && !w.getLsbD 3) := rfl
@[simp] theorem Status.hostWrite_werr : (st.hostWrite w).werr = (st.werr && !w.getLsbD 4) := rfl
@[simp] theorem Status.hostWrite_errcode :
    (st.hostWrite w).errcode = if w.getLsbD 2 then 0 else st.errcode := rfl
@[simp] theorem Status.onAccept_busy : st.onAccept.busy = st.busy := rfl
@[simp] theorem Status.onAccept_done : st.onAccept.done = false := rfl
@[simp] theorem Status.onAccept_err : st.onAccept.err = false := rfl
@[simp] theorem Status.onAccept_ovf : st.onAccept.ovf = st.ovf := rfl
@[simp] theorem Status.onAccept_werr : st.onAccept.werr = st.werr := rfl
@[simp] theorem Status.onAccept_errcode : st.onAccept.errcode = 0 := rfl
@[simp] theorem Status.start_busy : st.start.busy = true := rfl
@[simp] theorem Status.start_done : st.start.done = st.done := rfl
@[simp] theorem Status.start_err : st.start.err = st.err := rfl
@[simp] theorem Status.start_ovf : st.start.ovf = st.ovf := rfl
@[simp] theorem Status.start_werr : st.start.werr = st.werr := rfl
@[simp] theorem Status.start_errcode : st.start.errcode = st.errcode := rfl
@[simp] theorem Status.endError_busy : (st.endError e).busy = false := rfl
@[simp] theorem Status.endError_done : (st.endError e).done = true := rfl
@[simp] theorem Status.endError_err : (st.endError e).err = true := rfl
@[simp] theorem Status.endError_ovf : (st.endError e).ovf = st.ovf := rfl
@[simp] theorem Status.endError_werr : (st.endError e).werr = st.werr := rfl
@[simp] theorem Status.endError_errcode : (st.endError e).errcode = e.code := rfl
@[simp] theorem Status.endDone_busy : (st.endDone b).busy = false := rfl
@[simp] theorem Status.endDone_done : (st.endDone b).done = true := rfl
@[simp] theorem Status.endDone_err : (st.endDone b).err = st.err := rfl
@[simp] theorem Status.endDone_ovf : (st.endDone b).ovf = (st.ovf || b) := rfl
@[simp] theorem Status.endDone_werr : (st.endDone b).werr = st.werr := rfl
@[simp] theorem Status.endDone_errcode : (st.endDone b).errcode = st.errcode := rfl
@[simp] theorem Status.setWerr_busy : st.setWerr.busy = st.busy := rfl
@[simp] theorem Status.setWerr_done : st.setWerr.done = st.done := rfl
@[simp] theorem Status.setWerr_err : st.setWerr.err = st.err := rfl
@[simp] theorem Status.setWerr_ovf : st.setWerr.ovf = st.ovf := rfl
@[simp] theorem Status.setWerr_werr : st.setWerr.werr = true := rfl
@[simp] theorem Status.setWerr_errcode : st.setWerr.errcode = st.errcode := rfl
end

section
variable (s : State) (e : ErrKind)

@[simp] theorem endWithError_cmd : (endWithError e s).cmd = s.cmd := rfl
@[simp] theorem endWithError_status : (endWithError e s).status = s.status.endError e := rfl
@[simp] theorem endWithError_src0 : (endWithError e s).src0 = s.src0 := rfl
@[simp] theorem endWithError_src1 : (endWithError e s).src1 = s.src1 := rfl
@[simp] theorem endWithError_dst0 : (endWithError e s).dst0 = s.dst0 := rfl
@[simp] theorem endWithError_dst1 : (endWithError e s).dst1 = s.dst1 := rfl
@[simp] theorem endWithError_count : (endWithError e s).count = s.count := rfl
@[simp] theorem endWithError_eng : (endWithError e s).eng = .idle := rfl
@[simp] theorem endWithError_mem : (endWithError e s).mem = s.mem := rfl
@[simp] theorem endWithError_platform : (endWithError e s).platform = s.platform := rfl
@[simp] theorem endWithError_rdata : (endWithError e s).rdata = s.rdata := rfl
@[simp] theorem endWithError_ldata : (endWithError e s).ldata = s.ldata := rfl
@[simp] theorem endWithError_owner : (endWithError e s).owner = s.owner := rfl
@[simp] theorem endWithError_unread : (endWithError e s).unread = s.unread := rfl
@[simp] theorem endWithError_unpublished : (endWithError e s).unpublished = s.unpublished := rfl
@[simp] theorem endWithError_draws : (endWithError e s).draws = s.draws := rfl
@[simp] theorem endWithError_pending : (endWithError e s).pending = s.pending := rfl
end

section
variable (s : State) (op : OpRecord)

@[simp] theorem startRun_cmd : (startRun op s).cmd = s.cmd := rfl
@[simp] theorem startRun_status : (startRun op s).status = s.status.start := rfl
@[simp] theorem startRun_src0 : (startRun op s).src0 = s.src0 := rfl
@[simp] theorem startRun_src1 : (startRun op s).src1 = s.src1 := rfl
@[simp] theorem startRun_dst0 : (startRun op s).dst0 = s.dst0 := rfl
@[simp] theorem startRun_dst1 : (startRun op s).dst1 = s.dst1 := rfl
@[simp] theorem startRun_count : (startRun op s).count = s.count := rfl
@[simp] theorem startRun_eng :
    (startRun op s).eng = .busy { op := op, m0 := snapshot op s, raced := false } := rfl
@[simp] theorem startRun_mem : (startRun op s).mem = s.mem := rfl
@[simp] theorem startRun_platform : (startRun op s).platform = s.platform := rfl
@[simp] theorem startRun_rdata : (startRun op s).rdata = s.rdata := rfl
@[simp] theorem startRun_ldata : (startRun op s).ldata = s.ldata := rfl
@[simp] theorem startRun_owner : (startRun op s).owner = s.owner := rfl
@[simp] theorem startRun_unread : (startRun op s).unread = s.unread := rfl
@[simp] theorem startRun_unpublished : (startRun op s).unpublished = s.unpublished := rfl
@[simp] theorem startRun_draws : (startRun op s).draws = s.draws + 1 := rfl
@[simp] theorem startRun_pending : (startRun op s).pending = s.pending := rfl
end

section
variable (s : State) (run : Run) (eff : Effect)

@[simp] theorem complete_cmd : (complete run eff s).cmd = s.cmd := rfl
@[simp] theorem complete_status : (complete run eff s).status = s.status.endDone eff.ovf := rfl
@[simp] theorem complete_src0 : (complete run eff s).src0 = s.src0 := rfl
@[simp] theorem complete_src1 : (complete run eff s).src1 = s.src1 := rfl
@[simp] theorem complete_dst0 : (complete run eff s).dst0 = s.dst0 := rfl
@[simp] theorem complete_dst1 : (complete run eff s).dst1 = s.dst1 := rfl
@[simp] theorem complete_count : (complete run eff s).count = s.count := rfl
@[simp] theorem complete_eng : (complete run eff s).eng = .idle := rfl
@[simp] theorem complete_mem : (complete run eff s).mem = Memory.writeAll s.mem eff.writes := rfl
@[simp] theorem complete_platform : (complete run eff s).platform = s.platform := rfl
@[simp] theorem complete_rdata : (complete run eff s).rdata = s.rdata := rfl
@[simp] theorem complete_ldata : (complete run eff s).ldata = s.ldata := rfl
@[simp] theorem complete_owner : (complete run eff s).owner = s.owner := rfl
@[simp] theorem complete_unread : (complete run eff s).unread = run :: s.unread := rfl
@[simp] theorem complete_unpublished : (complete run eff s).unpublished = s.unpublished := rfl
@[simp] theorem complete_draws : (complete run eff s).draws = s.draws := rfl
@[simp] theorem complete_pending : (complete run eff s).pending = s.pending := rfl
end

section
variable (s : State) (run : Run) (rs : List Range) (b : Bool)

@[simp] theorem completeRaced_cmd : (completeRaced rs b run s).cmd = s.cmd := rfl
@[simp] theorem completeRaced_status :
    (completeRaced rs b run s).status = s.status.endDone (b && Config.freeBit s.draws 0) := rfl
@[simp] theorem completeRaced_src0 : (completeRaced rs b run s).src0 = s.src0 := rfl
@[simp] theorem completeRaced_src1 : (completeRaced rs b run s).src1 = s.src1 := rfl
@[simp] theorem completeRaced_dst0 : (completeRaced rs b run s).dst0 = s.dst0 := rfl
@[simp] theorem completeRaced_dst1 : (completeRaced rs b run s).dst1 = s.dst1 := rfl
@[simp] theorem completeRaced_count : (completeRaced rs b run s).count = s.count := rfl
@[simp] theorem completeRaced_eng : (completeRaced rs b run s).eng = .idle := rfl
@[simp] theorem completeRaced_mem : (completeRaced rs b run s).mem = drawBytes s.draws rs s.mem := rfl
@[simp] theorem completeRaced_platform : (completeRaced rs b run s).platform = s.platform := rfl
@[simp] theorem completeRaced_rdata : (completeRaced rs b run s).rdata = s.rdata := rfl
@[simp] theorem completeRaced_ldata : (completeRaced rs b run s).ldata = s.ldata := rfl
@[simp] theorem completeRaced_owner : (completeRaced rs b run s).owner = s.owner := rfl
@[simp] theorem completeRaced_unread : (completeRaced rs b run s).unread = run :: s.unread := rfl
@[simp] theorem completeRaced_unpublished : (completeRaced rs b run s).unpublished = s.unpublished := rfl
@[simp] theorem completeRaced_draws : (completeRaced rs b run s).draws = s.draws + 1 := rfl
@[simp] theorem completeRaced_pending : (completeRaced rs b run s).pending = s.pending := rfl

@[simp] theorem endWithBusError_cmd : (endWithBusError rs run s).cmd = s.cmd := rfl
@[simp] theorem endWithBusError_status : (endWithBusError rs run s).status = s.status.endError .bus := rfl
@[simp] theorem endWithBusError_src0 : (endWithBusError rs run s).src0 = s.src0 := rfl
@[simp] theorem endWithBusError_src1 : (endWithBusError rs run s).src1 = s.src1 := rfl
@[simp] theorem endWithBusError_dst0 : (endWithBusError rs run s).dst0 = s.dst0 := rfl
@[simp] theorem endWithBusError_dst1 : (endWithBusError rs run s).dst1 = s.dst1 := rfl
@[simp] theorem endWithBusError_count : (endWithBusError rs run s).count = s.count := rfl
@[simp] theorem endWithBusError_eng : (endWithBusError rs run s).eng = .idle := rfl
@[simp] theorem endWithBusError_mem : (endWithBusError rs run s).mem = drawBytes s.draws rs s.mem := rfl
@[simp] theorem endWithBusError_platform : (endWithBusError rs run s).platform = s.platform := rfl
@[simp] theorem endWithBusError_rdata : (endWithBusError rs run s).rdata = s.rdata := rfl
@[simp] theorem endWithBusError_ldata : (endWithBusError rs run s).ldata = s.ldata := rfl
@[simp] theorem endWithBusError_owner : (endWithBusError rs run s).owner = s.owner := rfl
@[simp] theorem endWithBusError_unread : (endWithBusError rs run s).unread = run :: s.unread := rfl
@[simp] theorem endWithBusError_unpublished : (endWithBusError rs run s).unpublished = s.unpublished := rfl
@[simp] theorem endWithBusError_draws : (endWithBusError rs run s).draws = s.draws + 1 := rfl
@[simp] theorem endWithBusError_pending : (endWithBusError rs run s).pending = s.pending := rfl
end

section
variable (s : State) (v : Word)

@[simp] theorem writeStatus_status : (writeStatus v s).status = s.status.hostWrite v := rfl
@[simp] theorem writeStatus_eng : (writeStatus v s).eng = s.eng := rfl
@[simp] theorem writeStatus_mem : (writeStatus v s).mem = s.mem := rfl
@[simp] theorem writeStatus_cmd : (writeStatus v s).cmd = s.cmd := rfl
@[simp] theorem writeStatus_src0 : (writeStatus v s).src0 = s.src0 := rfl
@[simp] theorem writeStatus_src1 : (writeStatus v s).src1 = s.src1 := rfl
@[simp] theorem writeStatus_dst0 : (writeStatus v s).dst0 = s.dst0 := rfl
@[simp] theorem writeStatus_dst1 : (writeStatus v s).dst1 = s.dst1 := rfl
@[simp] theorem writeStatus_count : (writeStatus v s).count = s.count := rfl
@[simp] theorem writeStatus_platform : (writeStatus v s).platform = s.platform := rfl
@[simp] theorem writeStatus_unread : (writeStatus v s).unread = s.unread := rfl
@[simp] theorem writeStatus_draws : (writeStatus v s).draws = s.draws := rfl
@[simp] theorem writeStatus_pending : (writeStatus v s).pending = s.pending := rfl
end

end Sys2Proof.Machine
end

