-- ==== Sys2Proof/Laws/Ops.lean ====
section
/-! SUPPORT. What each shared operation can do, said once. -/

namespace Sys2Proof.Machine

/-! ### Free values -/

/-- Outside the ranges a draw leaves memory as it was. -/
theorem read_drawBytes_of_not_mem {n : Nat} {rs : List Range} {m : Memory} {a : Nat}
    (h : ∀ r ∈ rs, ¬(r.base ≤ a ∧ a < r.base + r.len)) : Memory.read (drawBytes n rs m) a = Memory.read m a := by
  refine Memory.read_writeAll_of_not_mem fun w hw => ?_
  obtain ⟨r, hr, rfl⟩ := List.mem_map.mp hw
  simpa using h r hr

theorem read_writeBytes_draw (n : Nat) (r : Range) (m : Memory) (a : Nat) :
    Memory.read (Memory.writeBytes m r.base (r.addresses.map (fun x => Config.freeByte n x))) a =
      if r.base ≤ a ∧ a < r.base + r.len then Config.freeByte n a else Memory.read m a := by
  rw [Memory.read_writeBytes]
  simp only [List.length_map, Range.addresses_length]
  by_cases h : r.base ≤ a ∧ a < r.base + r.len
  · rw [if_pos h, if_pos h]
    have hlt : a - r.base < (r.addresses.map (fun x => Config.freeByte n x)).length := by simp; omega
    rw [List.getD_eq_getElem _ _ hlt]
    simp only [Range.addresses, List.map_map, List.getElem_map, List.getElem_range, Function.comp]
    congr 1
    omega
  · rw [if_neg h, if_neg h]

/-- Inside the ranges a draw makes every byte the free value of its address. -/
theorem read_drawBytes_of_mem {n : Nat} {rs : List Range} {m : Memory} {a : Nat}
    (h : ∃ r ∈ rs, r.base ≤ a ∧ a < r.base + r.len) : Memory.read (drawBytes n rs m) a = Config.freeByte n a := by
  induction rs generalizing m with
  | nil => simp at h
  | cons r rest ih =>
    show Memory.read (drawBytes n rest (Memory.writeBytes m r.base _)) a = _
    by_cases hrest : ∃ q ∈ rest, q.base ≤ a ∧ a < q.base + q.len
    · exact ih hrest
    · rw [read_drawBytes_of_not_mem (by
        intro q hq hc
        exact hrest ⟨q, hq, hc⟩), read_writeBytes_draw, if_pos]
      obtain ⟨q, hq, hc⟩ := h
      rcases List.mem_cons.mp hq with rfl | hq
      · exact hc
      · exact absurd ⟨q, hq, hc⟩ hrest

/-- A draw keeps the canonical form when its ranges end inside the address space. -/
theorem drawBytes_wf {n : Nat} {rs : List Range} {m : Memory} (hm : Memory.Wf m)
    (h : ∀ r ∈ rs, r.len = 0 ∨ r.base + r.len ≤ Config.addressSpace) : Memory.Wf (drawBytes n rs m) := by
  induction rs generalizing m with
  | nil => exact hm
  | cons r rest ih =>
    refine ih ?_ fun q hq => h q (by simp [hq])
    rcases h r (by simp) with h0 | h1
    · have : r.addresses = [] := by simp [Range.addresses, h0]
      simpa [this, Memory.writeBytes] using hm
    · exact Memory.writeBytes_wf hm (by simpa using h1)

/-! ### The meaning of a command -/

/-- While the engine is IDLE a command is accepted. -/
theorem exec_idle {i : Instr} {s : State} (h : s.eng = .idle) : exec i s = accept (encode i) s := by
  cases i <;> simp [exec, execConv15c, execConv15n, execConv32, execBlend, execMac, execCopy, runCommand, h]

/-- While it is BUSY the engine's step ends the command. -/
theorem exec_busy {i : Instr} {s : State} {run : Run} (h : s.eng = .busy run) :
    exec i s = .next (finish i (effectOf i) run s) := by
  cases i <;>
    simp [exec, execConv15c, execConv15n, execConv32, execBlend, execMac, execCopy, runCommand, h, finish, effectOf]

/-- A BUSY command that nothing disturbs completes. -/
theorem finish_undisturbed {i : Instr} {eff : OpRecord → Memory → Effect} {run : Run} {s : State}
    (hb : accessFails s.platform (accessRanges i run.op) = false) (hr : run.raced = false) :
    finish i eff run s = complete run (eff run.op run.m0) s := by
  simp [finish, hb, hr]

/-- The three ways a BUSY command ends. -/
theorem finish_cases (i : Instr) (eff : OpRecord → Memory → Effect) (run : Run) (s : State) :
    (finish i eff run s = endWithBusError (writeRanges i run.op) run s ∧
      accessFails s.platform (accessRanges i run.op) = true) ∨
    (finish i eff run s = completeRaced (writeRanges i run.op) (mayOverflow i run.op) run s ∧ run.raced = true) ∨
    (finish i eff run s = complete run (eff run.op run.m0) s ∧ run.raced = false) := by
  unfold finish
  split
  · exact .inl ⟨rfl, by assumption⟩
  · split
    · exact .inr (.inl ⟨rfl, by assumption⟩)
    · exact .inr (.inr ⟨rfl, by simp_all⟩)

/-- The three ways an acceptance ends. -/
theorem accept_cases (w : Word) (s : State) :
    (∃ e, validate w (latch w s) = some e ∧
      accept w s = .next (endWithError e { s with cmd := w, status := s.status.onAccept })) ∨
    (validate w (latch w s) = none ∧ ∃ r, operandRefusal s.platform (latch w s).ranges = some r ∧
      accept w s = .refused r) ∨
    (validate w (latch w s) = none ∧ operandRefusal s.platform (latch w s).ranges = none ∧
      accept w s = .next (startRun (latch w s) { s with cmd := w, status := s.status.onAccept })) := by
  unfold accept
  cases hv : validate w (latch w s) with
  | some e => exact .inl ⟨e, rfl, by simp [hv]⟩
  | none =>
    cases hr : operandRefusal s.platform (latch w s).ranges with
    | some r => exact .inr (.inl ⟨rfl, r, rfl, by simp [hv, hr]⟩)
    | none => exact .inr (.inr ⟨rfl, rfl, by simp [hv, hr]⟩)

/-- Every write of a command lies in its write ranges. -/
theorem effectOf_writes {i : Instr} {op : OpRecord} {m0 : Memory} {w : Nat × List Byte}
    (hw : w ∈ (effectOf i op m0).writes) : ∃ r ∈ writeRanges i op, w.1 = r.base ∧ w.2.length = r.len := by
  have pixels : ∀ (n : Nat) (f : Nat → Half), ((List.range n).flatMap (fun k => bytes16 (f k))).length = 2 * n := by
    intro n f
    simp [List.length_flatMap, Nat.mul_comm]
  cases i with
  | conv15c =>
    simp only [effectOf, conv15cEffect, pixelEffect, List.mem_singleton] at hw
    subst hw
    exact ⟨rangeD .conv15c op, by simp [writeRanges], rfl, pixels _ _⟩
  | conv15n =>
    simp only [effectOf, conv15nEffect, pixelEffect, List.mem_singleton] at hw
    subst hw
    exact ⟨rangeD .conv15n op, by simp [writeRanges], rfl, pixels _ _⟩
  | conv32 =>
    simp only [effectOf, conv32Effect, pixelEffect, List.mem_singleton] at hw
    subst hw
    exact ⟨rangeD .conv32 op, by simp [writeRanges], rfl, pixels _ _⟩
  | blend f =>
    simp only [effectOf, blendEffect, pixelEffect, List.mem_singleton] at hw
    subst hw
    exact ⟨rangeD (.blend f) op, by simp [writeRanges], rfl, pixels _ _⟩
  | mac =>
    simp only [effectOf, macEffect] at hw
    split at hw
    · simp at hw
    · simp only [List.mem_cons, List.not_mem_nil, or_false] at hw
      rcases hw with rfl | rfl
      · exact ⟨laneL op, by simp [writeRanges], rfl, rfl⟩
      · exact ⟨laneR op, by simp [writeRanges], rfl, rfl⟩
  | copy =>
    simp only [effectOf, copyEffect, List.mem_singleton] at hw
    subst hw
    exact ⟨rangeD .copy op, by simp [writeRanges], rfl, by simp [rangeD, destBytes]⟩

/-- Outside its write ranges a BUSY command leaves memory as it was, however it ends. -/
theorem read_finish_of_not_mem {i : Instr} {run : Run} {s : State} {a : Nat}
    (h : ∀ r ∈ writeRanges i run.op, ¬(r.base ≤ a ∧ a < r.base + r.len)) :
    Memory.read (finish i (effectOf i) run s).mem a = Memory.read s.mem a := by
  rcases finish_cases i (effectOf i) run s with ⟨he, -⟩ | ⟨he, -⟩ | ⟨he, -⟩
  · rw [he]; exact read_drawBytes_of_not_mem h
  · rw [he]; exact read_drawBytes_of_not_mem h
  · rw [he]
    refine Memory.read_writeAll_of_not_mem fun w hw => ?_
    obtain ⟨r, hr, h1, h2⟩ := effectOf_writes hw
    rw [h1, h2]
    exact h r hr

/-- The bytes of a stored pixel sequence. -/
theorem getD_flatMap_bytes16 (f : Nat → Half) (n k j : Nat) (hk : k < n) (hj : j < 2) :
    ((List.range n).flatMap (fun i => bytes16 (f i))).getD (2 * k + j) unlistedByte =
      (bytes16 (f k)).getD j unlistedByte := by
  induction n with
  | zero => omega
  | succ n ih =>
    rw [List.range_succ, List.flatMap_append]
    have hlen : ((List.range n).flatMap (fun i => bytes16 (f i))).length = 2 * n := by
      simp [List.length_flatMap, Nat.mul_comm]
    by_cases hkn : k < n
    · rw [List.getD_append _ _ _ _ (by omega)]
      exact ih hkn
    · have : k = n := by omega
      subst this
      rw [List.getD_append_right _ _ _ _ (by omega), hlen]
      simp

/-- Pixel `k` of a stored pixel sequence reads back. -/
theorem elem16_writeBytes_pixels (m : Memory) (d n k : Nat) (f : Nat → Half) (hk : k < n) :
    elem16 (Memory.writeBytes m d ((List.range n).flatMap (fun i => bytes16 (f i)))) d k = f k := by
  have hlen : ((List.range n).flatMap (fun i => bytes16 (f i))).length = 2 * n := by
    simp [List.length_flatMap, Nat.mul_comm]
  have hread : ∀ j, j < 2 →
      Memory.read (Memory.writeBytes m d ((List.range n).flatMap (fun i => bytes16 (f i)))) (d + 2 * k + j) =
        (bytes16 (f k)).getD j unlistedByte := by
    intro j hj
    rw [Memory.read_writeBytes, if_pos (by rw [hlen]; omega)]
    rw [show d + 2 * k + j - d = 2 * k + j by omega]
    exact getD_flatMap_bytes16 f n k j hk hj
  exact Memory.read16_eq (by simpa [bytes16] using hread 0 (by omega)) (by simpa [bytes16] using hread 1 (by omega))

/-! ### Latched records -/

theorem instr?_eq_some {op : OpRecord} {i : Instr} : op.instr? = some i ↔ decode op.word = .command i := by
  unfold OpRecord.instr?
  cases decode op.word <;> simp

/-- The record latched from a word that decodes stands for that word. -/
theorem latch_word {w : Word} {s : State} (h : decode w ≠ .illegal) : (latch w s).word = w :=
  packWord_of_decode h

/-- Validation succeeds only on a command whose operand checks pass. -/
theorem validate_eq_none {w : Word} {op : OpRecord} (h : validate w op = none) :
    ∃ i, decode w = .command i ∧ validateOperands i op = none := by
  unfold validate at h
  cases hd : decode w with
  | command i => exact ⟨i, rfl, by simpa [hd] using h⟩
  | illegal => simp [hd] at h
  | factor => simp [hd] at h

/-- What passing validation says of the operands. -/
theorem validateOperands_eq_none {i : Instr} {op : OpRecord} (h : validateOperands i op = none) :
    alignedOk i op = true ∧ rangesOk i op = true ∧ overlapOk i op = true := by
  unfold validateOperands at h
  split at h
  · simp at h
  · split at h
    · simp at h
    · split at h
      · simp at h
      · simp_all

/-- A validated command's write and read ranges end inside the address space. -/
theorem ranges_bounded {i : Instr} {op : OpRecord} (h : rangesOk i op = true) :
    (∀ r ∈ writeRanges i op, r.len = 0 ∨ r.base + r.len ≤ Config.addressSpace) ∧
    (∀ r ∈ readRanges i op, r.len = 0 ∨ r.base + r.len ≤ Config.addressSpace) := by
  simp only [rangesOk, List.all_eq_true, Bool.or_eq_true, decide_eq_true_eq] at h
  cases i with
  | mac =>
    have hl := h (rangeAL op) (by simp [operandRanges])
    have hr := h (rangeAR op) (by simp [operandRanges])
    have hs := h (rangeS .mac op) (by simp [operandRanges])
    have hk := h (rangeK op) (by simp [operandRanges])
    simp only [rangeAL, rangeAR, Config.accBytes] at hl hr
    constructor
    · intro r hm
      simp only [writeRanges, List.mem_cons, List.not_mem_nil, or_false] at hm
      rcases hm with rfl | rfl <;> simp only [laneL, laneR] <;> omega
    · intro r hm
      simp only [readRanges, List.mem_cons, List.not_mem_nil, or_false] at hm
      rcases hm with rfl | rfl | rfl | rfl
      · exact hs
      · exact hk
      · simp only [laneL]; omega
      · simp only [laneR]; omega
  | _ =>
    refine ⟨fun r hm => h r ?_, fun r hm => h r ?_⟩ <;>
      simp only [writeRanges, readRanges, operandRanges, List.mem_cons, List.not_mem_nil, or_false] at hm ⊢ <;> tauto

/-- A validated command completes into a canonical memory. -/
theorem complete_wf {i : Instr} {op : OpRecord} {m m0 : Memory} (hm : Memory.Wf m) (h : rangesOk i op = true) :
    Memory.Wf (Memory.writeAll m (effectOf i op m0).writes) := by
  have hb := (ranges_bounded h).1
  have key : ∀ w ∈ (effectOf i op m0).writes, w.2 = [] ∨ w.1 + w.2.length ≤ Config.addressSpace := by
    intro w hw
    obtain ⟨r, hr, h1, h2⟩ := effectOf_writes hw
    rcases hb r hr with h0 | h3
    · exact .inl (List.length_eq_zero_iff.mp (by omega))
    · exact .inr (by omega)
  generalize (effectOf i op m0).writes = ws at key
  induction ws generalizing m with
  | nil => exact hm
  | cons w ws ih =>
    refine ih ?_ fun v hv => key v (by simp [hv])
    rcases key w (by simp) with h0 | h1
    · show Memory.Wf (Memory.writeBytes m w.1 w.2)
      rw [h0]; exact hm
    · exact Memory.writeBytes_wf hm h1

end Sys2Proof.Machine
end

