-- ==== Sys2Proof/Laws/Mac.lean ====
section
/-! SUPPORT. The wrap of 43_audio_mac.md R191, and what MAC stores. -/

namespace Sys2Proof.Machine

theorem wrapS32_eq_bmod (v : Int) : wrapS32 v = Int.bmod v (2 ^ 32) := by simp [wrapS32, BitVec.toInt_ofInt]

/-- Wrapping twice is wrapping once. -/
theorem wrapS32_add (a b : Int) : wrapS32 (wrapS32 a + b) = wrapS32 (a + b) := by simp [wrapS32_eq_bmod]

theorem wrapS32_range (v : Int) : -2 ^ 31 ≤ wrapS32 v ∧ wrapS32 v < 2 ^ 31 := by
  rw [wrapS32_eq_bmod]
  constructor
  · have := @Int.le_bmod v (2 ^ 32) (by norm_num)
    simpa using this
  · have := @Int.bmod_lt v (2 ^ 32) (by norm_num)
    simpa using this

theorem wrapS32_of_range {v : Int} (h1 : -2 ^ 31 ≤ v) (h2 : v < 2 ^ 31) : wrapS32 v = v := by
  rw [wrapS32_eq_bmod]
  apply Int.bmod_eq_of_le <;> norm_num at * <;> omega

@[simp] theorem ofInt_wrapS32 (v : Int) : BitVec.ofInt 32 (wrapS32 v) = BitVec.ofInt 32 v := BitVec.ofInt_toInt

theorem outsideS32_iff {v : Int} : outsideS32 v = true ↔ v < -2 ^ 31 ∨ 2 ^ 31 ≤ v := by simp [outsideS32]

/-- The lanes at the start are in range. -/
theorem macStart_range (op : OpRecord) (m : Memory) :
    (-2 ^ 31 ≤ (macStart op m).left ∧ (macStart op m).left < 2 ^ 31) ∧
    (-2 ^ 31 ≤ (macStart op m).right ∧ (macStart op m).right < 2 ^ 31) :=
  ⟨⟨BitVec.le_toInt _, BitVec.toInt_lt⟩, ⟨BitVec.le_toInt _, BitVec.toInt_lt⟩⟩

/-- The overflow of a MAC is that of its sums, also with no tap. -/
theorem macEffect_ovf (op : OpRecord) (m : Memory) : (macEffect op m).ovf = (macSums op m).ovf := by
  unfold macEffect
  split
  · rename_i h
    simp [macSums, h, macStart]
  · rfl

/-- The accumulator arrays of a validated MAC lie apart. -/
theorem accumulators_disjoint {op : OpRecord} (h : validateOperands .mac op = none) :
    op.dst0.toNat + 16 ≤ op.dst1.toNat ∨ op.dst1.toNat + 16 ≤ op.dst0.toNat := by
  have h1 := (validateOperands_eq_none h).2.2
  have h2 : ¬overlapOk .mac op = false := by simp [h1]
  rw [overlapOk_mac_eq_false] at h2
  simp only [Range.intersects_iff, rangeAL_base, rangeAL_len, rangeAR_base, rangeAR_len] at h2
  omega

/-- Outside lane 0 of both arrays a MAC leaves memory as it was. -/
theorem read_macEffect_of_not_mem {op : OpRecord} {m m0 : Memory} {a : Nat}
    (h1 : ¬(op.dst0.toNat ≤ a ∧ a < op.dst0.toNat + 4)) (h2 : ¬(op.dst1.toNat ≤ a ∧ a < op.dst1.toNat + 4)) :
    Memory.read (Memory.writeAll m (macEffect op m0).writes) a = Memory.read m a := by
  apply Memory.read_writeAll_of_not_mem
  intro w hw
  obtain ⟨r, hr, e1, e2⟩ := effectOf_writes (i := .mac) hw
  simp only [writeRanges, List.mem_cons, List.not_mem_nil, or_false] at hr
  rw [e1, e2]
  rcases hr with rfl | rfl
  · exact h1
  · exact h2

end Sys2Proof.Machine
end

