-- ==== Sys2Proof/Laws/PerInstr.lean ====
section
/-! SUPPORT. One lemma per command, for the statements over all commands. -/

namespace Sys2Proof.Laws

/-- The fields of a command's word: zero reserved fields, its OP, and its FACTOR (30_encoding.md R90). -/
def EncodedFields.Statement (i : Instr) : Prop :=
  rsv0Field (encode i) = 0 ∧ rsv1Field (encode i) = 0 ∧ opField (encode i) = opcode i ∧
    factorField (encode i) = factorOf i ∧ (i.wellFormed = true → (factorOf i).toNat ≤ Config.factorMax)

theorem EncodedFields.conv15c : EncodedFields.Statement .conv15c := by
  simp [EncodedFields.Statement, encode, factorOf]

theorem EncodedFields.conv15n : EncodedFields.Statement .conv15n := by
  simp [EncodedFields.Statement, encode, factorOf]

theorem EncodedFields.conv32 : EncodedFields.Statement .conv32 := by
  simp [EncodedFields.Statement, encode, factorOf]

theorem EncodedFields.blend (factor : BitVec 9) : EncodedFields.Statement (.blend factor) := by
  simp [EncodedFields.Statement, encode, factorOf, Instr.wellFormed]

theorem EncodedFields.mac : EncodedFields.Statement .mac := by
  simp [EncodedFields.Statement, encode, factorOf]

theorem EncodedFields.copy : EncodedFields.Statement .copy := by
  simp [EncodedFields.Statement, encode, factorOf]

end Sys2Proof.Laws
end

