-- ==== Sys2Proof/Laws/Pixels.lean ====
section
/-! SUPPORT. The channels of a pixel as quotients and remainders, and a packed pixel as a sum. -/

namespace Sys2Proof.Machine

theorem red15_eq (p : Half) : red15 p = p.toNat % 32 := by simp [red15]

theorem green15_eq (p : Half) : green15 p = p.toNat / 32 % 32 := by simp [green15, Nat.shiftRight_eq_div_pow]

theorem blue15_eq (p : Half) : blue15 p = p.toNat / 1024 % 32 := by simp [blue15, Nat.shiftRight_eq_div_pow]

theorem red565_eq (q : Half) : red565 q = q.toNat / 2048 := by
  simp [red565, Nat.shiftRight_eq_div_pow]
  omega

theorem green565_eq (q : Half) : green565 q = q.toNat / 32 % 64 := by simp [green565, Nat.shiftRight_eq_div_pow]

theorem blue565_eq (q : Half) : blue565 q = q.toNat % 32 := by simp [blue565]

theorem red32_eq (w : Word) : red32 w = w.toNat / 65536 % 256 := by simp [red32, Nat.shiftRight_eq_div_pow]

theorem green32_eq (w : Word) : green32 w = w.toNat / 256 % 256 := by simp [green32, Nat.shiftRight_eq_div_pow]

theorem blue32_eq (w : Word) : blue32 w = w.toNat % 256 := by simp [blue32]

/-- A packed pixel whose channels fit is their weighted sum. -/
theorem pack565_toNat {r g b : Nat} (hr : r < 32) (hg : g < 64) (hb : b < 32) :
    (pack565 r g b).toNat = r * 2048 + g * 32 + b := by
  have h : r <<< 11 ||| g <<< 5 ||| b = r * 2048 + g * 32 + b := by
    have e : g <<< 5 ||| b = g * 32 + b := by rw [← Nat.shiftLeft_add_eq_or_of_lt (by omega), Nat.shiftLeft_eq]
    rw [Nat.or_assoc, e, ← Nat.shiftLeft_add_eq_or_of_lt (by omega), Nat.shiftLeft_eq]
    omega
  rw [pack565, h, BitVec.toNat_ofNat]
  omega

/-- The fields of a weighted sum of channels. -/
theorem fields_of_pack {x r g b : Nat} (h : x = r * 2048 + g * 32 + b) (hg : g < 64) (hb : b < 32) :
    x / 2048 = r ∧ x / 32 % 64 = g ∧ x % 32 = b ∧ x / 1024 % 2 = g / 32 ∧ x / 32 % 2 = g % 2 ∧ x / 64 % 32 = g / 2 := by
  omega

/-- A bit of a 16-bit value, by division. -/
theorem getLsbD_eq_div (v : Half) (k : Nat) : v.getLsbD k = decide (v.toNat / 2 ^ k % 2 = 1) := by
  rw [← BitVec.testBit_toNat, Nat.testBit_eq_decide_div_mod_eq]

/-- A clamp from 0 that does not bind. -/
theorem clamp_of_le {v hi : Nat} (h : v ≤ hi) : clamp v 0 hi = v := by
  simp [clamp]
  exact h

end Sys2Proof.Machine
end

