-- ==== Sys2Proof/Laws/Step.lean ====
section
/-! SUPPORT. One step and its moves, each said once. -/

namespace Sys2Proof.Machine

/-- A step makes the next move on the state without it. -/
theorem step_eq (s : State) : step s = doMove s.nextMove s.popMove := by
  unfold step State.nextMove State.popMove
  cases h : s.pending with
  | nil =>
    have : { s with pending := ([] : List Move).tail } = s := by cases s; simp_all
    simp only [doMove, this]
  | cons m rest => rfl

@[simp] theorem popMove_status (s : State) : s.popMove.status = s.status := rfl
@[simp] theorem popMove_eng (s : State) : s.popMove.eng = s.eng := rfl
@[simp] theorem popMove_mem (s : State) : s.popMove.mem = s.mem := rfl
@[simp] theorem popMove_cmd (s : State) : s.popMove.cmd = s.cmd := rfl
@[simp] theorem popMove_platform (s : State) : s.popMove.platform = s.platform := rfl
@[simp] theorem popMove_unread (s : State) : s.popMove.unread = s.unread := rfl
@[simp] theorem popMove_owner (s : State) : s.popMove.owner = s.owner := rfl
@[simp] theorem popMove_draws (s : State) : s.popMove.draws = s.draws := rfl
@[simp] theorem popMove_pending (s : State) : s.popMove.pending = s.pending.tail := rfl
@[simp] theorem latch_popMove (w : Word) (s : State) : latch w s.popMove = latch w s := rfl

@[simp] theorem regAt_regOffset (r : Reg) : regAt (regOffset r) = some r := by cases r <;> decide

@[simp] theorem regAccessOk_regOffset (r : Reg) : regAccessOk (regOffset r) .word = true := by cases r <;> decide

theorem regAt_reserved : ∀ off : BitVec 8, 0x1C ≤ off.toNat → regAt off = none := by decide

/-- A core that may program the block enters the critical section. -/
theorem claim_mayProgram {core : Nat} {c : Bool} {s : State} (h : s.mayProgram core) :
    claim core c s = some { s with owner := s.claimed core c } := by
  unfold claim State.claimed
  cases ho : s.owner with
  | none => simp
  | some o =>
    have hc := h o ho
    obtain ⟨oc, os⟩ := o
    simp only at hc
    subst hc
    cases os <;> cases c <;> simp

/-- Entering the critical section changes nothing but its owner. -/
theorem claim_eq_some {core : Nat} {c : Bool} {s s1 : State} (h : claim core c s = some s1) :
    ∃ o, s1 = { s with owner := o } := by
  unfold claim at h
  split at h
  · simp only [Option.some.injEq] at h; exact ⟨_, h.symm⟩
  · split at h
    · simp only [Option.some.injEq] at h; exact ⟨_, h.symm⟩
    · simp at h

/-- The engine's move on a running command: a reported bus error, or the command's meaning. -/
theorem engineMove_busy {answer : BusAnswer} {s : State} {run : Run} {i : Instr} (he : s.eng = .busy run)
    (hi : run.op.instr? = some i) :
    (answeredWithError answer s.platform i run.op = true →
      engineMove answer s = .next (endWithBusError (writeRanges i run.op) run s)) ∧
    (answeredWithError answer s.platform i run.op = false →
      engineMove answer s = .next (finish i (effectOf i) run s)) := by
  unfold engineMove
  constructor
  · intro ha; simp [he, hi, ha]
  · intro ha; simp [he, hi, ha, exec_busy he]

/-- Three ways an engine move that goes on ends: nothing to do, a reported bus error, the command's meaning. -/
theorem engineMove_cases {answer : BusAnswer} {s t : State} (h : engineMove answer s = .next t) :
    (s.eng = .idle ∧ t = s) ∨
    (∃ run i, s.eng = .busy run ∧ run.op.instr? = some i ∧
      ((t = endWithBusError (writeRanges i run.op) run s ∧ answeredWithError answer s.platform i run.op = true) ∨
        (t = finish i (effectOf i) run s ∧ answeredWithError answer s.platform i run.op = false))) := by
  unfold engineMove at h
  cases he : s.eng with
  | idle => simp [he] at h; exact .inl ⟨rfl, h.symm⟩
  | busy run =>
    cases hi : run.op.instr? with
    | none => simp [he, hi] at h
    | some i =>
      refine .inr ⟨run, i, rfl, hi, ?_⟩
      by_cases ha : answeredWithError answer s.platform i run.op = true
      · simp [he, hi, ha] at h
        exact .inl ⟨h.symm, ha⟩
      · simp only [he, hi, ha, exec_busy he, Bool.false_eq_true, if_false] at h
        simp at h
        exact .inr ⟨h.symm, by simpa using ha⟩

/-- The block's registers and engine, but for the race mark of a running command. -/
structure SameBlock (s t : State) : Prop where
  cmd : t.cmd = s.cmd
  status : t.status = s.status
  src0 : t.src0 = s.src0
  src1 : t.src1 = s.src1
  dst0 : t.dst0 = s.dst0
  dst1 : t.dst1 = s.dst1
  count : t.count = s.count
  platform : t.platform = s.platform
  idle : s.eng = .idle → t.eng = .idle
  busy : ∀ run, s.eng = .busy run → ∃ run', t.eng = .busy run' ∧ run'.op = run.op ∧ run'.m0 = run.m0

theorem SameBlock.of_eq {s t : State} (h : t.eng = s.eng) (h1 : t.cmd = s.cmd) (h2 : t.status = s.status)
    (h3 : t.src0 = s.src0) (h4 : t.src1 = s.src1) (h5 : t.dst0 = s.dst0) (h6 : t.dst1 = s.dst1)
    (h7 : t.count = s.count) (h8 : t.platform = s.platform) : SameBlock s t :=
  ⟨h1, h2, h3, h4, h5, h6, h7, h8, fun hi => h.trans hi, fun run hb => ⟨run, h.trans hb, rfl, rfl⟩⟩

/-- Marking races touches no register. -/
theorem markRaces_sameBlock (r : Range) (s : State) : SameBlock s (markRaces r s) := by
  unfold markRaces
  constructor
  case idle => intro h; dsimp only; split <;> simp [h]
  case busy =>
    intro run h
    dsimp only
    split
    · simp only [h]; exact ⟨_, rfl, rfl, rfl⟩
    · simp only [h]; exact ⟨_, rfl, rfl, rfl⟩
  all_goals (dsimp only; split <;> rfl)

theorem storeData_sameBlock (addr : Word) (size : Size) (v : Word) (visible : Bool) (s : State) :
    SameBlock s (storeData addr size v visible s) := by
  have h := markRaces_sameBlock { base := addr.toNat, len := size.bytes }
    { s with
      mem := Memory.writeBytes s.mem addr.toNat ((bytes32 v).take size.bytes)
      unpublished :=
        if visible then s.unpublished.filter (fun a => !({ base := addr.toNat, len := size.bytes } : Range).holds a)
        else ({ base := addr.toNat, len := size.bytes } : Range).addresses ++
          s.unpublished.filter (fun a => !({ base := addr.toNat, len := size.bytes } : Range).holds a) }
  exact ⟨h.cmd, h.status, h.src0, h.src1, h.dst0, h.dst1, h.count, h.platform, h.idle, h.busy⟩

theorem seeEnd_sameBlock (core : Nat) (s : State) : SameBlock s (seeEnd core s) := by
  unfold seeEnd
  split <;> exact SameBlock.of_eq rfl rfl rfl rfl rfl rfl rfl rfl rfl

/-- A register read touches no register. -/
theorem hostRegRead_sameBlock {core : Nat} {off : BitVec 8} {size : Size} {s t : State}
    (h : hostRegRead core off size s = .next t) : SameBlock s t := by
  unfold hostRegRead at h
  split at h
  · simp at h
  · split at h <;> simp only [Host.Outcome.next.injEq] at h <;> subst h
    · exact SameBlock.of_eq rfl rfl rfl rfl rfl rfl rfl rfl rfl
    · have h := seeEnd_sameBlock core { s with rdata := readReg .status s }
      exact ⟨h.cmd, h.status, h.src0, h.src1, h.dst0, h.dst1, h.count, h.platform, h.idle, h.busy⟩
    · exact SameBlock.of_eq rfl rfl rfl rfl rfl rfl rfl rfl rfl

/-- While the engine is IDLE, a write to CMD is the acceptance of the word. -/
theorem writeCmd_idle {w : Word} {s : State} (h : s.eng = .idle) : writeCmd w s = accept w s := by
  unfold writeCmd
  cases hd : decode w with
  | illegal => rfl
  | factor => rfl
  | command i =>
    show exec i s = accept w s
    rw [exec_idle h, encode_of_decode hd]

/-- What a host write to a register of the window can do when it goes on. -/
theorem hostRegWrite_cases {core : Nat} {off : BitVec 8} {size : Size} {v : Word} {s t : State}
    (h : hostRegWrite core off size v s = .next t) :
    (accessedReg off size = none ∧ t = s) ∨
    (accessedReg off size = some .status ∧ t = writeStatus v s) ∨
    (∃ reg o, accessedReg off size = some reg ∧ reg ≠ .status ∧
      ((s.status.busy = true ∧ t = { s with owner := o, status := s.status.setWerr }) ∨
        (s.status.busy = false ∧ reg = .cmd ∧ writeCmd v { s with owner := o } = .next t) ∨
        (s.status.busy = false ∧ reg ≠ .cmd ∧ t = writeOperand reg v { s with owner := o }))) := by
  unfold hostRegWrite at h
  unfold accessedReg
  cases ha : regAccessOk off size with
  | false => simp [ha] at h
  | true =>
    simp only [ha, Bool.true_eq_false, if_false, if_true] at h ⊢
    cases hr : regAt off with
    | none => simp only [hr, Host.Outcome.next.injEq] at h; exact .inl ⟨rfl, h.symm⟩
    | some reg =>
      by_cases hs : reg = .status
      · subst hs
        simp only [hr, Host.Outcome.next.injEq] at h
        exact .inr (.inl ⟨rfl, h.symm⟩)
      · refine .inr (.inr ⟨reg, ?_⟩)
        have hp : programReg core reg v s = .next t := by
          cases reg <;> simp only [hr] at h <;> first | exact h | exact absurd rfl hs
        unfold programReg at hp
        cases hc : claim core (decide (reg = .cmd)) s with
        | none => simp [hc] at hp
        | some s1 =>
          obtain ⟨o, rfl⟩ := claim_eq_some hc
          refine ⟨o, rfl, hs, ?_⟩
          simp only [hc] at hp
          cases hb : s.status.busy with
          | true => simp [hb] at hp; exact .inl ⟨rfl, hp.symm⟩
          | false =>
            by_cases hcmd : reg = .cmd
            · simp [hb, hcmd] at hp; exact .inr (.inl ⟨rfl, hcmd, hp⟩)
            · simp [hb, hcmd] at hp; exact .inr (.inr ⟨rfl, hcmd, hp.symm⟩)

/-- What a host move can do to the block when it goes on: nothing, or one register write. -/
theorem hostMove_cases {core : Nat} {op : HostOp} {s t : State} (h : hostMove core op s = .next t) :
    ((Move.host core op).registerWrite s.platform = none ∧ SameBlock s t) ∨
    (∃ v, (Move.host core op).registerWrite s.platform = some (.status, v) ∧ t = writeStatus v s) ∨
    (∃ reg v o, (Move.host core op).registerWrite s.platform = some (reg, v) ∧ reg ≠ .status ∧
      ((s.status.busy = true ∧ t = { s with owner := o, status := s.status.setWerr }) ∨
        (s.status.busy = false ∧ reg = .cmd ∧ writeCmd v { s with owner := o } = .next t) ∨
        (s.status.busy = false ∧ reg ≠ .cmd ∧ t = writeOperand reg v { s with owner := o }))) := by
  have refl : SameBlock s s := SameBlock.of_eq rfl rfl rfl rfl rfl rfl rfl rfl rfl
  have write : ∀ (off : BitVec 8) (size : Size) (v : Word) (r : Option (Reg × Word)),
      r = (accessedReg off size).map (fun reg => (reg, v)) → hostRegWrite core off size v s = .next t →
      (r = none ∧ SameBlock s t) ∨ (∃ v, r = some (.status, v) ∧ t = writeStatus v s) ∨
      (∃ reg v o, r = some (reg, v) ∧ reg ≠ .status ∧
        ((s.status.busy = true ∧ t = { s with owner := o, status := s.status.setWerr }) ∨
          (s.status.busy = false ∧ reg = .cmd ∧ writeCmd v { s with owner := o } = .next t) ∨
          (s.status.busy = false ∧ reg ≠ .cmd ∧ t = writeOperand reg v { s with owner := o }))) := by
    intro off size v r hr hw
    subst hr
    rcases hostRegWrite_cases hw with ⟨ha, rfl⟩ | ⟨ha, ht⟩ | ⟨reg, o, ha, hs, hc⟩
    · exact .inl ⟨by simp [ha], refl⟩
    · exact .inr (.inl ⟨v, by simp [ha], ht⟩)
    · exact .inr (.inr ⟨reg, v, o, by simp [ha], hs, hc⟩)
  cases op with
  | regWrite off size v => exact write off size v _ rfl h
  | regRead off size => exact .inl ⟨rfl, hostRegRead_sameBlock h⟩
  | publish =>
    simp only [hostMove, Host.Outcome.next.injEq] at h
    subst h
    exact .inl ⟨rfl, SameBlock.of_eq rfl rfl rfl rfl rfl rfl rfl rfl rfl⟩
  | load addr size =>
    refine .inl ⟨rfl, ?_⟩
    simp only [hostMove, hostLoad] at h
    split at h
    · simp at h
    · split at h
      · exact hostRegRead_sameBlock h
      · split at h
        · simp at h
        · simp only [Host.Outcome.next.injEq] at h
          subst h
          exact SameBlock.of_eq rfl rfl rfl rfl rfl rfl rfl rfl rfl
  | store addr size v visible =>
    simp only [hostMove, hostStore] at h
    split at h
    · simp at h
    · rename_i hspace
      split at h
      · rename_i hwin
        refine write _ size v _ ?_ h
        simp only [Move.registerWrite]
        rw [if_pos]
        simp only [hwin, Bool.and_true, decide_eq_true_eq]
        omega
      · rename_i hwin
        split at h
        · simp at h
        · simp only [Host.Outcome.next.injEq] at h
          subst h
          refine .inl ⟨?_, storeData_sameBlock addr size v visible s⟩
          simp only [Move.registerWrite]
          rw [if_neg]
          simp [hwin]

/-- What every end of a command leaves as it was, in the block's registers. -/
theorem finish_frame (i : Instr) (run : Run) (s : State) :
    (finish i (effectOf i) run s).cmd = s.cmd ∧ (finish i (effectOf i) run s).src0 = s.src0 ∧
    (finish i (effectOf i) run s).src1 = s.src1 ∧ (finish i (effectOf i) run s).dst0 = s.dst0 ∧
    (finish i (effectOf i) run s).dst1 = s.dst1 ∧ (finish i (effectOf i) run s).count = s.count ∧
    (finish i (effectOf i) run s).status.werr = s.status.werr ∧ (finish i (effectOf i) run s).eng = .idle ∧
    (finish i (effectOf i) run s).status.busy = false ∧ (finish i (effectOf i) run s).status.done = true ∧
    (finish i (effectOf i) run s).unread = run :: s.unread ∧
    (finish i (effectOf i) run s).pending = s.pending := by
  rcases finish_cases i (effectOf i) run s with ⟨h, -⟩ | ⟨h, -⟩ | ⟨h, -⟩ <;> rw [h] <;> simp

/-! ### The engine and STATUS agree -/

theorem eng_of_not_busy {s : State} (h : Invariant s) (hb : s.status.busy = false) : s.eng = .idle := by
  have := h.engine
  unfold EngineGood at this
  cases he : s.eng with
  | idle => rfl
  | busy run => simp only [he] at this; rw [hb] at this; simp at this

theorem busy_of_eng {s : State} {run : Run} (h : Invariant s) (he : s.eng = .busy run) : s.status.busy = true := by
  have := h.engine
  unfold EngineGood at this
  simp only [he] at this
  exact this.1

theorem not_busy_of_eng {s : State} (h : Invariant s) (he : s.eng = .idle) : s.status.busy = false := by
  have := h.engine
  unfold EngineGood at this
  simpa only [he] using this

theorem run_good {s : State} {run : Run} (h : Invariant s) (he : s.eng = .busy run) : run.Good := by
  have := h.engine
  simp only [EngineGood, he] at this
  exact this.2.1

/-! ### Acceptance, steps and runs -/

/-- The two ways an acceptance goes on. -/
theorem accept_next {w : Word} {s t : State} (h : accept w s = .next t) :
    (∃ e, validate w (latch w s) = some e ∧ t = endWithError e { s with cmd := w, status := s.status.onAccept }) ∨
    (validate w (latch w s) = none ∧ t = startRun (latch w s) { s with cmd := w, status := s.status.onAccept }) := by
  rcases accept_cases w s with ⟨e, hv, ha⟩ | ⟨-, r, -, ha⟩ | ⟨hv, -, ha⟩
  · rw [ha] at h; injection h with h; exact .inl ⟨e, hv, h.symm⟩
  · rw [ha] at h; simp at h
  · rw [ha] at h; injection h with h; exact .inr ⟨hv, h.symm⟩

theorem step_of_pending {s : State} {m : Move} {rest : List Move} (h : s.pending = m :: rest) :
    step s = doMove m { s with pending := rest } := by
  simp only [step, h]

theorem run_next {k : Nat} {s t : State} (h : step s = .next t) :
    Sys2Proof.core.run (k + 1) s = Sys2Proof.core.run k t := by
  simp [Host.Core.run, Sys2Proof.core, h]

theorem run_fault {k : Nat} {s : State} {r : Fault} (h : step s = .fault r) :
    Sys2Proof.core.run (k + 1) s = .fault r := by
  simp [Host.Core.run, Sys2Proof.core, h]

theorem run_refused {k : Nat} {s : State} {r : Refusal} (h : step s = .refused r) :
    Sys2Proof.core.run (k + 1) s = .refused r := by
  simp [Host.Core.run, Sys2Proof.core, h]

/-- What a host move can do to the block in a good state: nothing, or one register write, which for CMD while
BUSY = 0 is an acceptance. -/
theorem hostMove_cases_good {core : Nat} {op : HostOp} {s t : State} (hi : Invariant s)
    (h : hostMove core op s.popMove = .next t) :
    ((Move.host core op).registerWrite s.platform = none ∧ SameBlock s t) ∨
    (∃ v, (Move.host core op).registerWrite s.platform = some (.status, v) ∧ t = writeStatus v s.popMove) ∨
    (∃ reg v o, (Move.host core op).registerWrite s.platform = some (reg, v) ∧ reg ≠ .status ∧
      ((s.status.busy = true ∧ t = { s.popMove with owner := o, status := s.status.setWerr }) ∨
        (s.status.busy = false ∧ reg = .cmd ∧ accept v { s.popMove with owner := o } = .next t) ∨
        (s.status.busy = false ∧ reg ≠ .cmd ∧ t = writeOperand reg v { s.popMove with owner := o }))) := by
  rcases hostMove_cases (s := s.popMove) h with ⟨hr, hs⟩ | ⟨v, hr, rfl⟩ | ⟨reg, v, o, hr, hne, hc⟩
  · exact .inl ⟨hr, ⟨hs.cmd, hs.status, hs.src0, hs.src1, hs.dst0, hs.dst1, hs.count, hs.platform, hs.idle, hs.busy⟩⟩
  · exact .inr (.inl ⟨v, hr, rfl⟩)
  · refine .inr (.inr ⟨reg, v, o, hr, hne, ?_⟩)
    rcases hc with ⟨hb, rfl⟩ | ⟨hb, h1, hc⟩ | ⟨hb, h1, rfl⟩
    · exact .inl ⟨hb, rfl⟩
    · refine .inr (.inl ⟨hb, h1, ?_⟩)
      have he : s.eng = .idle := eng_of_not_busy hi hb
      exact (writeCmd_idle (w := v) (s := { s.popMove with owner := o }) he).symm.trans hc
    · exact .inr (.inr ⟨hb, h1, rfl⟩)

section
variable (reg : Reg) (v : Word) (s : State)

@[simp] theorem writeOperand_status : (writeOperand reg v s).status = s.status := by cases reg <;> rfl
@[simp] theorem writeOperand_cmd : (writeOperand reg v s).cmd = s.cmd := by cases reg <;> rfl
@[simp] theorem writeOperand_eng : (writeOperand reg v s).eng = s.eng := by cases reg <;> rfl
@[simp] theorem writeOperand_mem : (writeOperand reg v s).mem = s.mem := by cases reg <;> rfl
@[simp] theorem writeOperand_unread : (writeOperand reg v s).unread = s.unread := by cases reg <;> rfl
@[simp] theorem writeOperand_pending : (writeOperand reg v s).pending = s.pending := by cases reg <;> rfl
@[simp] theorem seeEnd_mem (core : Nat) : (seeEnd core s).mem = s.mem := by unfold seeEnd; split <;> rfl
@[simp] theorem seeEnd_pending (core : Nat) : (seeEnd core s).pending = s.pending := by unfold seeEnd; split <;> rfl
end

/-! ### Host accesses to data memory -/

theorem hostLoad_data {core : Nat} {addr : Word} {size : Size} {s : State}
    (h1 : addr.toNat + size.bytes ≤ Config.addressSpace) (h2 : (Platform.window s.platform).holds addr.toNat = false)
    (h3 : hostAccessRefusal s.platform ⟨addr.toNat, size.bytes⟩ = none) :
    hostLoad core addr size s = .next (loadData addr size s) := by
  unfold hostLoad
  rw [if_neg (by omega)]
  simp [h2, h3]

theorem hostStore_data {core : Nat} {addr : Word} {size : Size} {v : Word} {visible : Bool} {s : State}
    (h1 : addr.toNat + size.bytes ≤ Config.addressSpace) (h2 : (Platform.window s.platform).holds addr.toNat = false)
    (h3 : hostAccessRefusal s.platform ⟨addr.toNat, size.bytes⟩ = none) :
    hostStore core addr size v visible s = .next (storeData addr size v visible s) := by
  unfold hostStore
  rw [if_neg (by omega)]
  simp [h2, h3]

theorem hostByte_idle {s : State} {a : Nat} (h : s.eng = .idle) :
    hostByte s a = hostView s.draws a s.unread (Memory.read s.mem a) := by
  simp [hostByte, h]

theorem hostByte_busy {s : State} {a : Nat} {run : Run} (h : s.eng = .busy run) :
    hostByte s a = hostView s.draws a (run :: s.unread)
      (if s.platform.hasBusError && run.op.stores.any (fun r => r.holds a) then Config.freeByte s.draws a
        else Memory.read (finalImage run s.mem) a) := by
  simp [hostByte, h]

/-- Outside the destinations of the commands a host read shows the current value. -/
theorem hostView_of_not_mem {n a : Nat} {runs : List Run} {v : Byte}
    (h : ∀ q ∈ runs, ∀ r ∈ q.op.writes, ¬(r.base ≤ a ∧ a < r.base + r.len)) : hostView n a runs v = v := by
  induction runs generalizing n with
  | nil => rfl
  | cons q rest ih =>
    have hq : q.op.writes.find? (fun r => r.holds a) = none :=
      List.find?_eq_none.mpr fun r hr => by simpa [Range.holds] using h q (by simp) r hr
    simp only [hostView, hq]
    exact ih fun p hp => h p (by simp [hp])

/-- In the destination of the newest command a host read shows the current value or what it shows of `M0`. -/
theorem hostView_cons_of_mem {n a : Nat} {run : Run} {rest : List Run} {v : Byte} (hr : run.raced = false)
    (h : ∃ r ∈ run.op.writes, r.base ≤ a ∧ a < r.base + r.len) :
    ∃ r ∈ run.op.writes, (r.base ≤ a ∧ a < r.base + r.len) ∧
      hostView n a (run :: rest) v =
        if Config.freeBit n (run.op.elementAt r a) then v else hostView (n + 1) a rest (Memory.read run.m0 a) := by
  obtain ⟨r, hm, ha⟩ := h
  cases hf : run.op.writes.find? (fun r => r.holds a) with
  | none => exact absurd (Range.holds_iff.mpr ha) (by simpa using List.find?_eq_none.mp hf r hm)
  | some q =>
    exact ⟨q, List.mem_of_find?_eq_some hf, Range.holds_iff.mp (by simpa using List.find?_some hf), by
      simp [hostView, hf, hr]⟩

/-- In the destination of a raced command a host read shows any value. -/
theorem hostView_cons_of_raced {n a : Nat} {run : Run} {rest : List Run} {v : Byte} (hr : run.raced = true)
    (h : ∃ r ∈ run.op.writes, r.base ≤ a ∧ a < r.base + r.len) :
    hostView n a (run :: rest) v = Config.freeByte n a := by
  obtain ⟨r, hm, ha⟩ := h
  cases hf : run.op.writes.find? (fun r => r.holds a) with
  | none => exact absurd (Range.holds_iff.mpr ha) (by simpa using List.find?_eq_none.mp hf r hm)
  | some q => simp [hostView, hf, hr]

/-- Where no command was raced a host read shows the current value or an `M0` value of a command that writes the
byte. -/
theorem hostView_cases {n a : Nat} {runs : List Run} {v : Byte} (h : ∀ q ∈ runs, q.raced = false) :
    hostView n a runs v = v ∨
      ∃ q ∈ runs, (∃ r ∈ q.op.writes, r.base ≤ a ∧ a < r.base + r.len) ∧ hostView n a runs v = Memory.read q.m0 a := by
  induction runs generalizing n v with
  | nil => exact .inl rfl
  | cons run rest ih =>
    have ih' := fun {m w} => ih (n := m) (v := w) fun q hq => h q (by simp [hq])
    by_cases hm : ∃ r ∈ run.op.writes, r.base ≤ a ∧ a < r.base + r.len
    · obtain ⟨r, -, -, he⟩ := hostView_cons_of_mem (n := n) (rest := rest) (v := v) (h run (by simp)) hm
      rw [he]
      split
      · exact .inl rfl
      · rcases ih' (m := n + 1) (w := Memory.read run.m0 a) with h1 | ⟨q, hq, h1, h2⟩
        · exact .inr ⟨run, by simp, hm, h1⟩
        · exact .inr ⟨q, by simp [hq], h1, h2⟩
    · have hq : run.op.writes.find? (fun r => r.holds a) = none :=
        List.find?_eq_none.mpr fun r hr => by
          simp only [Range.holds_iff]
          exact fun hc => hm ⟨r, hr, hc⟩
      simp only [hostView, hq]
      rcases ih' (m := n + 1) (w := v) with h1 | ⟨q, hq, h1, h2⟩
      · exact .inl h1
      · exact .inr ⟨q, by simp [hq], h1, h2⟩

/-- The ended, unread commands a host store disturbs. -/
theorem markRaces_mem {written : Range} {s : State} {a : Nat} :
    (∀ q ∈ s.unread, q.op.ranges.any (fun r => r.intersects written) = true →
      ∀ r ∈ q.op.writes, ¬(r.base ≤ a ∧ a < r.base + r.len)) →
    Memory.read (markRaces written s).mem a = Memory.read s.mem a := by
  intro h
  unfold markRaces
  dsimp only
  split
  · rfl
  · refine read_drawBytes_of_not_mem fun r hr => ?_
    obtain ⟨q, hq, hr⟩ := List.mem_flatMap.mp hr
    obtain ⟨h1, h2⟩ := List.mem_filter.mp hq
    exact h q h1 h2 r hr

/-- The destination bytes of a disturbed command become free values. -/
theorem markRaces_mem_of_hit {written : Range} {s : State} {a : Nat} {q : Run} (hq : q ∈ s.unread)
    (hh : q.op.ranges.any (fun r => r.intersects written) = true)
    (ha : ∃ r ∈ q.op.writes, r.base ≤ a ∧ a < r.base + r.len) :
    Memory.read (markRaces written s).mem a = Config.freeByte s.draws a := by
  have hm : q ∈ s.unread.filter (fun run => run.op.ranges.any (fun r => r.intersects written)) :=
    List.mem_filter.mpr ⟨hq, hh⟩
  unfold markRaces
  dsimp only
  rw [if_neg (List.ne_nil_of_mem hm)]
  obtain ⟨r, hr, ha⟩ := ha
  exact read_drawBytes_of_mem ⟨r, List.mem_flatMap.mpr ⟨q, hm, hr⟩, ha⟩

/-- The little-endian value of some bytes, as a number. -/
theorem littleEndian_lt (bs : List Byte) : bs.foldr (fun b acc => b.toNat + 256 * acc) 0 < 2 ^ (8 * bs.length) := by
  induction bs with
  | nil => simp
  | cons b bs ih =>
    have hb := b.isLt
    rw [List.foldr_cons, List.length_cons, show 8 * (bs.length + 1) = 8 * bs.length + 8 by omega, Nat.pow_add]
    omega

theorem littleEndian_byte {bs : List Byte} {j : Nat} (hj : j < bs.length) :
    bs.foldr (fun b acc => b.toNat + 256 * acc) 0 / 2 ^ (8 * j) % 256 = (bs[j]).toNat := by
  induction bs generalizing j with
  | nil => simp at hj
  | cons b bs ih =>
    have hb := b.isLt
    rw [List.foldr_cons]
    cases j with
    | zero => simp only [List.getElem_cons_zero]; omega
    | succ j =>
      rw [show 8 * (j + 1) = 8 + 8 * j by omega, Nat.pow_add, ← Nat.div_div_eq_div_mul,
        show (b.toNat + 256 * bs.foldr (fun b acc => b.toNat + 256 * acc) 0) / 2 ^ 8 =
          bs.foldr (fun b acc => b.toNat + 256 * acc) 0 by omega]
      simpa using ih (j := j) (by simpa using hj)

theorem assemble_toNat {bs : List Byte} (hl : bs.length ≤ 4) :
    (assemble bs).toNat = bs.foldr (fun b acc => b.toNat + 256 * acc) 0 := by
  have h := littleEndian_lt bs
  have hp : 2 ^ (8 * bs.length) ≤ 2 ^ 32 := Nat.pow_le_pow_right (by omega) (by omega)
  simp only [assemble, BitVec.toNat_ofNat]
  exact Nat.mod_eq_of_lt (by omega)

/-- Each loaded byte stands at its place in the result, the first the lowest (20_memory.md R61). -/
theorem assemble_byte {bs : List Byte} {j : Nat} (hl : bs.length ≤ 4) (hj : j < bs.length) :
    (assemble bs).extractLsb' (8 * j) 8 = bs[j] := by
  apply BitVec.eq_of_toNat_eq
  rw [BitVec.extractLsb'_toNat, assemble_toNat hl, Nat.shiftRight_eq_div_pow]
  exact littleEndian_byte hj

/-- What a host load returns: its bytes in order, zero above them. -/
theorem loadData_ldata (addr : Word) (size : Size) (s : State) :
    (loadData addr size s).ldata.toNat < 2 ^ (8 * size.bytes) ∧
    ∀ j, j < size.bytes → (loadData addr size s).ldata.extractLsb' (8 * j) 8 = hostByte s (addr.toNat + j) := by
  have hl : ((List.range size.bytes).map (fun j => hostByte s (addr.toNat + j))).length = size.bytes := by simp
  have h4 : size.bytes ≤ 4 := by cases size <;> decide
  constructor
  · have h := littleEndian_lt ((List.range size.bytes).map (fun j => hostByte s (addr.toNat + j)))
    rw [← assemble_toNat (by omega), hl] at h
    exact h
  · intro j hj
    refine (assemble_byte (by omega) (by omega)).trans ?_
    simp

/-- Where a host store leaves no free value, memory is the old one with the stored bytes (20_memory.md R61). -/
theorem read_storeData {addr : Word} {size : Size} {v : Word} {visible : Bool} {s : State} {a : Nat}
    (h : ∀ q ∈ s.unread, q.op.ranges.any (fun r => r.intersects ⟨addr.toNat, size.bytes⟩) = true →
      ∀ r ∈ q.op.writes, ¬(r.base ≤ a ∧ a < r.base + r.len)) :
    Memory.read (storeData addr size v visible s).mem a =
      if addr.toNat ≤ a ∧ a < addr.toNat + size.bytes then v.extractLsb' (8 * (a - addr.toNat)) 8
      else Memory.read s.mem a := by
  have hl : ((bytes32 v).take size.bytes).length = size.bytes := by cases size <;> rfl
  unfold storeData
  dsimp only
  rw [markRaces_mem (by exact h), Memory.read_writeBytes, hl]
  split
  · rename_i hin
    have hj : a - addr.toNat < size.bytes := by omega
    generalize a - addr.toNat = j at hj
    cases size <;> simp only [Size.bytes] at hj ⊢ <;> rcases j with _ | _ | _ | _ | j <;> first | omega | rfl
  · rfl

/-! ### Every memory operation keeps the canonical form -/

theorem good_ranges {run : Run} (h : run.Good) : ∃ i, run.op.instr? = some i ∧ rangesOk i run.op = true := by
  obtain ⟨i, hd, hv⟩ := validate_eq_none h.valid
  exact ⟨i, instr?_eq_some.mpr hd, (validateOperands_eq_none hv).2.1⟩

theorem good_writes {run : Run} (h : run.Good) :
    ∀ r ∈ run.op.writes, r.len = 0 ∨ r.base + r.len ≤ Config.addressSpace := by
  obtain ⟨i, hd, hv⟩ := good_ranges h
  intro r hr
  simp only [OpRecord.writes, hd] at hr
  exact (ranges_bounded hv).1 r hr

theorem markRaces_wf {r : Range} {s : State} (hm : Memory.Wf s.mem) (hu : ∀ run ∈ s.unread, run.Good) :
    Memory.Wf (markRaces r s).mem ∧ (markRaces r s).unread = s.unread := by
  unfold markRaces
  dsimp only
  split
  · exact ⟨hm, rfl⟩
  · refine ⟨drawBytes_wf hm ?_, rfl⟩
    intro q hq
    obtain ⟨run, hr, hq⟩ := List.mem_flatMap.mp hq
    exact good_writes (hu run (List.mem_filter.mp hr).1) q hq

theorem storeData_wf {addr : Word} {size : Size} {v : Word} {visible : Bool} {s : State}
    (hb : addr.toNat + size.bytes ≤ Config.addressSpace) (hm : Memory.Wf s.mem) (hu : ∀ run ∈ s.unread, run.Good) :
    Memory.Wf (storeData addr size v visible s).mem ∧ (storeData addr size v visible s).unread = s.unread := by
  unfold storeData
  refine markRaces_wf (Memory.writeBytes_wf hm ?_) hu
  have : ((bytes32 v).take size.bytes).length = size.bytes := by cases size <;> rfl
  omega

/-- What the snapshot holds: free values where the command reads bytes whose last host store is not visible to the
block, data memory elsewhere (20_memory.md R69). -/
theorem read_snapshot (op : OpRecord) (s : State) (a : Nat) :
    Memory.read (snapshot op s) a =
      if a ∈ s.unpublished ∧ ∃ r ∈ op.loads, r.base ≤ a ∧ a < r.base + r.len then Config.freeByte s.draws a
      else Memory.read s.mem a := by
  have one : ∀ (l : List Nat) (m : Memory),
      Memory.read (Memory.writeAll m (l.map (fun a => (a, [Config.freeByte s.draws a])))) a =
        if a ∈ l then Config.freeByte s.draws a else Memory.read m a := by
    intro l
    induction l with
    | nil => intro m; simp [Memory.writeAll]
    | cons b l ih =>
      intro m
      show Memory.read (Memory.writeAll (Memory.writeBytes m b [Config.freeByte s.draws b]) _) a = _
      rw [ih]
      by_cases hl : a ∈ l
      · simp [hl]
      · by_cases hb : b = a
        · subst hb
          simp [hl, Memory.read_writeBytes]
        · rw [Memory.read_writeBytes_of_not_mem (by simp; omega)]
          simp [hl, Ne.symm hb]
  unfold snapshot
  dsimp only
  rw [one]
  simp only [List.mem_filter, List.any_eq_true, Range.holds_iff]

/-- A command with COUNT = 0 reads nothing, so its snapshot is data memory (40_command_model.md R120). -/
theorem snapshot_of_count_eq_zero {op : OpRecord} {s : State} (h : op.count = 0) : snapshot op s = s.mem := by
  have hl : op.loads = [] := by simp [OpRecord.loads, OpRecord.n, h]
  simp [snapshot, hl, Memory.writeAll]

theorem snapshot_wf {op : OpRecord} {s : State} {i : Instr} (hi : op.instr? = some i) (hr : rangesOk i op = true)
    (hm : Memory.Wf s.mem) : Memory.Wf (snapshot op s) := by
  unfold snapshot
  refine Memory.writeAll_wf hm ?_
  intro w hw
  obtain ⟨a, ha, rfl⟩ := List.mem_map.mp hw
  have := (List.mem_filter.mp ha).2
  simp only [List.any_eq_true, Range.holds_iff] at this
  obtain ⟨r, hr', h1, h2⟩ := this
  have hr' : r ∈ readRanges i op := by simpa only [OpRecord.reads, hi] using OpRecord.mem_loads.mp hr' |>.2
  rcases (ranges_bounded hr).2 r hr' with h | h
  · omega
  · simp; omega

end Sys2Proof.Machine
end

