-- ==== Sys2Proof/Tests/Slice0.lean ====
section
/-! SUPPORT. Tests: smoke tests of well-formedness, words and vectors of the spec, and for each obligation with
hypotheses a state that meets them. Expected values come from spec/95_test_vectors.md or from the rules by hand. -/

namespace Sys2Proof.Tests

open Sys2Proof Sys2Proof.Machine

/-! ## Helpers -/

/-- A platform without bus errors: 64 KiB of owned memory, then a device, a foreign region and a hole. -/
def plat : Platform :=
  { regBase := 0xF0000000, hasBusError := false,
    memoryMap := [⟨0, 0x10000, .ordinary⟩, ⟨0x10000, 0x100, .device⟩, ⟨0x10100, 0x100, .foreign⟩] }

/-- The same platform with bus errors. -/
def platErr : Platform := { plat with hasBusError := true }

/-- The block after reset on the platform `plat`, with memory all 0. -/
def idle : State := { State.reset with platform := plat, mem := [] }

/-- Four 16-bit elements at 100H: 7FFF, 001F, 03E0 and 7C00. -/
def mem0 : Memory :=
  Memory.writeBytes [] 0x100 [0xFF, 0x7F, 0x1F, 0x00, 0xE0, 0x03, 0x00, 0x7C]

/-- A record with two elements: source 100H, kernel 180H, destinations 200H and 240H. -/
def opOf (i : Instr) : OpRecord :=
  { op := opcode i, factor := factorOf i, src0 := 0x100, src1 := 0x180, dst0 := 0x200, dst1 := 0x240, count := 2 }

def runOf (i : Instr) : Run := { op := opOf i, m0 := mem0, raced := false }

/-- The block while it runs such a command. -/
def busyAt (run : Run) : State :=
  { idle with
    cmd := run.op.word, status := Status.reset.start
    src0 := run.op.src0, src1 := run.op.src1, dst0 := run.op.dst0, dst1 := run.op.dst1, count := run.op.count
    eng := .busy run, mem := run.m0 }

def busy (i : Instr) : State := busyAt (runOf i)

/-- The six commands, BLEND with both extreme factors. -/
def commands : List Instr := [.conv15c, .conv15n, .conv32, .blend 0, .blend 256, .mac, .copy]

def wr (reg : Reg) (v : Word) : Move := .host 0 (.regWrite (regOffset reg) .word v)

def rd (reg : Reg) : Move := .host 0 (.regRead (regOffset reg) .word)

/-- The STATUS word after an outcome. -/
def statusOf : Host.Outcome State Fault Refusal → Option Word
  | .next t => some t.status.toWord
  | .fault _ => none
  | .refused _ => none

/-- STATUS after the write of a word to CMD with the given operand registers (95_test_vectors.md V1 to V34). -/
def statusAfter (a b c d n w : Word) : Option Word :=
  statusOf (step { idle with src0 := a, src1 := b, dst0 := c, dst1 := d, count := n, pending := [wr .cmd w] })

/-- The 16-bit element at an address after an outcome. -/
def elemAfter (a : Nat) : Host.Outcome State Fault Refusal → Option Half
  | .next t => some (Memory.read16 t.mem a)
  | .fault _ => none
  | .refused _ => none

/-! ## Well-formedness: an ill-formed term for the one check, and the boundary -/

theorem test_blend_257_ill_formed : (Instr.blend 257).wellFormed = false := by decide
theorem test_blend_511_ill_formed : (Instr.blend 511).wellFormed = false := by decide
theorem test_blend_256_well_formed : (Instr.blend 256).wellFormed = true := by decide
theorem test_commands_well_formed : ∀ i ∈ commands, i.wellFormed = true := by decide
theorem test_reset_memory_wf : Memory.wf State.reset.mem = true ∧ Memory.wf mem0 = true :=
  ⟨decide_eq_true Memory.powerUp_wf, by decide⟩
/-- Any contents may be those at power-up (70_reset_and_hazards.md R262), and the order of the cells is free. -/
theorem test_memory_of_cells :
    Memory.ofCells mem0 = mem0 ∧ Memory.ofCells mem0.reverse = mem0 ∧ Memory.ofCells [(2 ^ 32, 5), (7, 0)] = [] := by
  decide
theorem test_write_of_unlisted_byte_removes :
    Memory.writeBytes mem0 0x100 [0] = Memory.writeBytes (Memory.writeBytes mem0 0x100 [5]) 0x100 [0] := by decide

/-! ## Words written out bit by bit (30_encoding.md R90 to R92): RSV1, FACTOR, RSV0, OP -/

theorem test_word_conv15c : decode (0b000000000000000#15 ++ 0b000000000#9 ++ 0b0000#4 ++ 0b0001#4) = .command .conv15c := by
  decide
theorem test_word_conv15n : decode (0b000000000000000#15 ++ 0b000000000#9 ++ 0b0000#4 ++ 0b0010#4) = .command .conv15n := by
  decide
theorem test_word_conv32 : decode (0b000000000000000#15 ++ 0b000000000#9 ++ 0b0000#4 ++ 0b0011#4) = .command .conv32 := by
  decide
theorem test_word_blend :
    decode (0b000000000000000#15 ++ 0b010000000#9 ++ 0b0000#4 ++ 0b0100#4) = .command (.blend 128) := by decide
theorem test_word_mac : decode (0b000000000000000#15 ++ 0b000000000#9 ++ 0b0000#4 ++ 0b0101#4) = .command .mac := by
  decide
theorem test_word_copy : decode (0b000000000000000#15 ++ 0b000000000#9 ++ 0b0000#4 ++ 0b0110#4) = .command .copy := by
  decide
/-- OP 0, OP 7, RSV0, FACTOR on CONV15C, RSV1, and ILLEGAL before FACTOR (95_test_vectors.md V1, V2, V4 to V6, V9). -/
theorem test_words_illegal :
    [0x00000000#32, 0x00000007#32, 0x00000011#32, 0x00000101#32, 0x00020001#32, 0x80022C04#32].map decode =
      [.illegal, .illegal, .illegal, .illegal, .illegal, .illegal] := by decide
theorem test_words_factor : [0x00010104#32, 0x0001FF04#32].map decode = [.factor, .factor] := by decide
theorem test_table_words :
    decodeTableWord 32 0x00000001 = some .conv15c ∧ decodeTableWord 32 0x00010004 = some (.blend 256) ∧
      decodeTableWord 32 0x00000007 = none := by decide

/-! ## Pixels (95_test_vectors.md L2) -/

theorem test_conv15c_pixels :
    [0x7FFF#16, 0x001F#16, 0x03E0#16, 0x7C00#16, 0x1110#16, 0x5294#16, 0x7FE0#16].map conv15cPixel =
      [0xFBFF, 0xC805, 0x1AE3, 0x08F5, 0x70E6, 0xA294, 0x2BF9] := by decide
theorem test_conv15n_pixels :
    [0x7FFF#16, 0x001F#16, 0x03E0#16, 0x7C00#16, 0x1110#16, 0x0001#16, 0x7C1F#16].map conv15nPixel =
      [0xFFDF, 0xF800, 0x07C0, 0x001F, 0x8204, 0x0800, 0xF81F] := by decide
theorem test_conv32_pixels :
    [0x00FF0000#32, 0x0000FF00#32, 0x000000FF#32, 0xFF000000#32, 0x00123456#32, 0x80C0E0F0#32].map conv32Pixel =
      [0xF800, 0x07E0, 0x001F, 0x0000, 0x11AA, 0xC71E] := by decide
theorem test_blend_pixels :
    blendPixel 128 0xABCD 0x1234 = 0x5AF0 ∧ blendPixel 64 0x07E0 0xF800 = 0xB9E0 ∧
      blendPixel 255 0xFFFF 0x0000 = 0xF7DE ∧ blendPixel 255 0x0000 0xFFFF = 0x0000 := by decide

/-! ## MAC (95_test_vectors.md L2) -/

def taps (l : List (Int × Int × Int)) : List MacTap := l.map (fun t => ⟨t.1, t.2.1, t.2.2⟩)

theorem test_mac_signs :
    (taps [(1, 1, 2), (-1, 3, 4), (2, 5, 6), (-2, 7, 8), (3, 9, 10)]).foldl macStep ⟨100, -100, false⟩ =
      ⟨121, -76, false⟩ := by decide
theorem test_mac_overflow :
    (taps [(-32768, -32768, -32768), (-32768, -32768, -32768), (-32768, -32768, -32768)]).foldl macStep ⟨0, 0, false⟩ =
      ⟨-0x40000000, -0x40000000, true⟩ := by decide

/-! ## Acceptance, validation and completion, one step each -/

/-- Rows V10, V11, V14, V20, V22, V24, V29, V31, V33 and V34 of 95_test_vectors.md. -/
theorem test_validation_rows :
    [statusAfter 0 0 0 0 0 0x00010004, statusAfter 0x1001 0 0x2000 0 1 1, statusAfter 0x1000 0x1100 0x2002 0x2010 1 5,
      statusAfter 0x1000 0x1100 0x2000 0xFFFFFFF4 0 5, statusAfter 0x1000 0 0x1001 0 4 6,
      statusAfter 0x1000 0 0x1000 0 4 6, statusAfter 0x1000 0x1100 0x2000 0x2008 1 5,
      statusAfter 0x1000 0x1000 0x2000 0x2010 2 5, statusAfter 0xFFFFFFFF 0 0x2000 0 2 1,
      statusAfter 0xFFFFFFF0 0 0xFFFFFFF2 0 0x10 6] =
    [some 0x1, some 0x306, some 0x306, some 0x406, some 0x506, some 0x1, some 0x506, some 0x1, some 0x306,
      some 0x406] := by decide

theorem test_conv15c_completes :
    elemAfter 0x200 (exec .conv15c (busy .conv15c)) = some 0xFBFF ∧ elemAfter 0x202 (exec .conv15c (busy .conv15c)) = some 0xC805 ∧
      statusOf (exec .conv15c (busy .conv15c)) = some 0x2 := by decide
theorem test_conv15n_completes :
    elemAfter 0x200 (exec .conv15n (busy .conv15n)) = some 0xFFDF ∧ elemAfter 0x204 (exec .conv15n (busy .conv15n)) = some 0 := by
  decide
/-- The source words are 001F7FFFH and 7C0003E0H, by hand from 41_color_convert.md R147. -/
theorem test_conv32_completes :
    elemAfter 0x200 (exec .conv32 (busy .conv32)) = some 0x1BFF ∧ elemAfter 0x202 (exec .conv32 (busy .conv32)) = some 0x001C := by
  decide
/-- Factor 256 leaves the source pixel (42_frame_blend.md R172). -/
theorem test_blend_completes : elemAfter 0x202 (exec (.blend 256) (busy (.blend 256))) = some 0x001F := by decide
theorem test_copy_completes : elemAfter 0x200 (exec .copy (busy .copy)) = some 0x7FFF := by decide
/-- The kernel is 0, so the accumulators stay as they were (43_audio_mac.md R191). -/
theorem test_mac_completes :
    elemAfter 0x200 (exec .mac (busy .mac)) = some 0 ∧ statusOf (exec .mac (busy .mac)) = some 0x2 := by decide

/-- Vectors W2 and W1 of 95_test_vectors.md. -/
theorem test_status_write_w2 :
    (Status.hostWrite 0x04 ⟨false, true, true, true, false, 5⟩).toWord = 0x0000000A := by decide
theorem test_busy_write_w1 :
    statusOf (step { busy .conv15c with pending := [wr .src0 0x5555] }) = some 0x00000011 := by decide

/-- The step that follows a placed word is its acceptance, for every command. -/
theorem test_withFetchWord :
    ∀ i ∈ [Instr.conv15c, .conv15n, .conv32, .blend 7, .copy],
      statusOf (step (idle.withFetchWord 32 (encode i).toNat)) = some 0x1 := by decide

/-- The same from the state after reset itself: CONV15C starts, MAC with both arrays at 0 ends in OVERLAP. -/
theorem test_withFetchWord_reset :
    statusOf (step (State.reset.withFetchWord 32 0x00000001)) = some 0x1 ∧
      statusOf (step (State.reset.withFetchWord 32 0x00000005)) = some 0x506 := by decide

/-! ## The stops of the platform's view -/

theorem test_window_operand :
    operandRefusal plat [⟨0xEFFFFFFF, 2⟩] = some .registerWindowOperand ∧
      operandRefusal plat [⟨0xFFFF, 1⟩] = none := by decide
theorem test_foreign_device_missing :
    operandRefusal plat [⟨0xFFFF, 2⟩] = some .deviceMemory ∧ operandRefusal plat [⟨0x101FF, 1⟩] = some .notOwned ∧
      operandRefusal plat [⟨0x10200, 1⟩] = some .missingMemory ∧ operandRefusal platErr [⟨0x10200, 1⟩] = none := by decide

/-! ## Witnesses: a state that meets the hypotheses of each obligation -/

theorem busyAt_invariant {run : Run} (h1 : Memory.wf run.m0 = true) (h2 : validate run.op.word run.op = none)
    (h3 : run.op = latch run.op.word (busyAt run)) : Invariant (busyAt run) := by
  have hw : Memory.Wf run.m0 := of_decide_eq_true h1
  refine ⟨hw, ?_, ⟨rfl, ⟨hw, h2⟩, h3, rfl⟩, by simp [busyAt, idle, State.reset]⟩
  constructor <;> simp [busyAt, Status.reset, Status.start]

theorem test_busy_invariant : ∀ i ∈ commands, Invariant (busy i) := by
  intro i hi
  have : ∀ i ∈ commands, Memory.wf mem0 = true ∧ validate (opOf i).word (opOf i) = none ∧
      opOf i = latch (opOf i).word (busyAt (runOf i)) := by decide
  obtain ⟨h1, h2, h3⟩ := this i hi
  exact busyAt_invariant h1 h2 h3

theorem test_idle_invariant : Invariant idle := by
  refine ⟨by decide, ?_, rfl, by simp [idle, State.reset]⟩
  constructor <;> simp [idle, State.reset, Status.reset]

def goesOn : Host.Outcome State Fault Refusal → Bool
  | .next _ => true
  | .fault _ => false
  | .refused _ => false

theorem next_of_goesOn {o : Host.Outcome State Fault Refusal} (h : goesOn o = true) : ∃ t, o = .next t := by
  cases o with
  | next t => exact ⟨t, rfl⟩
  | fault r => simp [goesOn] at h
  | refused r => simp [goesOn] at h

/-- A state with other moves to come. -/
def withMoves (s : State) (ms : List Move) : State := { s with pending := ms }

theorem invariant_withMoves {s : State} (h : Invariant s) (ms : List Move) : Invariant (withMoves s ms) :=
  ⟨h.mem_wf, h.status, h.engine, h.unread⟩

/-- A MAC whose second exact sum leaves the s32 range (43_audio_mac.md R193). -/
def macMem : Memory :=
  Memory.writeBytes (Memory.writeBytes [] 0x100 [0x00, 0x80, 0x00, 0x80, 0x00, 0x80, 0x00, 0x80])
    0x180 [0x00, 0x80, 0x00, 0x80]

def macRun : Run := { op := opOf .mac, m0 := macMem, raced := false }

theorem test_witness_StatusReservedBitsReadZero : (withMoves idle [rd .status]).pending = rd .status :: [] := rfl

theorem test_witness_StatusWriteClearsTheWrittenBits :
    (withMoves idle [wr .status 0x1E]).pending = wr .status 0x1E :: [] ∧
    (withMoves (busy .mac) [.statusWriteWithEngine 0x1E .ok]).pending = .statusWriteWithEngine 0x1E .ok :: [] ∧
    (busy .mac).eng = .busy (runOf .mac) ∧ (runOf .mac).op.instr? = some .mac := by decide

theorem test_witness_ReservedOffsetsReadZeroAndIgnoreWrites :
    (∀ off ∈ [(0x1C : BitVec 8), 0xFC], 0x1C ≤ off.toNat ∧ off.toNat % 4 = 0 ∧
      statusOf (step (withMoves (busy .copy) [.host 0 (.regWrite off .word 0xFFFFFFFF)])) = some 0x1) := by decide

theorem test_witness_OnlyAlignedWordAccessesHaveMeaning :
    regAccessOk 0x04 .byte = false ∧ regAccessOk 0x06 .word = false ∧ regAccessOk 0xFF .half = false ∧
      regAccessOk 0x00 .word = true ∧ regAccessOk 0xFC .word = true ∧
    plat.regBase.toNat ≤ (0xF00000FC : Word).toNat ∧ (0xF00000FC : Word).toNat < plat.regBase.toNat + 256 ∧
    (0xF00000FC : Word).toNat + Size.bytes .word ≤ 2 ^ 32 ∧
    (0xFC : BitVec 8).toNat = (0xF00000FC : Word).toNat - plat.regBase.toNat := by decide

theorem test_witness_OperandRegistersStoreAndReadBack :
    (∀ o, idle.owner = some o → o.core = 0) ∧ idle.status.busy = false ∧
    (∀ o, (busy .mac).owner = some o → o.core = 0) ∧ (busy .mac).status.busy = true ∧
    (withMoves (busy .mac) []).nextMove.isEngine = true ∧ goesOn (step (withMoves (busy .mac) [])) = true := by
  refine ⟨?_, ?_, ?_, ?_, ?_, ?_⟩
  · intro o h; simp [idle, State.reset] at h
  · decide
  · intro o h; simp [busy, busyAt, idle, State.reset] at h
  · decide
  · decide
  · decide

theorem test_witness_WerrChangesExactlyAsStated :
    (∃ t, step (withMoves (busy .mac) [wr .cmd 6]) = .next t ∧ t.status.werr = true) ∧
    (busy .mac).status.busy = true ∧
    (withMoves (busy .mac) [wr .cmd 6]).nextMove.registerWrite plat = some (.cmd, 6) :=
  ⟨⟨_, rfl, by decide⟩, by decide, by decide⟩

theorem test_witness_OvfIsSetOnlyByMacAndIsSticky :
    Invariant (busyAt macRun) ∧ (∃ t, step (busyAt macRun) = .next t ∧ t.status.ovf = true ∧ t.status.err = false) ∧
      macRun.raced = false ∧ macRun.op.instr? = some .mac ∧ (macSums macRun.op macRun.m0).ovf = true ∧
    (let run : Run := { runOf .copy with raced := true }
     Invariant (busyAt run) ∧ (∃ t, step (busyAt run) = .next t) ∧ run.op.instr? ≠ some .mac) :=
  ⟨busyAt_invariant (by decide) (by decide) (by decide), ⟨_, rfl, by decide, by decide⟩, rfl, by decide, by decide,
    busyAt_invariant (by decide) (by decide) (by decide), ⟨_, rfl⟩, by decide⟩

theorem test_witness_BusyAndDoneFollowTheCommand :
    Invariant (withMoves idle [wr .cmd 1]) ∧ statusOf (step (withMoves idle [wr .cmd 1])) = some 0x1 :=
  ⟨invariant_withMoves test_idle_invariant _, by decide⟩

theorem test_witness_ErrAndErrcodeFollowTheCommand :
    Invariant (withMoves idle [wr .cmd 7]) ∧ statusOf (step (withMoves idle [wr .cmd 7])) = some 0x106 :=
  ⟨invariant_withMoves test_idle_invariant _, by decide⟩

theorem test_witness_CmdHoldsTheLastAcceptedWord :
    Invariant (withMoves (busy .mac) [wr .cmd 6]) ∧
      ∃ t, step (withMoves (busy .mac) [wr .cmd 6]) = .next t ∧ t.cmd = 5 :=
  ⟨invariant_withMoves (test_busy_invariant .mac (by decide)) _, _, rfl, by decide⟩

theorem test_witness_CmdWriteIsCommandAcceptance :
    (idle.status.busy = false ∧ idle.eng = .idle ∧ idle.unpublished = []) ∧
    validate 0x0001FF04 (latch 0x0001FF04 idle) = some .factor ∧
    validate 6 (latch 6 idle) = none ∧ operandRefusal plat (latch 6 idle).ranges = none ∧
    (let s : State := { idle with src0 := 0x10100, count := 1 }
     validate 6 (latch 6 s) = none ∧ operandRefusal plat (latch 6 s).ranges = some .notOwned) ∧
    (let s : State := { idle with src0 := 0x100, dst0 := 0x200, count := 2, unpublished := [0x101, 0x200] }
     validate 6 (latch 6 s) = none ∧ operandRefusal plat (latch 6 s).ranges = none ∧ 0x200 ∈ s.unpublished ∧
      (∀ r ∈ (latch 6 s).loads, r.holds 0x200 = false)) ∧
    (busy .mac).status.busy = true := by decide

theorem test_witness_ValidationChecksInOrder :
    decode 0 = .illegal ∧ decode 0x00010104 = .factor ∧ (256 : BitVec 9).toNat ≤ 256 := by decide

theorem test_witness_IdleCommandStartsOrEndsInError :
    256 < (257 : BitVec 9).toNat ∧ idle.eng = .idle ∧ idle.status.busy = false ∧ (Instr.blend 256).wellFormed = true ∧
    validateOperands .copy (latch (encode .copy) idle) = none ∧
    operandRefusal plat (operandRanges .copy (latch (encode .copy) idle)) = none ∧
    validateOperands .mac (latch (encode .mac) idle) = some .overlap ∧
    (let s : State := { idle with src0 := 0x10000, count := 1 }
     validateOperands .copy (latch (encode .copy) s) = none ∧
      operandRefusal plat (operandRanges .copy (latch (encode .copy) s)) = some .deviceMemory) ∧
    (let s : State := { idle with src0 := 0x100, dst0 := 0x200, count := 2, unpublished := [0x101, 0x200] }
     validateOperands .copy (latch (encode .copy) s) = none ∧
      operandRefusal plat (operandRanges .copy (latch (encode .copy) s)) = none ∧ 0x101 ∈ s.unpublished ∧ s.count ≠ 0 ∧
      (∃ r ∈ readRanges .copy (latch (encode .copy) s), r.holds 0x101 = true) ∧
      (∀ r ∈ readRanges .copy (latch (encode .copy) s), r.holds 0x200 = false)) := by decide

/-- Every command, undisturbed, on validated operands. -/
theorem test_busy_undisturbed : ∀ i ∈ commands,
    (busy i).eng = .busy (runOf i) ∧ Undisturbed i (runOf i) (busy i) ∧ validateOperands i (runOf i).op = none := by
  intro i hi
  have : ∀ i ∈ commands, (busy i).eng = .busy (runOf i) ∧ (runOf i).raced = false ∧
      accessFails (busy i).platform (accessRanges i (runOf i).op) = false ∧
      validateOperands i (runOf i).op = none := by decide
  obtain ⟨h1, h2, h3, h4⟩ := this i hi
  exact ⟨h1, ⟨h2, h3⟩, h4⟩

theorem test_witness_Conv15cConvertsEveryPixel :
    (busy .conv15c).eng = .busy (runOf .conv15c) ∧ Undisturbed .conv15c (runOf .conv15c) (busy .conv15c) :=
  ⟨rfl, (test_busy_undisturbed .conv15c (by decide)).2.1⟩

theorem test_witness_Conv15nConvertsEveryPixel :
    (busy .conv15n).eng = .busy (runOf .conv15n) ∧ Undisturbed .conv15n (runOf .conv15n) (busy .conv15n) :=
  ⟨rfl, (test_busy_undisturbed .conv15n (by decide)).2.1⟩

theorem test_witness_Conv32ConvertsEveryPixel :
    (busy .conv32).eng = .busy (runOf .conv32) ∧ Undisturbed .conv32 (runOf .conv32) (busy .conv32) :=
  ⟨rfl, (test_busy_undisturbed .conv32 (by decide)).2.1⟩

theorem test_witness_BlendMixesEveryPixel :
    (256 : BitVec 9).toNat ≤ 256 ∧ (busy (.blend 256)).eng = .busy (runOf (.blend 256)) ∧
      Undisturbed (.blend 256) (runOf (.blend 256)) (busy (.blend 256)) :=
  ⟨by decide, rfl, (test_busy_undisturbed (.blend 256) (by decide)).2.1⟩

theorem test_witness_MacAccumulatesBothChannels :
    (busyAt macRun).eng = .busy macRun ∧ Undisturbed .mac macRun (busyAt macRun) ∧
      validateOperands .mac macRun.op = none ∧ macRun.op.count ≠ 0 :=
  ⟨rfl, ⟨rfl, by decide⟩, by decide, by decide⟩

theorem test_witness_CopyMovesEveryByte :
    (busy .copy).eng = .busy (runOf .copy) ∧ Undisturbed .copy (runOf .copy) (busy .copy) :=
  ⟨rfl, (test_busy_undisturbed .copy (by decide)).2.1⟩

theorem test_witness_CommandsTouchOnlyTheirRanges :
    (∀ i ∈ commands, goesOn (exec i (busy i)) = true) ∧
    rangeD (.blend 0) (opOf (.blend 0)) ∈ readRanges (.blend 0) (opOf (.blend 0)) ∧
    rangeS (.blend 0) (opOf (.blend 0)) ≠ rangeD (.blend 0) (opOf (.blend 0)) := by decide

/-- A command with no element. -/
def emptyRun (i : Instr) : Run := { runOf i with op := { opOf i with count := 0 } }

theorem test_witness_ZeroCountCompletesWithoutAccess : ∀ i ∈ commands,
    (busyAt (emptyRun i)).eng = .busy (emptyRun i) ∧ (emptyRun i).raced = false ∧ (emptyRun i).op.count = 0 ∧
    (let s : State := { idle with dst1 := 0x10, unpublished := [0] }
     i.wellFormed = true ∧ s.eng = .idle ∧ s.status.busy = false ∧ s.count = 0 ∧
      validateOperands i (latch (encode i) s) = none ∧
      operandRefusal s.platform (operandRanges i (latch (encode i) s)) = none) := by decide

/-- A MAC with COUNT = 0 leaves lane 0 as it is for the host too, on a platform with bus errors (40_command_model.md
R120, 43_audio_mac.md R195). -/
theorem test_empty_mac_lane_read (a : Nat) :
    hostByte { busyAt (emptyRun .mac) with platform := platErr } a = Memory.read mem0 a := by
  have hs : (emptyRun .mac).op.stores = [] := by decide
  have hf : finalImage (emptyRun .mac) mem0 = mem0 := by decide
  rw [hostByte_busy (run := emptyRun .mac) rfl, hs]
  have hv : ∀ n v, v = Memory.read mem0 a → hostView n a [emptyRun .mac] v = Memory.read mem0 a := by
    intro n v h
    rcases hostView_cases (n := n) (a := a) (v := v) (runs := [emptyRun .mac]) (by decide) with h1 | ⟨q, hq, -, h1⟩
    · exact h1.trans h
    · rw [List.mem_singleton.mp hq] at h1
      exact h1
  refine hv _ _ ?_
  rw [List.any_nil, Bool.and_false]
  exact congrArg (Memory.read · a) hf

theorem test_witness_Conv15cClampsNeverBind :
    red15 0x7FFF = green15 0x7FFF ∧ green15 0x7FFF = blue15 0x7FFF := by decide

theorem test_witness_UnusedBitsAndGreenScales :
    (0xFF123456 : Word).extractLsb' 0 24 = (0x00123456 : Word).extractLsb' 0 24 ∧
    red15 0x5294 = green15 0x5294 ∧ green15 0x5294 = blue15 0x5294 := by decide

theorem test_witness_BlendIdentitiesAreExact :
    (busy (.blend 256)).eng = .busy (runOf (.blend 256)) ∧
      Undisturbed (.blend 256) (runOf (.blend 256)) (busy (.blend 256)) ∧
    (busy (.blend 0)).eng = .busy (runOf (.blend 0)) ∧ Undisturbed (.blend 0) (runOf (.blend 0)) (busy (.blend 0)) :=
  ⟨rfl, (test_busy_undisturbed (.blend 256) (by decide)).2.1, rfl, (test_busy_undisturbed (.blend 0) (by decide)).2.1⟩

theorem test_witness_BlendStaysBetweenItsInputs : (0 : Nat) ≤ 256 ∧ (256 : Nat) ≤ 256 := by decide

theorem test_witness_MacOverflowIsThatOfTheExactSums :
    (-2 ^ 31 : Int) ≤ (MacSums.mk (2 ^ 31 - 1) (-2 ^ 31) false).left ∧
    (MacSums.mk (2 ^ 31 - 1) (-2 ^ 31) false).left < 2 ^ 31 ∧
    (-2 ^ 31 : Int) ≤ (MacSums.mk (2 ^ 31 - 1) (-2 ^ 31) false).right ∧
    (MacSums.mk (2 ^ 31 - 1) (-2 ^ 31) false).right < 2 ^ 31 ∧
    (taps [(1, 2, 3), (4, 5, 6)]).Perm (taps [(4, 5, 6), (1, 2, 3)]) := by decide

theorem test_witness_SplitMacGivesTheSameSums :
    validateOperands .mac (opOf .mac) = none ∧ (∀ j ∈ [0, 1, 2], j ≤ (opOf .mac).count.toNat) ∧
    (macEffect { opOf .mac with count := 1 } macMem).ovf = false := by decide

/-- The same MAC run with other values in lanes 1 to 3 of both arrays. -/
def laneMem : Memory := Memory.writeBytes (Memory.writeBytes macMem 0x204 [1, 2, 3]) 0x24F [9]

def laneRun : Run := { macRun with m0 := laneMem }

theorem read_laneMem {a : Nat} (h1 : ¬(0x204 ≤ a ∧ a < 0x210)) (h2 : ¬(0x244 ≤ a ∧ a < 0x250)) :
    Memory.read macMem a = Memory.read laneMem a := by
  rw [laneMem, Memory.read_writeBytes_of_not_mem (by simp; omega), Memory.read_writeBytes_of_not_mem (by simp; omega)]

theorem test_witness_MacIgnoresLanesOneToThree :
    (busyAt macRun).eng = .busy macRun ∧ (busyAt laneRun).eng = .busy laneRun ∧
    Undisturbed .mac macRun (busyAt macRun) ∧ Undisturbed .mac laneRun (busyAt laneRun) ∧ laneRun.op = macRun.op ∧
    (busyAt laneRun).status = (busyAt macRun).status ∧ validateOperands .mac macRun.op = none ∧
    (∀ a, ¬(macRun.op.dst0.toNat + 4 ≤ a ∧ a < macRun.op.dst0.toNat + 16) →
      ¬(macRun.op.dst1.toNat + 4 ≤ a ∧ a < macRun.op.dst1.toNat + 16) →
      Memory.read macRun.m0 a = Memory.read laneRun.m0 a ∧
        Memory.read (busyAt macRun).mem a = Memory.read (busyAt laneRun).mem a) :=
  ⟨rfl, rfl, ⟨rfl, by decide⟩, ⟨rfl, by decide⟩, rfl, rfl, by decide,
    fun _ h1 h2 => ⟨read_laneMem h1 h2, read_laneMem h1 h2⟩⟩

/-- A run in place. -/
def inPlaceRun (i : Instr) : Run := { runOf i with op := { opOf i with dst0 := 0x100 } }

theorem test_witness_InPlaceCopyAndBlendChangeNothing :
    (∀ i ∈ [Instr.copy, .blend 77],
      (busyAt (inPlaceRun i)).eng = .busy (inPlaceRun i) ∧ (inPlaceRun i).op.src0 = (inPlaceRun i).op.dst0 ∧
      (inPlaceRun i).raced = false ∧
      accessFails (busyAt (inPlaceRun i)).platform (accessRanges i (inPlaceRun i).op) = false) ∧
    (let op := { opOf (.blend 77) with dst0 := 0x102 }
     alignedOk (.blend 77) op = true ∧ rangesOk (.blend 77) op = true ∧
      (rangeS (.blend 77) op).intersects (rangeD (.blend 77) op) = true ∧ op.src0 ≠ op.dst0) := by decide

theorem test_witness_BatchAndTailDatapathsAgree :
    Instr.copy ≠ .mac ∧ Memory.Wf mem0 ∧ (batches 4 6) = [[0, 1, 2, 3], [4], [5]] := by decide

theorem test_witness_ResultDependsOnlyOnOpAndSnapshot :
    let s' : State := { busy .conv32 with rdata := 7, status := { (busy .conv32).status with ovf := true } }
    (busy .conv32).eng = .busy (runOf .conv32) ∧ s'.eng = .busy (runOf .conv32) ∧
    (busy .conv32).platform = s'.platform ∧ (busy .conv32).mem = (runOf .conv32).m0 ∧ s'.mem = (runOf .conv32).m0 ∧
    Undisturbed .conv32 (runOf .conv32) (busy .conv32) :=
  ⟨rfl, rfl, rfl, rfl, rfl, (test_busy_undisturbed .conv32 (by decide)).2.1⟩

/-- A running command on the platform with bus errors. -/
def busyErr (i : Instr) (ms : List Move) : State := { busy i with platform := platErr, pending := ms }

theorem test_witness_BusErrorEndsTheCommand :
    (busyErr .copy [.engine .error]).pending = .engine .error :: [] ∧
    (busyErr .copy [.engine .error]).eng = .busy (runOf .copy) ∧ (runOf .copy).op.instr? = some .copy ∧
    platErr.hasBusError = true ∧ (runOf .copy).op.count ≠ 0 ∧ plat.hasBusError = false ∧
    operandRefusal plat [⟨0x100, 4⟩] = none ∧ (emptyRun .mac).op.count = 0 ∧
    statusOf (step (busyErr .copy [.engine .error])) = some 0x606 := by decide

theorem test_witness_MissingMemoryEndsTheCommandWithBus :
    let run : Run := { runOf .copy with op := { opOf .copy with dst0 := 0x10200 } }
    let s : State := { busyAt run with platform := platErr }
    s.eng = .busy run ∧ s.platform.hasBusError = true ∧ run.op.count ≠ 0 ∧
    (∃ r ∈ readRanges .copy run.op ++ writeRanges .copy run.op, ∃ a, r.base ≤ a ∧ a < r.base + r.len ∧
      Platform.kindAt s.platform a = none) :=
  ⟨rfl, rfl, by decide, ⟨0x10200, 2⟩, by decide, 0x10201, by decide, by decide, by decide⟩

theorem test_witness_ResetInputClearsEveryRegister :
    (withMoves (busy .mac) [.reset]).pending = .reset :: [] ∧ (busy .mac).eng = .busy (runOf .mac) ∧
    (runOf .mac).op.writes = [⟨0x200, 4⟩, ⟨0x240, 4⟩] := by decide

/-- A COPY that ended with no STATUS read since. -/
def ended : State := { idle with mem := mem0, unread := [runOf .copy] }

/-- A host store of a word by core 0. -/
def st (addr : Word) : Move := .host 0 (.store addr .word 1 true)

/-- Stores over the last byte of D and past it, while a COPY runs and after one whose end is unread. -/
theorem test_witness_HostWriteIntoRunningRangesFreesTheResult :
    (withMoves (busy .copy) [st 0x201]).pending = st 0x201 :: [] ∧
    (withMoves ended [st 0x202]).pending = st 0x202 :: [] ∧
    (0x202 : Word).toNat + Size.bytes .word ≤ 2 ^ 32 ∧ (Platform.window plat).holds 0x201 = false ∧
    (Platform.window plat).holds 0x202 = false ∧ hostAccessRefusal plat ⟨0x201, 4⟩ = none ∧
    hostAccessRefusal plat ⟨0x202, 4⟩ = none ∧
    (busy .copy).eng = .busy (runOf .copy) ∧ ended.eng = .idle ∧ runOf .copy ∈ ended.unread ∧
    (∃ r ∈ (runOf .copy).op.ranges, 0 < r.len ∧ r.base < 0x201 + 4 ∧ 0x201 < r.base + r.len) ∧
    (∃ r ∈ (runOf .copy).op.writes, r.base ≤ 0x201 ∧ 0x201 < r.base + r.len) ∧
    (∀ r ∈ (runOf .copy).op.ranges, r.intersects ⟨0x202, 4⟩ = false) ∧
    (let run := { runOf .copy with raced := true }
     (busyAt run).eng = .busy run ∧ accessFails plat (accessRanges .copy run.op) = false) :=
  ⟨rfl, rfl, by decide, by decide, by decide, by decide, by decide, rfl, rfl, by decide,
    ⟨⟨0x200, 2⟩, by decide, by decide, by decide, by decide⟩,
    ⟨⟨0x200, 2⟩, by decide, by decide, by decide⟩, by decide, rfl, by decide⟩

/-- A store is little-endian (20_memory.md R61). -/
theorem test_store_bytes :
    elemAfter 0x300 (step (withMoves idle [.host 0 (.store 0x300 .word 0x04030201 true)])) = some 0x0201 ∧
      elemAfter 0x302 (step (withMoves idle [.host 0 (.store 0x300 .half 0x04030201 true)])) = some 0 := by decide

/-- Loads of a pixel, of lane 0 at both accumulators and of a byte, on both platforms, with an element of the
destination in each; and of the bytes around the destination. -/
theorem test_witness_HostReadOfRunningDestinationIsOldOrFinal :
    (∀ p ∈ [plat, platErr], ∀ c ∈ [(Instr.conv15c, Size.half, 0x202#32, 0, 1), (.blend 256, .half, 0x200, 0, 0),
        (.mac, .word, 0x200, 0, 0), (.mac, .word, 0x240, 1, 0), (.copy, .byte, 0x201, 0, 1),
        (.copy, .word, 0x1FF, 0, 1)],
      let s : State := { busy c.1 with platform := p, pending := [.host 1 (.load c.2.2.1 c.2.1)] }
      Memory.wf s.mem = true ∧ s.eng = .busy (runOf c.1) ∧ (runOf c.1).op.instr? = some c.1 ∧
      (runOf c.1).raced = false ∧ c.2.2.1.toNat + c.2.1.bytes ≤ 2 ^ 32 ∧
      (Platform.window s.platform).holds c.2.2.1.toNat = false ∧
      hostAccessRefusal s.platform ⟨c.2.2.1.toNat, c.2.1.bytes⟩ = none ∧ s.unread = [] ∧
      ∃ r ∈ (writeRanges c.1 (runOf c.1).op)[c.2.2.2.1]?, destBytes c.1 * (c.2.2.2.2 + 1) ≤ r.len ∧
        c.2.2.1.toNat < r.base + destBytes c.1 * (c.2.2.2.2 + 1) ∧
        r.base + destBytes c.1 * c.2.2.2.2 < c.2.2.1.toNat + c.2.1.bytes) ∧
    (∀ i ∈ commands, ∀ p, Invariant { busy i with platform := p, pending := [.host 1 (.load 0x200 .word)] }) ∧
    (∀ r ∈ writeRanges .copy (runOf .copy).op, ¬(r.base ≤ 0x1FF ∧ 0x1FF < r.base + r.len)) :=
  ⟨by decide,
    fun i hi _ => ⟨(test_busy_invariant i hi).mem_wf, (test_busy_invariant i hi).status, (test_busy_invariant i hi).engine,
      (test_busy_invariant i hi).unread⟩, by decide⟩

/-- A word load over a raced COPY's destination and the bytes beside it. -/
theorem test_witness_HostReadOfRacedDestinationIsAnyValue :
    let run : Run := { runOf .copy with raced := true }
    let s : State := { busyAt run with pending := [.host 1 (.load 0x1FF .word)] }
    s.pending = .host 1 (.load 0x1FF .word) :: [] ∧ s.eng = .busy run ∧ run.op.instr? = some .copy ∧
    run.raced = true ∧ (0x1FF : Word).toNat + Size.bytes .word ≤ 2 ^ 32 ∧
    (Platform.window s.platform).holds 0x1FF = false ∧ hostAccessRefusal s.platform ⟨0x1FF, 4⟩ = none ∧
    (∃ r ∈ writeRanges .copy run.op, r.holds (0x1FF + 1) = true) ∧
    (∀ q ∈ run :: s.unread, ∀ r ∈ q.op.writes, r.holds 0x1FF = false) := by decide

/-- A CONV15N runs over the destination of a COPY whose end is unread; a COPY has ended and nothing runs. -/
theorem test_witness_EarlyHostReadIsCurrentOrOlder :
    (let s : State := { busy .conv15n with unread := [runOf .copy], pending := [.host 0 (.load 0x201 .byte)] }
     s.pending = .host 0 (.load 0x201 .byte) :: [] ∧ s.eng = .busy (runOf .conv15n) ∧
      (∀ q ∈ s.unread, q.raced = false)) ∧
    (withMoves ended [.host 0 (.load 0x201 .byte)]).pending = .host 0 (.load 0x201 .byte) :: [] ∧
    ended.eng = .idle ∧ (∀ q ∈ ended.unread, q.raced = false) ∧
    (0x201 : Word).toNat + Size.bytes .byte ≤ 2 ^ 32 ∧
    (Platform.window plat).holds 0x201 = false ∧ hostAccessRefusal plat ⟨0x201, 1⟩ = none ∧
    (runOf .conv15n).raced = false ∧ (runOf .conv15n).op.instr? = some .conv15n ∧
    (∃ r ∈ (runOf .copy).op.writes, r.base ≤ 0x201 ∧ 0x201 < r.base + r.len) ∧
    (∃ r ∈ (runOf .conv15n).op.writes, r.base ≤ 0x201 ∧ 0x201 < r.base + r.len) := by decide

theorem test_witness_StatusReadMakesResultsVisible :
    Invariant (withMoves idle [rd .status, .host 0 (.load 0xFFFC .word)]) ∧ idle.status.busy = false ∧
    (0xFFFC : Word).toNat + Size.bytes .word ≤ 2 ^ 32 ∧ (Platform.window plat).holds 0xFFFC = false ∧
    hostAccessRefusal plat ⟨0xFFFC, 4⟩ = none :=
  ⟨invariant_withMoves test_idle_invariant _, by decide, by decide, by decide, by decide⟩

/-- A core reads STATUS inside its own section after the end of its command, and another core while one runs. -/
theorem test_witness_StatusReadLeavesTheBlockAsItIs :
    (let s : State := { withMoves ended [rd .status] with owner := some ⟨0, true⟩ }
     s.pending = rd .status :: [] ∧ s.status.busy = false ∧ s.owner = some { core := 0, started := true }) ∧
    (withMoves (busy .copy) [rd .status]).pending = rd .status :: [] ∧ (busy .copy).status.busy = true ∧
    (idle.owner ≠ some { core := 0, started := true }) := by decide

theorem test_witness_PublishMakesEveryStoreVisible :
    let s : State := { withMoves idle [.host 0 .publish, wr .cmd 6] with
      src0 := 0x100, dst0 := 0x200, count := 2, unpublished := [0x100] }
    s.pending = .host 0 .publish :: [wr .cmd 6] ∧ s.owner = none ∧ s.status.busy = false ∧ s.eng = .idle ∧
    validate 6 (latch 6 s) = none ∧ operandRefusal s.platform (latch 6 s).ranges = none := by decide

theorem test_witness_InterleavedProgrammingIsRefused :
    let s : State := { withMoves idle [wr .count 1] with owner := some ⟨1, false⟩ }
    s.owner = some ⟨1, false⟩ ∧ (1 : Nat) ≠ 0 ∧ Reg.count ≠ .status ∧ s.pending = wr .count 1 :: [] := by decide

/-- Two moves of core 0 with BUSY = 0, the first an operand write after its command has ended. -/
theorem test_witness_OwnerFollowsTheCriticalSection :
    (∃ t, step { withMoves idle [wr .src0 5] with owner := some ⟨0, true⟩ } = .next t ∧ t.owner = some ⟨0, false⟩) ∧
    (∃ t, step { withMoves idle [rd .status] with owner := some ⟨0, false⟩ } = .next t ∧ t.owner = some ⟨0, false⟩) ∧
    (∃ t, step { withMoves idle [rd .status] with owner := some ⟨0, true⟩ } = .next t ∧ t.owner = none) :=
  ⟨⟨_, rfl, by decide⟩, ⟨_, rfl, by decide⟩, ⟨_, rfl, by decide⟩⟩

/-- Core 0 writes an operand after its command and reads STATUS: core 1 still may not program (60_exceptions.md
R244). -/
theorem test_mixed_operands_refused :
    Sys2Proof.core.run 3
      { withMoves idle [wr .src0 5, rd .status, .host 1 (.regWrite 0x18 .word 1)] with owner := some ⟨0, true⟩ } =
      .refused .interleavedProgramming := by rfl

theorem test_witness_StepRunsTheDecodedCommand :
    (withMoves idle [wr .cmd 0x00010004]).pending = wr .cmd 0x00010004 :: [] ∧ idle.owner = none ∧
    decode 0x00010004 = .command (.blend 256) ∧
    (withMoves (busy .mac) [.engine .ok]).pending = .engine .ok :: [] ∧ (withMoves (busy .mac) []).pending = [] ∧
    decode (0#15 ++ (runOf .mac).op.factor ++ 0#4 ++ (runOf .mac).op.op) = .command .mac := by decide

theorem test_witness_EveryStepKeepsTheInvariant : ∀ i ∈ commands, Invariant (busy i) ∧ ∃ t, step (busy i) = .next t := by
  intro i hi
  have : ∀ i ∈ commands, goesOn (step (busy i)) = true := by decide
  exact ⟨test_busy_invariant i hi, next_of_goesOn (this i hi)⟩

theorem test_witness_EveryCommandEnds :
    Invariant (busy .copy) ∧ (busy .copy).eng = .busy (runOf .copy) ∧ (busy .copy).pending = [] ∧
    ∃ t, Sys2Proof.core.run ((busy .copy).pending.length + 1) (busy .copy) = .next t := by
  obtain ⟨t, ht⟩ := next_of_goesOn (o := step (busy .copy)) (by decide)
  exact ⟨test_busy_invariant .copy (by decide), rfl, rfl, t, (run_next (k := 0) ht).trans rfl⟩

theorem test_witness_PseudoInstructionsProgramTheirOperands :
    (expand (.blend 0x200 0x100 2 256)).isSome = true ∧ (expand (.mac 0x200 0x240 0x100 0x180 2)).isSome = true ∧
    (256 : Nat) < 257 ∧ idle.status.busy = false ∧ idle.owner = none ∧
    expand (.copy 0x200 0x100 2) = some [.wr 0x08 0x100, .wr 0x10 0x200, .wr 0x18 2, .wr 0x00 6] := by decide

end Sys2Proof.Tests
end

section
/-! The batch and tail datapaths against the element rules (00_scope.md R14, 44_bulk_copy.md R211): the beats run
through the elements once and in order, so storing or adding beat by beat is storing or adding element by element. -/

namespace Sys2Proof.Machine

/-! ### The beats -/

/-- Full batches of `w` elements run through the first `q * w` elements in order. -/
theorem flatten_fullBatches (w q : Nat) :
    ((List.range q).map (fun b => (List.range w).map (fun j => b * w + j))).flatten = List.range (q * w) := by
  induction q with
  | zero => simp
  | succ q ih => rw [List.range_succ, List.map_append, List.flatten_append, ih, Nat.succ_mul, List.range_add]; simp

/-- The beats run through every element once, in order. -/
theorem batches_flatten (w n : Nat) : (batches w n).flatten = List.range n := by
  have tail : ((List.range (n % w)).map (fun t => [n / w * w + t])).flatten =
      (List.range (n % w)).map (fun t => n / w * w + t) := List.map_eq_flatMap.symm
  rw [batches, List.flatten_append, flatten_fullBatches, tail, ← List.range_add, Nat.div_add_mod']

/-- No beat is empty. -/
theorem ne_nil_of_mem_batches {w n : Nat} {beat : List Nat} (h : beat ∈ batches w n) : beat ≠ [] := by
  rcases List.mem_append.mp h with h | h
  · obtain ⟨b, hb, rfl⟩ := List.mem_map.mp h
    have hw : w ≠ 0 := by
      rintro rfl
      simp at hb
    simpa using hw
  · obtain ⟨t, -, rfl⟩ := List.mem_map.mp h
    simp

/-! ### Commands with a D range -/

/-- Every output element has the bytes of one destination element. -/
theorem outBytes_length {i : Instr} (hi : i ≠ .mac) (op : OpRecord) (m0 : Memory) (k : Nat) :
    (outBytes i op m0 k).length = destBytes i := by
  cases i with
  | mac => exact absurd rfl hi
  | _ => rfl

/-- Some output elements take `destBytes` bytes each. -/
theorem flatMap_outBytes_length {i : Instr} (hi : i ≠ .mac) (op : OpRecord) (m0 : Memory) (ks : List Nat) :
    (ks.flatMap (outBytes i op m0)).length = destBytes i * ks.length := by
  simp [List.length_flatMap, outBytes_length hi, Nat.mul_comm]

/-- A command with a D range stores its output elements in one run from DST0 on. -/
theorem effectOf_writes_eq {i : Instr} (hi : i ≠ .mac) (op : OpRecord) (m0 : Memory) :
    (effectOf i op m0).writes = [(op.dst0.toNat, (List.range op.n).flatMap (outBytes i op m0))] := by
  cases i with
  | mac => exact absurd rfl hi
  | copy => exact congrArg (fun bytes => [(op.dst0.toNat, bytes)]) List.map_eq_flatMap
  | _ => rfl

/-- Two adjacent writes are one. -/
theorem Memory.writeBytes_writeBytes_adjacent {m : Memory} (hm : Memory.Canonical m) (a : Nat) (bs cs : List Byte) :
    Memory.writeBytes (Memory.writeBytes m a bs) (a + bs.length) cs = Memory.writeBytes m a (bs ++ cs) := by
  refine Memory.ext (writeBytes_canonical (writeBytes_canonical hm)) (writeBytes_canonical hm) fun x => ?_
  simp only [Memory.read_writeBytes, List.length_append]
  by_cases hb : a ≤ x ∧ x < a + bs.length
  · rw [if_neg (by omega), if_pos hb, if_pos (by omega), List.getD_append _ _ _ _ (by omega)]
  · by_cases hc : a + bs.length ≤ x ∧ x < a + bs.length + cs.length
    · rw [if_pos hc, if_pos (by omega), List.getD_append_right _ _ _ _ (by omega), Nat.sub_add_eq]
    · rw [if_neg hc, if_neg hb, if_neg (by omega)]

/-- Once the elements `done` are stored, storing the beats that run through the rest stores all `n`: a beat begins
where the elements before it end. -/
theorem writeAll_beatWrites {i : Instr} (hi : i ≠ .mac) (op : OpRecord) (m0 : Memory) {m : Memory}
    (hm : Memory.Canonical m) {n : Nat} (beats : List (List Nat)) (done : List Nat)
    (hne : ∀ beat ∈ beats, beat ≠ []) (horder : done ++ beats.flatten = List.range n) :
    Memory.writeAll (Memory.writeBytes m op.dst0.toNat (done.flatMap (outBytes i op m0)))
        (beats.map (beatWrite i op m0)) =
      Memory.writeBytes m op.dst0.toNat ((List.range n).flatMap (outBytes i op m0)) := by
  induction beats generalizing done with
  | nil => simp [← horder, Memory.writeAll]
  | cons beat beats ih =>
    have hhead : beat.headD 0 = done.length := by
      obtain ⟨k, ks, rfl⟩ := List.exists_cons_of_ne_nil (hne beat (by simp))
      have hget : (List.range n)[done.length]? = some k := by simp [← horder]
      simpa using (List.getElem?_eq_some_iff.mp hget).2.symm
    have hstore : Memory.writeBytes (Memory.writeBytes m op.dst0.toNat (done.flatMap (outBytes i op m0)))
          (beatWrite i op m0 beat).1 (beatWrite i op m0 beat).2 =
        Memory.writeBytes m op.dst0.toNat ((done ++ beat).flatMap (outBytes i op m0)) := by
      rw [List.flatMap_append, ← Memory.writeBytes_writeBytes_adjacent hm, flatMap_outBytes_length hi, ← hhead]
      rfl
    rw [List.map_cons, Memory.writeAll, List.foldl_cons, hstore]
    exact ih (done ++ beat) (fun b hb => hne b (by simp [hb])) (by simpa using horder)

/-! ### MAC -/

/-- Both running sums are s32 values. -/
def MacSums.InRange (a : MacSums) : Prop :=
  (-2 ^ 31 ≤ a.left ∧ a.left < 2 ^ 31) ∧ (-2 ^ 31 ≤ a.right ∧ a.right < 2 ^ 31)

/-- A beat leaves both sums wrapped. -/
theorem macBeat_inRange (a : MacSums) (taps : List MacTap) : (macBeat a taps).InRange :=
  ⟨wrapS32_range _, wrapS32_range _⟩

/-- With no tap a beat changes nothing. -/
theorem macBeat_nil {a : MacSums} (ha : a.InRange) : macBeat a [] = a := by
  obtain ⟨⟨hl, hl'⟩, hr, hr'⟩ := ha
  simp [macBeat, wrapS32_of_range hl hl', wrapS32_of_range hr hr']

/-- The first tap of a beat can be added on its own: if an exact sum leaves the s32 range there, both sides report
the overflow, and if none does, the wrap changes nothing. -/
theorem macBeat_cons (a : MacSums) (t : MacTap) (taps : List MacTap) :
    macBeat a (t :: taps) = macBeat (macStep a t) taps := by
  by_cases hout : outsideS32 (a.left + t.sl * t.k) = true ∨ outsideS32 (a.right + t.sr * t.k) = true
  · rcases hout with h | h <;>
      simp [macBeat, macStep, wrapS32_add, List.range_succ_eq_map, List.any_map, h, add_assoc]
  · obtain ⟨hl, hr⟩ := not_or.mp hout
    have hl' : wrapS32 (a.left + t.sl * t.k) = a.left + t.sl * t.k := by
      rw [outsideS32_iff] at hl
      exact wrapS32_of_range (by omega) (by omega)
    have hr' : wrapS32 (a.right + t.sr * t.k) = a.right + t.sr * t.k := by
      rw [outsideS32_iff] at hr
      exact wrapS32_of_range (by omega) (by omega)
    simp [macBeat, macStep, hl', hr', hl, hr, List.range_succ_eq_map, List.any_map, Function.comp_def, add_assoc]

/-- A beat adds its taps in the reference order (43_audio_mac.md R193). -/
theorem macBeat_eq_foldl {a : MacSums} (ha : a.InRange) (taps : List MacTap) :
    macBeat a taps = taps.foldl macStep a := by
  induction taps generalizing a with
  | nil => exact macBeat_nil ha
  | cons t taps ih => rw [macBeat_cons, ih ⟨wrapS32_range _, wrapS32_range _⟩, List.foldl_cons]

/-- Beat after beat adds all taps in the reference order. -/
theorem foldl_macBeat {a : MacSums} (ha : a.InRange) (tap : Nat → MacTap) (beats : List (List Nat)) :
    beats.foldl (fun acc beat => macBeat acc (beat.map tap)) a = (beats.flatten.map tap).foldl macStep a := by
  induction beats generalizing a with
  | nil => rfl
  | cons beat beats ih =>
    rw [List.foldl_cons, ih (macBeat_inRange _ _), macBeat_eq_foldl ha, List.flatten_cons, List.map_append,
      List.foldl_append]

/-! ### The obligation -/

/-- The stores of all beats leave the memory that the element rule leaves. -/
theorem writeAll_batchedWrites {i : Instr} (hi : i ≠ .mac) (op : OpRecord) (m0 : Memory) {m : Memory}
    (hm : Memory.Canonical m) :
    Memory.writeAll m (batchedWrites i op m0) = Memory.writeAll m (effectOf i op m0).writes := by
  rw [effectOf_writes_eq hi]
  exact writeAll_beatWrites hi op m0 hm _ [] (fun _ => ne_nil_of_mem_batches) (batches_flatten _ _)

/-- The sums through the beats are those of the element rule. -/
theorem batchedSums_eq_macSums (op : OpRecord) (m0 : Memory) : batchedSums op m0 = macSums op m0 := by
  rw [batchedSums, foldl_macBeat (macStart_range op m0), batches_flatten, macSums]

/-- Settles O36: the beats run through the elements once and in order; adjacent stores join into one, and a beat of
MAC adds its taps one by one. -/
theorem batchAndTailDatapathsAgree : Obligations.BatchAndTailDatapathsAgree :=
  ⟨fun _ op m0 _ hi hm => writeAll_batchedWrites hi op m0 hm.canonical, batchedSums_eq_macSums⟩

end Sys2Proof.Machine
end

section
/-! What one access to the register window does, and what one move of the engine does (10_state.md R31 to R46,
40_command_model.md R118, 60_exceptions.md R236): the equations the statements on registers and the invariant use. -/

namespace Sys2Proof.Machine

/-! ### Accesses to the register window -/

section
variable {s : State} {core : Nat} {rest : List Move}

theorem hostRegWrite_status (core : Nat) (w : Word) (s : State) :
    hostRegWrite core (regOffset .status) .word w s = .next (writeStatus w s) := by
  simp [hostRegWrite]

theorem hostRegWrite_program {reg : Reg} (hr : reg ≠ .status) (core : Nat) (v : Word) (s : State) :
    hostRegWrite core (regOffset reg) .word v s = programReg core reg v s := by
  cases reg with
  | status => exact absurd rfl hr
  | _ => rfl

/-- A read of a register but STATUS returns it (10_state.md R33, R43). -/
theorem hostRegRead_register {reg : Reg} (hr : reg ≠ .status) (core : Nat) (s : State) :
    hostRegRead core (regOffset reg) .word s = .next { s with rdata := readReg reg s } := by
  cases reg with
  | status => exact absurd rfl hr
  | _ => rfl

theorem step_statusWrite {w : Word} (h : s.pending = .host core (.regWrite (regOffset .status) .word w) :: rest) :
    step s = .next (writeStatus w { s with pending := rest }) :=
  (step_of_pending h).trans (hostRegWrite_status core w _)

theorem step_programReg {reg : Reg} {v : Word} (hr : reg ≠ .status)
    (h : s.pending = .host core (.regWrite (regOffset reg) .word v) :: rest) :
    step s = programReg core reg v { s with pending := rest } :=
  (step_of_pending h).trans (hostRegWrite_program hr core v _)

theorem step_readReg {reg : Reg} (hr : reg ≠ .status)
    (h : s.pending = .host core (.regRead (regOffset reg) .word) :: rest) :
    step s = .next { s with pending := rest, rdata := readReg reg s } := by
  refine (step_of_pending h).trans ((hostRegRead_register hr core { s with pending := rest }).trans ?_)
  cases reg <;> rfl

/-- A STATUS read returns STATUS and shows the ends of the commands. -/
theorem step_statusRead (h : s.pending = .host core (.regRead (regOffset .status) .word) :: rest) :
    step s = .next (seeEnd core { s with pending := rest, rdata := s.status.toWord }) := by
  rw [step_of_pending h]
  rfl

/-- While BUSY = 1 a write to CMD or to an operand register is ignored, with WERR (10_state.md R39). -/
theorem step_programReg_busy {reg : Reg} {v : Word} (hr : reg ≠ .status)
    (h : s.pending = .host core (.regWrite (regOffset reg) .word v) :: rest) (hm : s.mayProgram core)
    (hb : s.status.busy = true) :
    step s = .next { s with
      pending := rest, owner := s.claimed core (decide (reg = .cmd)), status := s.status.setWerr } := by
  have hclaim := claim_mayProgram (c := decide (reg = .cmd)) (s := { s with pending := rest }) hm
  simp only [step_programReg hr h, programReg, hclaim, hb, if_true]
  rfl

/-- While BUSY = 0 a write to CMD enters the critical section (60_exceptions.md R244). -/
theorem step_cmdWrite {w : Word} (h : s.pending = .host core (.regWrite (regOffset .cmd) .word w) :: rest)
    (hm : s.mayProgram core) (hb : s.status.busy = false) :
    step s = writeCmd w { s with pending := rest, owner := s.claimed core true } := by
  have hclaim := claim_mayProgram (c := true) (s := { s with pending := rest }) hm
  simp only [step_programReg (reg := .cmd) (by decide) h, programReg, decide_true, hclaim, hb, Bool.false_eq_true,
    if_false, if_true]
  rfl

/-- While BUSY = 0 a write to an operand register is made (10_state.md R43). -/
theorem step_operandWrite {reg : Reg} {v : Word} (hc : reg ≠ .cmd) (hr : reg ≠ .status)
    (h : s.pending = .host core (.regWrite (regOffset reg) .word v) :: rest) (hm : s.mayProgram core)
    (hb : s.status.busy = false) :
    step s = .next (writeOperand reg v { s with pending := rest, owner := s.claimed core false }) := by
  have hclaim := claim_mayProgram (c := false) (s := { s with pending := rest }) hm
  simp only [step_programReg hr h, programReg, hc, decide_false, hclaim, hb, Bool.false_eq_true, if_false]
  rfl

end

/-! ### The step -/

/-- A step that goes on is a reset, a move of the engine, one beside a STATUS write, or a move of the host. -/
theorem step_cases {s t : State} (h : step s = .next t) :
    (s.nextMove = .reset ∧ t = resetInput s.popMove) ∨
    (∃ answer, s.nextMove = .engine answer ∧ engineMove answer s.popMove = .next t) ∨
    (∃ v answer, s.nextMove = .statusWriteWithEngine v answer ∧
      engineMove answer (writeStatus v s.popMove) = .next t) ∨
    (∃ core op, s.nextMove = .host core op ∧ hostMove core op s.popMove = .next t) := by
  rw [step_eq] at h
  cases hm : s.nextMove with
  | reset =>
    rw [hm] at h
    exact .inl ⟨rfl, (Host.Outcome.next.inj h).symm⟩
  | engine answer =>
    rw [hm] at h
    exact .inr (.inl ⟨answer, rfl, h⟩)
  | statusWriteWithEngine v answer =>
    rw [hm] at h
    exact .inr (.inr (.inl ⟨v, answer, rfl, h⟩))
  | host core op =>
    rw [hm] at h
    exact .inr (.inr (.inr ⟨core, op, rfl, h⟩))

/-! ### A write to CMD while BUSY = 0 -/

/-- A write to CMD accepts the word, or runs the meaning of a command while the engine is BUSY. -/
theorem writeCmd_cases (w : Word) (s : State) :
    writeCmd w s = accept w s ∨ ∃ run i, s.eng = .busy run ∧ writeCmd w s = .next (finish i (effectOf i) run s) := by
  cases he : s.eng with
  | idle => exact .inl (writeCmd_idle he)
  | busy run =>
    unfold writeCmd
    cases decode w with
    | command i => exact .inr ⟨run, i, rfl, exec_busy he⟩
    | illegal => exact .inl rfl
    | factor => exact .inl rfl

/-- An acceptance leaves WERR (40_command_model.md R110). -/
theorem accept_werr {w : Word} {s t : State} (h : accept w s = .next t) : t.status.werr = s.status.werr := by
  rcases accept_next h with ⟨e, -, rfl⟩ | ⟨-, rfl⟩ <;> rfl

theorem writeCmd_werr {w : Word} {s t : State} (h : writeCmd w s = .next t) : t.status.werr = s.status.werr := by
  rcases writeCmd_cases w s with ha | ⟨run, i, -, hf⟩
  · exact accept_werr (ha.symm.trans h)
  · obtain ⟨-, -, -, -, -, -, hw, -⟩ := finish_frame i run s
    obtain rfl := Host.Outcome.next.inj (hf.symm.trans h)
    exact hw

/-! ### The engine's move -/

/-- The ways an engine move that goes on ends: nothing to do, a bus error, a completion of a raced command, a
completion. -/
theorem engineMove_ends {answer : BusAnswer} {s t : State} (h : engineMove answer s = .next t) :
    (s.eng = .idle ∧ t = s) ∨
    (∃ run i, s.eng = .busy run ∧ run.op.instr? = some i ∧
      (t = endWithBusError (writeRanges i run.op) run s ∨
        (t = completeRaced (writeRanges i run.op) (mayOverflow i run.op) run s ∧ run.raced = true) ∨
        (t = complete run (effectOf i run.op run.m0) s ∧ run.raced = false))) := by
  rcases engineMove_cases h with hidle | ⟨run, i, he, hi, ⟨ht, -⟩ | ⟨ht, -⟩⟩
  · exact .inl hidle
  · exact .inr ⟨run, i, he, hi, .inl ht⟩
  · refine .inr ⟨run, i, he, hi, ?_⟩
    rcases finish_cases i (effectOf i) run s with ⟨hf, -⟩ | ⟨hf, hr⟩ | ⟨hf, hr⟩
    · exact .inl (ht.trans hf)
    · exact .inr (.inl ⟨ht.trans hf, hr⟩)
    · exact .inr (.inr ⟨ht.trans hf, hr⟩)

@[simp] theorem readReg_popMove (reg : Reg) (s : State) : readReg reg s.popMove = readReg reg s := by
  cases reg <;> rfl

theorem readReg_writeStatus {reg : Reg} (h : reg ≠ .status) (w : Word) (s : State) :
    readReg reg (writeStatus w s) = readReg reg s := by
  cases reg with
  | status => exact absurd rfl h
  | _ => rfl

/-- The engine writes no register but STATUS, and leaves WERR (10_state.md R39, R43). -/
theorem engineMove_registers {answer : BusAnswer} {s t : State} (h : engineMove answer s = .next t) :
    (∀ reg, reg ≠ .status → readReg reg t = readReg reg s) ∧ t.status.werr = s.status.werr := by
  have registers : t.cmd = s.cmd ∧ t.src0 = s.src0 ∧ t.src1 = s.src1 ∧ t.dst0 = s.dst0 ∧ t.dst1 = s.dst1 ∧
      t.count = s.count ∧ t.status.werr = s.status.werr := by
    rcases engineMove_ends h with ⟨-, rfl⟩ | ⟨run, i, -, -, rfl | ⟨rfl, -⟩ | ⟨rfl, -⟩⟩ <;> simp
  obtain ⟨hcmd, hsrc0, hsrc1, hdst0, hdst1, hcount, hwerr⟩ := registers
  refine ⟨fun reg hr => ?_, hwerr⟩
  cases reg with
  | cmd => exact hcmd
  | status => exact absurd rfl hr
  | src0 => exact hsrc0
  | src1 => exact hsrc1
  | dst0 => exact hdst0
  | dst1 => exact hdst1
  | count => exact hcount

end Sys2Proof.Machine
end

section
/-! The invariant (10_state.md R46, 40_command_model.md R111): it holds after reset, and every move keeps it. -/

namespace Sys2Proof.Machine

/-! ### STATUS stays coherent -/

theorem Status.Good.reset : Status.reset.Good := by
  constructor <;> simp [Status.reset]

theorem Status.Good.hostWrite {st : Status} (h : st.Good) (w : Word) : (st.hostWrite w).Good where
  busy_done := fun hb => by simp [h.busy_done hb]
  busy_err := fun hb => by simp [h.busy_err hb]
  code_zero := by
    rw [Status.hostWrite_errcode, Status.hostWrite_err]
    cases w.getLsbD 2 with
    | false => simpa using h.code_zero
    | true => simp
  code_bound := by
    rw [Status.hostWrite_errcode]
    cases w.getLsbD 2 with
    | false => exact h.code_bound
    | true => simp

theorem Status.Good.setWerr {st : Status} (h : st.Good) : st.setWerr.Good :=
  ⟨h.busy_done, h.busy_err, h.code_zero, h.code_bound⟩

/-- A validated command starts with DONE, ERR and ERRCODE clear (40_command_model.md R110, R113). -/
theorem Status.Good.start_onAccept (st : Status) : st.onAccept.start.Good := by
  constructor <;> simp

theorem ErrKind.code_ne_zero (e : ErrKind) : e.code ≠ 0 := by cases e <;> decide

theorem ErrKind.code_le (e : ErrKind) : e.code.toNat ≤ 6 := by cases e <;> decide

theorem Status.Good.endError (e : ErrKind) (st : Status) : (st.endError e).Good :=
  ⟨by simp, by simp, iff_of_false e.code_ne_zero (by simp), e.code_le⟩

theorem Status.Good.endDone {st : Status} (h : st.Good) (b : Bool) : (st.endDone b).Good :=
  ⟨by simp, by simp, h.code_zero, h.code_bound⟩

/-! ### Moves of the host -/

theorem Invariant.popMove {s : State} (h : Invariant s) : Invariant s.popMove :=
  ⟨h.mem_wf, h.status, h.engine, h.unread⟩

/-- The race mark apart, the engine and the registers decide `EngineGood`. -/
theorem SameBlock.engineGood {s t : State} (h : SameBlock s t) (hs : EngineGood s) : EngineGood t := by
  cases he : s.eng with
  | idle =>
    simp only [EngineGood, he] at hs
    simpa only [EngineGood, h.idle he, h.status] using hs
  | busy run =>
    obtain ⟨run', he', hop, hm0⟩ := h.busy run he
    simp only [EngineGood, he] at hs
    obtain ⟨hb, hg, hlatch, hcmd⟩ := hs
    have hl : latch t.cmd t = latch s.cmd s := by
      simp only [latch, h.cmd, h.src0, h.src1, h.dst0, h.dst1, h.count]
    simp only [EngineGood, he', h.status, hop, hl]
    exact ⟨hb, ⟨by rw [hm0]; exact hg.snapshot_wf, by rw [hop]; exact hg.valid⟩, hlatch, hcmd.trans h.cmd.symm⟩

theorem Invariant.of_sameBlock {s t : State} (h : Invariant s) (hst : SameBlock s t) (hm : Memory.Wf t.mem)
    (hu : ∀ run ∈ t.unread, run.Good) : Invariant t :=
  ⟨hm, by rw [hst.status]; exact h.status, hst.engineGood h.engine, hu⟩

/-- A read of the register window leaves memory and only forgets ended commands. -/
theorem hostRegRead_mem {core : Nat} {off : BitVec 8} {size : Size} {s t : State}
    (h : hostRegRead core off size s = .next t) : t.mem = s.mem ∧ ∀ run ∈ t.unread, run ∈ s.unread := by
  unfold hostRegRead at h
  split at h
  · simp at h
  · split at h <;> simp only [Host.Outcome.next.injEq] at h <;> subst h
    · exact ⟨rfl, fun _ hr => hr⟩
    · refine ⟨seeEnd_mem _ core, fun run hr => ?_⟩
      unfold seeEnd at hr
      split at hr
      · exact hr
      · simp at hr
    · exact ⟨rfl, fun _ hr => hr⟩

theorem Invariant.hostRegRead {core : Nat} {off : BitVec 8} {size : Size} {s t : State} (hi : Invariant s)
    (h : hostRegRead core off size s = .next t) : Invariant t := by
  obtain ⟨hm, hu⟩ := hostRegRead_mem h
  exact hi.of_sameBlock (hostRegRead_sameBlock h) (by rw [hm]; exact hi.mem_wf) fun run hr => hi.unread run (hu run hr)

theorem Invariant.storeData {addr : Word} {size : Size} {s : State} (hi : Invariant s)
    (hb : addr.toNat + size.bytes ≤ Config.addressSpace) (v : Word) (visible : Bool) :
    Invariant (storeData addr size v visible s) := by
  obtain ⟨hm, hu⟩ := storeData_wf (v := v) (visible := visible) hb hi.mem_wf hi.unread
  exact hi.of_sameBlock (storeData_sameBlock addr size v visible s) hm (by rw [hu]; exact hi.unread)

theorem Invariant.writeStatus {s : State} (h : Invariant s) (w : Word) : Invariant (writeStatus w s) :=
  ⟨h.mem_wf, h.status.hostWrite w, h.engine, h.unread⟩

theorem Invariant.setWerr {s : State} (h : Invariant s) (o : Option Session) :
    Invariant { s with owner := o, status := s.status.setWerr } :=
  ⟨h.mem_wf, h.status.setWerr, h.engine, h.unread⟩

theorem Invariant.withOwner {s : State} (h : Invariant s) (o : Option Session) : Invariant { s with owner := o } :=
  ⟨h.mem_wf, h.status, h.engine, h.unread⟩

theorem EngineGood.of_idle {s : State} (he : s.eng = .idle) (hb : s.status.busy = false) : EngineGood s := by
  simpa only [EngineGood, he] using hb

/-- While BUSY = 0 no record ties the operand registers. -/
theorem Invariant.writeOperand {s : State} (h : Invariant s) (hb : s.status.busy = false) (reg : Reg) (v : Word) :
    Invariant (writeOperand reg v s) where
  mem_wf := by simpa using h.mem_wf
  status := by simpa using h.status
  engine := EngineGood.of_idle (by simpa using eng_of_not_busy h hb) (by simpa using hb)
  unread := by simpa using h.unread

/-- The record that an acceptance latches is validated, and its snapshot canonical. -/
theorem startRun_good {w : Word} {s s1 : State} (hv : validate w (latch w s) = none) (hm : Memory.Wf s1.mem) :
    Run.Good { op := latch w s, m0 := snapshot (latch w s) s1, raced := false } ∧ (latch w s).word = w := by
  obtain ⟨i, hd, ho⟩ := validate_eq_none hv
  have hw : (latch w s).word = w := latch_word (by simp [hd])
  have hi : (latch w s).instr? = some i := instr?_eq_some.mpr (by rw [hw]; exact hd)
  exact ⟨⟨snapshot_wf hi (validateOperands_eq_none ho).2.1 hm, by rw [hw]; exact hv⟩, hw⟩

theorem Invariant.accept {w : Word} {s t : State} (h : Invariant s) (ha : accept w s = .next t) : Invariant t := by
  rcases accept_next ha with ⟨e, -, rfl⟩ | ⟨hv, rfl⟩
  · exact ⟨h.mem_wf, Status.Good.endError e _, EngineGood.of_idle rfl rfl, h.unread⟩
  · obtain ⟨hg, hw⟩ := startRun_good (s1 := { s with cmd := w, status := s.status.onAccept }) hv h.mem_wf
    exact ⟨h.mem_wf, Status.Good.start_onAccept _, ⟨rfl, hg, rfl, hw⟩, h.unread⟩

/-- A host register write keeps the invariant: an ignored write, a STATUS write, an acceptance, an operand write. -/
theorem Invariant.hostRegWrite {core : Nat} {off : BitVec 8} {size : Size} {v : Word} {s t : State}
    (hi : Invariant s) (h : hostRegWrite core off size v s = .next t) : Invariant t := by
  rcases hostRegWrite_cases h with ⟨-, rfl⟩ | ⟨-, rfl⟩ | ⟨reg, o, -, -, ⟨-, rfl⟩ | ⟨hb, -, hc⟩ | ⟨hb, -, rfl⟩⟩
  · exact hi
  · exact hi.writeStatus v
  · exact hi.setWerr o
  · have he : s.eng = .idle := eng_of_not_busy hi hb
    exact (hi.withOwner o).accept ((writeCmd_idle (s := { s with owner := o }) he).symm.trans hc)
  · exact (hi.withOwner o).writeOperand hb reg v

theorem Invariant.hostMove {core : Nat} {op : HostOp} {s t : State} (hi : Invariant s)
    (h : hostMove core op s = .next t) : Invariant t := by
  cases op with
  | regWrite off size v => exact hi.hostRegWrite h
  | regRead off size => exact hi.hostRegRead h
  | publish =>
    obtain rfl := Host.Outcome.next.inj h
    exact ⟨hi.mem_wf, hi.status, hi.engine, hi.unread⟩
  | load addr size =>
    simp only [Machine.hostMove, hostLoad] at h
    split at h
    · simp at h
    · split at h
      · exact hi.hostRegRead h
      · split at h
        · simp at h
        · obtain rfl := Host.Outcome.next.inj h
          exact ⟨hi.mem_wf, hi.status, hi.engine, hi.unread⟩
  | store addr size v visible =>
    simp only [Machine.hostMove, hostStore] at h
    split at h
    · simp at h
    · rename_i hspace
      split at h
      · exact hi.hostRegWrite h
      · split at h
        · simp at h
        · obtain rfl := Host.Outcome.next.inj h
          exact hi.storeData (Nat.le_of_not_lt hspace) v visible

/-! ### Moves of the engine, and reset -/

/-- A bus error or a completion moves the command to the unread ones and leaves the engine IDLE. -/
theorem Invariant.engineMove {answer : BusAnswer} {s t : State} (hi : Invariant s)
    (h : engineMove answer s = .next t) : Invariant t := by
  rcases engineMove_ends h with ⟨-, rfl⟩ | ⟨run, i, he, hinstr, hends⟩
  · exact hi
  · have hg : run.Good := run_good hi he
    have hu : ∀ q ∈ run :: s.unread, q.Good := List.forall_mem_cons.mpr ⟨hg, hi.unread⟩
    obtain ⟨j, hj, hr⟩ := good_ranges hg
    obtain rfl : j = i := Option.some.inj (hj.symm.trans hinstr)
    have hd : Memory.Wf (drawBytes s.draws (writeRanges j run.op) s.mem) :=
      drawBytes_wf hi.mem_wf (ranges_bounded hr).1
    rcases hends with rfl | ⟨rfl, -⟩ | ⟨rfl, -⟩
    · exact ⟨hd, Status.Good.endError .bus _, EngineGood.of_idle rfl rfl, hu⟩
    · exact ⟨hd, hi.status.endDone _, EngineGood.of_idle rfl rfl, hu⟩
    · exact ⟨complete_wf hi.mem_wf hr, hi.status.endDone _, EngineGood.of_idle rfl rfl, hu⟩

/-- Reset frees the write ranges of a running command, which lie inside the address space. -/
theorem Invariant.resetInput {s : State} (hi : Invariant s) : Invariant (resetInput s) := by
  have hmem : Memory.Wf (Machine.resetInput s).mem ∧ (Machine.resetInput s).unread = s.unread := by
    unfold Machine.resetInput
    cases he : s.eng with
    | idle => exact ⟨hi.mem_wf, rfl⟩
    | busy run => exact ⟨drawBytes_wf hi.mem_wf (good_writes (run_good hi he)), rfl⟩
  obtain ⟨hm, hu⟩ := hmem
  exact ⟨hm, Status.Good.reset, EngineGood.of_idle rfl rfl, by rw [hu]; exact hi.unread⟩

/-! ### The obligations -/

/-- Settles O48: every kind of move keeps the invariant. -/
theorem everyStepKeepsTheInvariant : Obligations.EveryStepKeepsTheInvariant := by
  intro s t hi h
  rcases step_cases h with ⟨-, rfl⟩ | ⟨answer, -, h⟩ | ⟨v, answer, -, h⟩ | ⟨core, op, -, h⟩
  · exact hi.popMove.resetInput
  · exact hi.popMove.engineMove h
  · exact (hi.popMove.writeStatus v).engineMove h
  · exact hi.popMove.hostMove h

/-- Settles O47: the engine is IDLE after reset, no command is unread, and memory at power-up is canonical. -/
theorem resetMeetsTheInvariant : Obligations.ResetMeetsTheInvariant :=
  ⟨Memory.powerUp_wf, Status.Good.reset, EngineGood.of_idle rfl rfl, by simp [State.reset]⟩

/-- Settles O41. -/
theorem resetStateIsAllZero : Obligations.ResetStateIsAllZero :=
  ⟨rfl, by decide, rfl, rfl, rfl, rfl, rfl, rfl⟩

end Sys2Proof.Machine
end

section
/-! Accesses to STATUS and to reserved offsets (10_state.md R32 to R34, R41, R42). -/

namespace Sys2Proof.Machine

/-! ### The STATUS word -/

/-- The flags of STATUS stand in bits 0 to 4 (10_state.md R34). -/
theorem Status.toWord_flags (st : Status) :
    st.toWord.getLsbD 0 = st.busy ∧ st.toWord.getLsbD 1 = st.done ∧ st.toWord.getLsbD 2 = st.err ∧
    st.toWord.getLsbD 3 = st.ovf ∧ st.toWord.getLsbD 4 = st.werr := by
  simp only [Status.toWord, BitVec.getLsbD_append]
  simp

/-- ERRCODE stands in bits [11:8], and the bits below and above it are 0 (10_state.md R34, R41). -/
theorem Status.toWord_fields (st : Status) :
    st.toWord.extractLsb' 5 3 = 0 ∧ st.toWord.extractLsb' 8 4 = st.errcode ∧ st.toWord.extractLsb' 12 20 = 0 := by
  refine ⟨?_, ?_, ?_⟩ <;> apply BitVec.eq_of_getLsbD_eq <;> intro i hi <;>
    simp only [Status.toWord, BitVec.getLsbD_append, BitVec.getLsbD_extractLsb']
  · interval_cases i <;> simp
  · interval_cases i <;> simp
  · simp
    omega

/-- Only bits 1 to 4 of a written value have an effect (10_state.md R41, R42). -/
theorem Status.hostWrite_mask (w : Word) (st : Status) : st.hostWrite (w &&& 0x1E) = st.hostWrite w := by
  simp [Status.hostWrite]

/-- While BUSY = 1 a STATUS read shows the end of no command. -/
theorem step_statusRead_busy {s : State} {core : Nat} {rest : List Move} (hb : s.status.busy = true)
    (h : s.pending = .host core (.regRead (regOffset .status) .word) :: rest) :
    step s = .next { s with pending := rest, rdata := s.status.toWord } := by
  simp [step_statusRead h, seeEnd, hb]

/-- A STATUS read of BUSY = 0 shows the end of every ended command (20_memory.md R70) and ends the section of a core
that has written CMD (60_exceptions.md R244). -/
theorem step_statusRead_ended {s : State} {core : Nat} {rest : List Move} (hb : s.status.busy = false)
    (h : s.pending = .host core (.regRead (regOffset .status) .word) :: rest) :
    step s = .next { s with
      pending := rest, rdata := s.status.toWord, unread := []
      owner := if s.owner = some { core := core, started := true } then none else s.owner } := by
  simp [step_statusRead h, seeEnd, hb]

/-- Outside every critical section any core may program the block. -/
theorem State.mayProgram_of_owner_none {s : State} (h : s.owner = none) (core : Nat) : s.mayProgram core := by
  simp [State.mayProgram, h]

@[simp] theorem seeEnd_rdata (core : Nat) (s : State) : (seeEnd core s).rdata = s.rdata := by
  unfold seeEnd
  split <;> rfl

/-! ### A STATUS write in the same step as the end of a command -/

/-- How a running command ends does not depend on STATUS, and the end sets STATUS in one of two ways. -/
theorem finish_withStatus (i : Instr) (eff : OpRecord → Memory → Effect) (run : Run) (s : State) :
    ∃ (u : State) (set : Status → Status), (set = Status.endError .bus ∨ ∃ b, set = Status.endDone b) ∧
      ∀ st, finish i eff run { s with status := st } = { u with status := set st } := by
  by_cases hb : accessFails s.platform (accessRanges i run.op) = true
  · exact ⟨endWithBusError (writeRanges i run.op) run s, _, .inl rfl, fun st => if_pos hb⟩
  · by_cases hr : run.raced = true
    · exact ⟨completeRaced (writeRanges i run.op) (mayOverflow i run.op) run s, _,
        .inr ⟨mayOverflow i run.op && Config.freeBit s.draws 0, rfl⟩, fun st => (if_neg hb).trans (if_pos hr)⟩
    · exact ⟨complete run (eff run.op run.m0) s, _, .inr ⟨_, rfl⟩, fun st => (if_neg hb).trans (if_neg hr)⟩

theorem engineMove_withStatus {answer : BusAnswer} {s : State} {run : Run} {i : Instr} (he : s.eng = .busy run)
    (hi : run.op.instr? = some i) :
    ∃ (u : State) (set : Status → Status), (set = Status.endError .bus ∨ ∃ b, set = Status.endDone b) ∧
      ∀ st, engineMove answer { s with status := st } = .next { u with status := set st } := by
  by_cases ha : answeredWithError answer s.platform i run.op = true
  · exact ⟨endWithBusError (writeRanges i run.op) run s, _, .inl rfl, fun st =>
      (engineMove_busy (s := { s with status := st }) he hi).1 ha⟩
  · obtain ⟨u, set, hset, hu⟩ := finish_withStatus i (effectOf i) run s
    refine ⟨u, set, hset, fun st => ?_⟩
    rw [(engineMove_busy (s := { s with status := st }) he hi).2 (by simpa using ha), hu]

/-! ### The obligations -/

/-- Settles O4: the fields of the STATUS word, and the mask of the written bits. -/
theorem statusReservedBitsReadZero : Obligations.StatusReservedBitsReadZero := by
  constructor
  · intro s core rest h
    refine ⟨_, step_statusRead h, ?_⟩
    rw [seeEnd_rdata]
    obtain ⟨hbusy, hdone, herr, hovf, hwerr⟩ := s.status.toWord_flags
    exact ⟨hbusy, hdone, herr, hovf, hwerr, s.status.toWord_fields⟩
  · intro s core w rest
    rw [step_statusWrite (w := w) rfl, step_statusWrite (w := w &&& 0x1E) rfl]
    simp only [writeStatus, Status.hostWrite_mask]

/-- Settles O52: what is read is STATUS, and only the records of what the host has seen change. -/
theorem statusReadLeavesTheBlockAsItIs : Obligations.StatusReadLeavesTheBlockAsItIs := by
  intro s core rest h
  cases hb : s.status.busy with
  | true => exact ⟨_, step_statusRead_busy hb h, rfl, fun _ => rfl, nofun⟩
  | false =>
    refine ⟨_, step_statusRead_ended hb h, rfl, nofun, fun _ => ⟨rfl, fun ho => ?_, fun ho => if_neg ho⟩⟩
    have hnone : (if s.owner = some { core := core, started := true } then none else s.owner) = none := if_pos ho
    exact ⟨hnone, State.mayProgram_of_owner_none hnone⟩

/-- Settles O5: the host's write comes first and the engine's set second. -/
theorem statusWriteClearsTheWrittenBits : Obligations.StatusWriteClearsTheWrittenBits := by
  constructor
  · intro s core w rest h
    rw [step_statusWrite h]
    have clear : ∀ a b : Bool, (a && !b) = if b then false else a := by decide
    simp only [writeStatus, Status.hostWrite, clear]
  · intro s w answer rest run i h he hi
    obtain ⟨u, set, hset, hu⟩ :=
      engineMove_withStatus (answer := answer) (s := { s with pending := rest }) (run := run) he hi
    refine ⟨{ u with status := set _ }, hu _, ?_⟩
    rw [step_of_pending h]
    refine (hu (s.status.hostWrite w)).trans ?_
    rcases hset with rfl | ⟨b, rfl⟩
    · simp [Status.endError, Status.hostWrite, ErrKind.code, Bool.and_comm]
    · simp [Status.endDone, Status.hostWrite, Bool.and_comm, Bool.or_comm]

/-- Settles O6: no register stands at a reserved offset. -/
theorem reservedOffsetsReadZeroAndIgnoreWrites : Obligations.ReservedOffsetsReadZeroAndIgnoreWrites := by
  intro s core off v rest hoff halign
  have hnone : regAt off = none := regAt_reserved off hoff
  have hok : regAccessOk off .word = true := by simp [regAccessOk, halign]
  constructor
  · intro h
    rw [step_of_pending h]
    simp [doMove, hostMove, hostRegRead, hok, hnone]
  · intro h
    rw [step_of_pending h]
    simp [doMove, hostMove, hostRegWrite, hok, hnone]

end Sys2Proof.Machine
end

section
/-! The form of register accesses, operand registers, and writes to CMD (10_state.md R30, R31, R33, R43,
40_command_model.md R110). -/

namespace Sys2Proof.Machine

/-! ### The form of an access -/

theorem regAccessOk_iff {off : BitVec 8} {size : Size} :
    regAccessOk off size = true ↔ size = .word ∧ off.toNat % 4 = 0 := by
  simp [regAccessOk]

/-- The operands of a command are refused for where they lie, never for the form of an access (log entry 10). -/
theorem operandRefusal_ne_form (p : Platform) (rs : List Range) :
    operandRefusal p rs ≠ some .registerAccessForm := by
  unfold operandRefusal
  split_ifs <;> simp

theorem accept_ne_form (w : Word) (s : State) : accept w s ≠ .refused .registerAccessForm := by
  rcases accept_cases w s with ⟨e, -, ha⟩ | ⟨-, r, hr, ha⟩ | ⟨-, -, ha⟩
  · simp [ha]
  · rw [ha]
    rintro ⟨⟩
    exact operandRefusal_ne_form _ _ hr
  · simp [ha]

theorem programReg_ne_form (core : Nat) (reg : Reg) (v : Word) (s : State) :
    programReg core reg v s ≠ .refused .registerAccessForm := by
  unfold programReg
  split
  · simp
  · split
    · simp
    · split
      · rename_i s1 _ _ _
        rcases writeCmd_cases v s1 with ha | ⟨run, i, -, hf⟩
        · rw [ha]
          exact accept_ne_form v s1
        · simp [hf]
      · simp

theorem hostRegRead_refused {off : BitVec 8} {size : Size} (h : regAccessOk off size = false) (core : Nat)
    (s : State) : hostRegRead core off size s = .refused .registerAccessForm := by
  simp [hostRegRead, h]

theorem hostRegWrite_refused {off : BitVec 8} {size : Size} (h : regAccessOk off size = false) (core : Nat)
    (v : Word) (s : State) : hostRegWrite core off size v s = .refused .registerAccessForm := by
  simp [hostRegWrite, h]

theorem hostRegRead_next {off : BitVec 8} {size : Size} (h : regAccessOk off size = true) (core : Nat) (s : State) :
    ∃ t, hostRegRead core off size s = .next t := by
  unfold hostRegRead
  rw [if_neg (by simp [h])]
  split <;> exact ⟨_, rfl⟩

theorem hostRegWrite_ne_form {off : BitVec 8} {size : Size} (h : regAccessOk off size = true) (core : Nat) (v : Word)
    (s : State) : hostRegWrite core off size v s ≠ .refused .registerAccessForm := by
  unfold hostRegWrite
  rw [if_neg (by simp [h])]
  split
  · simp
  · simp
  · exact programReg_ne_form core _ v s

/-! ### A bus address inside the window -/

theorem windowOffset_eq {p : Platform} {addr : Word} {off : BitVec 8} (h : p.regBase.toNat ≤ addr.toNat)
    (hoff : off.toNat = addr.toNat - p.regBase.toNat) : windowOffset p addr = off := by
  apply BitVec.eq_of_toNat_eq
  have hlt := off.isLt
  rw [windowOffset, BitVec.toNat_setWidth, BitVec.toNat_sub_of_le (BitVec.le_def.mpr h), ← hoff]
  exact Nat.mod_eq_of_lt hlt

section
variable {s : State} {addr : Word} {size : Size} (hspace : addr.toNat + size.bytes ≤ Config.addressSpace)
  (hwin : (Platform.window s.platform).holds addr.toNat = true)
include hspace hwin

/-- A bus load inside the window is the register read at its offset (10_state.md R30). -/
theorem hostLoad_window (core : Nat) :
    hostLoad core addr size s = hostRegRead core (windowOffset s.platform addr) size s := by
  unfold hostLoad
  rw [if_neg (Nat.not_lt.mpr hspace), if_pos hwin]

theorem hostStore_window (core : Nat) (v : Word) (visible : Bool) :
    hostStore core addr size v visible s = hostRegWrite core (windowOffset s.platform addr) size v s := by
  unfold hostStore
  rw [if_neg (Nat.not_lt.mpr hspace), if_pos hwin]
end

/-! ### Operand registers -/

section
variable (reg : Reg) (v : Word) (s : State)

@[simp] theorem writeOperand_src0 : (writeOperand reg v s).src0 = if reg = .src0 then v else s.src0 := by
  cases reg <;> rfl
@[simp] theorem writeOperand_src1 : (writeOperand reg v s).src1 = if reg = .src1 then v else s.src1 := by
  cases reg <;> rfl
@[simp] theorem writeOperand_dst0 : (writeOperand reg v s).dst0 = if reg = .dst0 then v else s.dst0 := by
  cases reg <;> rfl
@[simp] theorem writeOperand_dst1 : (writeOperand reg v s).dst1 = if reg = .dst1 then v else s.dst1 := by
  cases reg <;> rfl
@[simp] theorem writeOperand_count : (writeOperand reg v s).count = if reg = .count then v else s.count := by
  cases reg <;> rfl

/-- A write to an operand register changes operand registers alone. -/
theorem writeOperand_eq :
    writeOperand reg v s =
      { s with
        src0 := (writeOperand reg v s).src0, src1 := (writeOperand reg v s).src1, dst0 := (writeOperand reg v s).dst0
        dst1 := (writeOperand reg v s).dst1, count := (writeOperand reg v s).count } := by
  cases reg <;> rfl

variable {reg}

theorem readReg_writeOperand_same (hc : reg ≠ .cmd) (hs : reg ≠ .status) :
    readReg reg (writeOperand reg v s) = v := by
  cases reg with
  | cmd => exact absurd rfl hc
  | status => exact absurd rfl hs
  | _ => rfl

theorem readReg_writeOperand_of_ne {r : Reg} (h : r ≠ reg) : readReg r (writeOperand reg v s) = readReg r s := by
  cases r <;> simp [readReg, h.symm]
end

/-- No move of the engine writes a register but STATUS, alone or beside a STATUS write. -/
theorem step_engine_register {reg : Reg} (hr : reg ≠ .status) {s t : State} (he : s.nextMove.isEngine = true)
    (h : step s = .next t) : readReg reg t = readReg reg s := by
  rcases step_cases h with ⟨hm, -⟩ | ⟨answer, -, h⟩ | ⟨v, answer, -, h⟩ | ⟨core, op, hm, -⟩
  · simp [hm, Move.isEngine] at he
  · exact ((engineMove_registers h).1 reg hr).trans (readReg_popMove reg s)
  · exact ((engineMove_registers h).1 reg hr).trans ((readReg_writeStatus hr v _).trans (readReg_popMove reg s))
  · simp [hm, Move.isEngine] at he

/-! ### Acceptance -/

section
variable {w : Word} {s : State}

theorem accept_error {e : ErrKind} (h : validate w (latch w s) = some e) :
    accept w s = .next (endWithError e { s with cmd := w, status := s.status.onAccept }) := by
  simp [accept, h]

theorem accept_refused {r : Refusal} (h : validate w (latch w s) = none)
    (hr : operandRefusal s.platform (latch w s).ranges = some r) : accept w s = .refused r := by
  simp [accept, h, hr]

theorem accept_start (h : validate w (latch w s) = none)
    (hr : operandRefusal s.platform (latch w s).ranges = none) :
    accept w s = .next (startRun (latch w s) { s with cmd := w, status := s.status.onAccept }) := by
  simp [accept, h, hr]
end

/-- A validation error on a block with BUSY = 0 sets DONE, ERR and ERRCODE alone (60_exceptions.md R233). -/
theorem Status.endError_onAccept {st : Status} (h : st.busy = false) (e : ErrKind) :
    st.onAccept.endError e = { st with done := true, err := true, errcode := e.code } := by
  simp [Status.endError, Status.onAccept, h]

/-- Where every host store is visible the snapshot is data memory (20_memory.md R69). -/
theorem snapshot_of_published {op : OpRecord} {s : State} (h : s.unpublished = []) : snapshot op s = s.mem := by
  simp [snapshot, h, Memory.writeAll]

/-! ### The obligations -/

/-- Settles O7: the form is checked before the register is chosen, and the window maps bus addresses to offsets. -/
theorem onlyAlignedWordAccessesHaveMeaning : Obligations.OnlyAlignedWordAccessesHaveMeaning := by
  intro s core off size v rest
  refine ⟨fun hform => ?_, fun hform => ?_, fun addr visible hlo hhi hspace hoff => ?_⟩
  · have hno : regAccessOk off size = false := by
      rw [← Bool.not_eq_true, regAccessOk_iff]
      tauto
    exact ⟨fun h => (step_of_pending h).trans (hostRegRead_refused hno core _),
      fun h => (step_of_pending h).trans (hostRegWrite_refused hno core v _)⟩
  · have hok : regAccessOk off size = true := regAccessOk_iff.mpr hform
    refine ⟨fun h => ?_, fun h => ?_⟩
    · rw [step_of_pending h]
      exact hostRegRead_next hok core _
    · rw [step_of_pending h]
      exact hostRegWrite_ne_form hok core v _
  · have hwin : (Platform.window s.platform).holds addr.toNat = true := Range.holds_iff.mpr ⟨hlo, hhi⟩
    have hw : windowOffset s.platform addr = off := windowOffset_eq hlo hoff
    refine ⟨fun h => ?_, fun h => ?_⟩
    · rw [step_of_pending h, ← hw]
      exact hostLoad_window (s := { s with pending := rest }) hspace hwin core
    · rw [step_of_pending h, ← hw]
      exact hostStore_window (s := { s with pending := rest }) hspace hwin core v visible

/-- The five rows of the statement are the operand registers at their offsets, 0 after reset (10_state.md R43, R50). -/
theorem operandReg_rows {reg : Reg} {off : BitVec 8} {value : State → Word}
    (h : (reg, off, value) ∈ [(Reg.src0, 0x08#8, State.src0), (.src1, 0x0C#8, State.src1), (.dst0, 0x10#8, State.dst0),
      (.dst1, 0x14#8, State.dst1), (.count, 0x18#8, State.count)]) :
    reg ≠ .cmd ∧ reg ≠ .status ∧ off = regOffset reg ∧ value = readReg reg ∧ readReg reg State.reset = 0 := by
  simp only [List.mem_cons, Prod.mk.injEq, List.not_mem_nil, or_false] at h
  rcases h with ⟨rfl, rfl, rfl⟩ | ⟨rfl, rfl, rfl⟩ | ⟨rfl, rfl, rfl⟩ | ⟨rfl, rfl, rfl⟩ | ⟨rfl, rfl, rfl⟩ <;>
    exact ⟨by decide, by decide, rfl, rfl, rfl⟩

/-- Settles O8: each of the five is written and read at its offset, and no end of a command touches it. -/
theorem operandRegistersStoreAndReadBack : Obligations.OperandRegistersStoreAndReadBack := by
  intro reg off value hrow
  obtain ⟨hcmd, hstatus, rfl, rfl, hreset⟩ := operandReg_rows hrow
  refine ⟨fun s core v rest h hm => ⟨fun hb => ?_, fun hb => ?_⟩, fun s core rest h => step_readReg hstatus h,
    fun s t he h => ?_, hreset⟩
  · refine ⟨_, step_operandWrite hcmd hstatus h hm hb, readReg_writeOperand_same _ _ hcmd hstatus,
      fun r hr => (readReg_writeOperand_of_ne _ _ hr).trans ?_, writeOperand_eq _ _ _⟩
    cases r <;> rfl
  · rw [step_programReg_busy hstatus h hm hb, decide_eq_false hcmd]
    rfl
  · exact step_engine_register hstatus he h

/-- Settles O14: the write is ignored while BUSY = 1, and the acceptance of the word otherwise. -/
theorem cmdWriteIsCommandAcceptance : Obligations.CmdWriteIsCommandAcceptance := by
  intro s core w rest h hm
  refine ⟨fun hb => step_programReg_busy (reg := .cmd) (by decide) h hm hb, fun hb he => ?_⟩
  have hacc : step s = accept w { s with pending := rest, owner := s.claimed core true } :=
    (step_cmdWrite h hm hb).trans (writeCmd_idle he)
  rw [hacc]
  refine ⟨fun e hv => ?_, fun r hv hr => accept_refused hv hr, fun hv hr => ⟨_, ?_, ?_, accept_start hv hr⟩⟩
  · rw [accept_error (s := { s with pending := rest, owner := s.claimed core true }) hv, endWithError,
      Status.endError_onAccept hb, he]
  · intro a ha
    rw [read_snapshot, if_neg]
    rintro ⟨hstale, r, hr, hin⟩
    exact ha.elim (fun hn => hn hstale) (fun hn => hn r hr hin)
  · exact fun hpub => snapshot_of_published hpub

/-! ### The step runs a command -/

/-- An engine move without a bus error is the meaning of the latched command (40_command_model.md R118). -/
theorem engineMove_ok {s : State} {run : Run} {i : Instr} (he : s.eng = .busy run) (hi : run.op.instr? = some i) :
    engineMove .ok s = exec i s := by
  rw [(engineMove_busy he hi).2 rfl, exec_busy he]

/-- Settles O46: the word that decodes, or the latched record, chooses the meaning. -/
theorem stepRunsTheDecodedCommand : Obligations.StepRunsTheDecodedCommand := by
  refine ⟨fun s core w rest i h hm hb hd => ?_, fun s run rest i h he hd => ?_, fun s run i h he hd => ?_⟩
  · rw [step_cmdWrite h hm hb, writeCmd, hd]
  · exact (step_of_pending h).trans (engineMove_ok (s := { s with pending := rest }) he (instr?_eq_some.mpr hd))
  · rw [step, h]
    exact engineMove_ok he (instr?_eq_some.mpr hd)

end Sys2Proof.Machine
end

section
/-! STATUS and CMD after any step of a good state (10_state.md R33 to R40). -/

namespace Sys2Proof.Machine

/-! ### What a host move does to STATUS and CMD -/

/-- In a good state a host move leaves STATUS and CMD, or makes one register write: to STATUS, to CMD (ignored while
BUSY = 1, else an acceptance that ends in an error or starts), or to an operand register. -/
theorem hostMove_status_cases {core : Nat} {op : HostOp} {s t : State} (hi : Invariant s)
    (h : hostMove core op s.popMove = .next t) :
    ((Move.host core op).registerWrite s.platform = none ∧ t.status = s.status ∧ t.cmd = s.cmd) ∨
    (∃ v, (Move.host core op).registerWrite s.platform = some (.status, v) ∧ t.status = s.status.hostWrite v ∧
      t.cmd = s.cmd) ∨
    (∃ w, (Move.host core op).registerWrite s.platform = some (.cmd, w) ∧
      ((s.status.busy = true ∧ t.status = s.status.setWerr ∧ t.cmd = s.cmd) ∨
        (∃ e, s.status.busy = false ∧ validate w (latch w s) = some e ∧ t.status = s.status.onAccept.endError e ∧
          t.cmd = w) ∨
        (s.status.busy = false ∧ validate w (latch w s) = none ∧ t.status = s.status.onAccept.start ∧ t.cmd = w))) ∨
    (∃ reg v, (Move.host core op).registerWrite s.platform = some (reg, v) ∧ reg ≠ .status ∧ reg ≠ .cmd ∧
      (∃ b, t.status = { s.status with werr := b }) ∧ t.cmd = s.cmd) := by
  rcases hostMove_cases_good hi h with ⟨hr, hb⟩ | ⟨v, hr, rfl⟩ | ⟨reg, v, o, hr, hne, hc⟩
  · exact .inl ⟨hr, hb.status, hb.cmd⟩
  · exact .inr (.inl ⟨v, hr, rfl, rfl⟩)
  · by_cases hcmd : reg = .cmd
    · subst hcmd
      refine .inr (.inr (.inl ⟨v, hr, ?_⟩))
      rcases hc with ⟨hb, rfl⟩ | ⟨hb, -, ha⟩ | ⟨-, habs, -⟩
      · exact .inl ⟨hb, rfl, rfl⟩
      · rcases accept_next ha with ⟨e, hv, rfl⟩ | ⟨hv, rfl⟩
        · exact .inr (.inl ⟨e, hb, hv, rfl, rfl⟩)
        · exact .inr (.inr ⟨hb, hv, rfl, rfl⟩)
      · exact absurd rfl habs
    · refine .inr (.inr (.inr ⟨reg, v, hr, hne, hcmd, ?_⟩))
      rcases hc with ⟨hb, rfl⟩ | ⟨-, habs, -⟩ | ⟨hb, -, rfl⟩
      · exact ⟨⟨true, rfl⟩, rfl⟩
      · exact absurd habs hcmd
      · exact ⟨⟨s.status.werr, by simp⟩, by simp⟩

/-- WERR after a host move, and that a write that sets it is ignored (10_state.md R39). -/
theorem hostMove_werr_cases {core : Nat} {op : HostOp} {s t : State} (h : hostMove core op s = .next t) :
    ((Move.host core op).registerWrite s.platform = none ∧ t.status.werr = s.status.werr) ∨
    (∃ v, (Move.host core op).registerWrite s.platform = some (.status, v) ∧
      t.status.werr = (s.status.werr && !v.getLsbD 4)) ∨
    (∃ reg v, (Move.host core op).registerWrite s.platform = some (reg, v) ∧ reg ≠ .status ∧
      t.status.werr = (s.status.werr || s.status.busy) ∧
      (s.status.busy = true → t = { s with owner := t.owner, status := s.status.setWerr })) := by
  rcases hostMove_cases h with ⟨hr, hb⟩ | ⟨v, hr, rfl⟩ | ⟨reg, v, o, hr, hne, hc⟩
  · exact .inl ⟨hr, by rw [hb.status]⟩
  · exact .inr (.inl ⟨v, hr, rfl⟩)
  · refine .inr (.inr ⟨reg, v, hr, hne, ?_⟩)
    rcases hc with ⟨hb, rfl⟩ | ⟨hb, -, hc⟩ | ⟨hb, -, rfl⟩
    · exact ⟨by simp [hb], fun _ => rfl⟩
    · exact ⟨by simp [writeCmd_werr hc, hb], fun hb' => by simp [hb] at hb'⟩
    · exact ⟨by simp [hb], fun hb' => by simp [hb] at hb'⟩

/-- Of the moves of the host only a STATUS write touches OVF (10_state.md R38). -/
theorem hostMove_ovf_cases {core : Nat} {op : HostOp} {s t : State} (hi : Invariant s)
    (h : hostMove core op s.popMove = .next t) :
    (t.status.ovf = s.status.ovf ∧ ∀ v, (Move.host core op).registerWrite s.platform ≠ some (.status, v)) ∨
    (∃ v, (Move.host core op).registerWrite s.platform = some (.status, v) ∧
      t.status.ovf = (s.status.ovf && !v.getLsbD 3)) := by
  rcases hostMove_status_cases hi h with
    ⟨hr, hst, -⟩ | ⟨v, hr, hst, -⟩ | ⟨w, hr, hcmd⟩ | ⟨reg, v, hr, hs, -, ⟨b, hst⟩, -⟩
  · exact .inl ⟨by rw [hst], by simp [hr]⟩
  · exact .inr ⟨v, hr, by rw [hst]; rfl⟩
  · refine .inl ⟨?_, by simp [hr]⟩
    rcases hcmd with ⟨-, hst, -⟩ | ⟨e, -, -, hst, -⟩ | ⟨-, -, hst, -⟩ <;> rw [hst] <;> rfl
  · exact .inl ⟨by rw [hst], by simp [hr, hs]⟩

/-- BUS is no outcome of validation (60_exceptions.md R231). -/
theorem validate_ne_bus (w : Word) (op : OpRecord) : validate w op ≠ some .bus := by
  unfold validate
  cases decode w with
  | illegal => simp
  | factor => simp
  | command i =>
    simp only [validateOperands]
    split_ifs <;> simp

/-! ### What an engine move does to STATUS -/

section
variable {answer : BusAnswer} {s t : State}

/-- After the engine's move BUSY is 0, and DONE is set if a command has ended (10_state.md R35, R36). -/
theorem engineMove_busy_done (hi : Invariant s) (h : engineMove answer s = .next t) :
    t.status.busy = false ∧ t.status.done = (s.status.done || s.status.busy) := by
  rcases engineMove_ends h with ⟨he, rfl⟩ | ⟨run, i, he, -, hends⟩
  · simp [not_busy_of_eng hi he]
  · have hb := busy_of_eng hi he
    rcases hends with rfl | ⟨rfl, -⟩ | ⟨rfl, -⟩ <;> simp [hb]

/-- The engine leaves ERR and ERRCODE or ends in BUS (10_state.md R37, 60_exceptions.md R231, R236). -/
theorem engineMove_err (hi : Invariant s) (h : engineMove answer s = .next t) :
    (t.status.err = s.status.err ∧ t.status.errcode = s.status.errcode) ∨
      (s.status.busy = true ∧ t.status.err = true ∧ t.status.errcode = 6) := by
  rcases engineMove_ends h with ⟨-, rfl⟩ | ⟨run, i, he, -, rfl | ⟨rfl, -⟩ | ⟨rfl, -⟩⟩
  · exact .inl ⟨rfl, rfl⟩
  · exact .inr ⟨busy_of_eng hi he, rfl, rfl⟩
  · exact .inl ⟨rfl, rfl⟩
  · exact .inl ⟨rfl, rfl⟩

/-- Only the sums of a MAC overflow. -/
theorem effectOf_ovf {i : Instr} {op : OpRecord} {m0 : Memory} :
    (effectOf i op m0).ovf = true ↔ i = .mac ∧ (macSums op m0).ovf = true := by
  cases i with
  | mac => simp [effectOf, macEffect_ovf]
  | _ => simp [effectOf, conv15cEffect, conv15nEffect, conv32Effect, blendEffect, copyEffect, pixelEffect]

/-- Without taps there is no sum to overflow (43_audio_mac.md R195). -/
theorem macSums_ovf_of_count_eq_zero {op : OpRecord} (h : op.count = 0) (m0 : Memory) :
    (macSums op m0).ovf = false := by
  simp [macSums, OpRecord.n, h, macStart]

theorem mayOverflow_eq_false {i : Instr} {op : OpRecord} (h : i ≠ .mac ∨ op.count = 0) : mayOverflow i op = false := by
  cases i with
  | mac =>
    have hn : op.n = 0 := by simp [OpRecord.n, h.resolve_left (fun hne => hne rfl)]
    simp [mayOverflow, hn]
  | _ => rfl

/-- The command has not been raced, or it can have no overflow of its own. -/
def Run.OvfKnown (run : Run) : Prop := run.raced = false ∨ run.op.instr? ≠ some .mac ∨ run.op.count = 0

/-- OVF is sticky over the end of a command, and gains the overflow of a MAC unless the command ends in a bus error
(10_state.md R38). -/
theorem engineMove_ovf (h : engineMove answer s = .next t) (hk : ∀ run, s.eng = .busy run → run.OvfKnown) :
    (s.status.ovf = true → t.status.ovf = true) ∧
    (t.status.ovf = true → s.status.ovf = true ∨
      ∃ run, s.eng = .busy run ∧ run.op.instr? = some .mac ∧ (macSums run.op run.m0).ovf = true) ∧
    (∀ run, s.eng = .busy run → run.op.instr? = some .mac → (macSums run.op run.m0).ovf = true →
      t.status.err = false → t.status.ovf = true) := by
  rcases engineMove_ends h with ⟨he, rfl⟩ | ⟨run, i, he, hinstr, hends⟩
  · exact ⟨id, .inl, fun run hrun => by simp [he] at hrun⟩
  have hrun : ∀ q, s.eng = .busy q → q = run := fun q hq => Engine.busy.inj (hq.symm.trans he)
  rcases hends with rfl | ⟨rfl, hraced⟩ | ⟨rfl, -⟩
  · exact ⟨id, .inl, fun q _ _ _ herr => by simp at herr⟩
  · have hno : i ≠ .mac ∨ run.op.count = 0 := by
      rcases hk run he with hr | hr | hr
      · simp [hraced] at hr
      · exact .inl fun himac => hr (himac ▸ hinstr)
      · exact .inr hr
    have hovf : (completeRaced (writeRanges i run.op) (mayOverflow i run.op) run s).status.ovf = s.status.ovf := by
      simp [mayOverflow_eq_false hno]
    rw [hovf]
    refine ⟨id, .inl, fun q hq hmac hsum _ => ?_⟩
    obtain rfl := hrun q hq
    obtain rfl : i = .mac := Option.some.inj (hinstr.symm.trans hmac)
    have hzero := macSums_ovf_of_count_eq_zero (hno.resolve_left (fun hne => hne rfl)) q.m0
    simp [hzero] at hsum
  · have hovf : (complete run (effectOf i run.op run.m0) s).status.ovf =
        (s.status.ovf || (effectOf i run.op run.m0).ovf) := rfl
    rw [hovf, Bool.or_eq_true, effectOf_ovf]
    refine ⟨.inl, fun ht => ht.imp_right ?_, fun q hq hmac hsum _ => .inr ?_⟩
    · rintro ⟨rfl, hsum⟩
      exact ⟨run, he, hinstr, hsum⟩
    · obtain rfl := hrun q hq
      exact ⟨Option.some.inj (hinstr.symm.trans hmac), hsum⟩
end

/-! ### The obligations -/

/-- Settles O9: the engine leaves WERR, and of the host's writes only those of STATUS clear it. -/
theorem werrChangesExactlyAsStated : Obligations.WerrChangesExactlyAsStated := by
  intro s t h
  rcases step_cases h with ⟨hm, rfl⟩ | ⟨answer, hm, h⟩ | ⟨v, answer, hm, h⟩ | ⟨core, op, hm, h⟩ <;> rw [hm]
  · exact ⟨rfl, nofun⟩
  · exact ⟨(engineMove_registers h).2, nofun⟩
  · refine ⟨(engineMove_registers h).2, fun reg v' _ hw hne => ?_⟩
    cases hw
    exact absurd rfl hne
  · rcases hostMove_werr_cases (s := s.popMove) h with
      ⟨hr, hwerr⟩ | ⟨v, hr, hwerr⟩ | ⟨reg, v, hr, hne, hwerr, hignored⟩ <;>
      rw [popMove_platform] at hr <;> simp only [hr]
    · exact ⟨hwerr, nofun⟩
    · refine ⟨hwerr, fun reg v' _ hw hne => ?_⟩
      cases hw
      exact absurd rfl hne
    · refine ⟨?_, fun _ _ hb _ _ => hignored hb⟩
      cases reg with
      | status => exact absurd rfl hne
      | _ => exact hwerr

/-- Settles O10: over an engine move OVF is sticky and follows the sums of a MAC; of the host's moves only a STATUS
write touches it. -/
theorem ovfIsSetOnlyByMacAndIsSticky : Obligations.OvfIsSetOnlyByMacAndIsSticky := by
  intro s t hi h hk
  rcases step_cases h with ⟨hm, rfl⟩ | ⟨answer, hm, h⟩ | ⟨v, answer, hm, h⟩ | ⟨core, op, hm, h⟩ <;> rw [hm]
  · exact ⟨nofun, fun _ _ => .inl rfl, nofun, fun _ => rfl, nofun⟩
  · obtain ⟨hkeep, hset, hmac⟩ := engineMove_ovf (s := s.popMove) h hk
    exact ⟨fun ht => (hset ht).imp_right fun hrun => ⟨rfl, hrun⟩, fun hs ht => by simp [hkeep hs] at ht,
      fun run _ => hmac run, nofun, nofun⟩
  · obtain ⟨hkeep, hset, hmac⟩ := engineMove_ovf (s := writeStatus v s.popMove) h hk
    refine ⟨fun ht => ?_, fun hs ht => .inr ⟨v, rfl, ?_⟩, fun run _ => hmac run, nofun, nofun⟩
    · exact (hset ht).imp (fun hs => (Bool.and_eq_true_iff.mp hs).1) fun hrun => ⟨rfl, hrun⟩
    · by_contra hv
      have hkept : t.status.ovf = true := hkeep (by simpa [hs] using hv)
      simp [hkept] at ht
  · rcases hostMove_ovf_cases hi h with ⟨hsame, hno⟩ | ⟨v, hr, hwrite⟩
    · refine ⟨fun ht => .inl (hsame ▸ ht), fun hs ht => by simp [hsame, hs] at ht, nofun, nofun, fun _ w he _ => ?_⟩
      exact absurd (by rw [he]; rfl) (hno w)
    · refine ⟨fun ht => ?_, fun hs ht => .inr ⟨v, hr, ?_⟩, nofun, nofun, fun _ w he hw => ?_⟩
      · rw [hwrite, Bool.and_eq_true] at ht
        exact .inl ht.1
      · simpa [hwrite, hs] using ht
      · obtain rfl : w = v := by
          rw [he] at hr
          exact (Prod.mk.inj (Option.some.inj hr)).2
        simp [hwrite, hw]

/-- Settles O11: the engine ends a command and sets DONE; of the host's moves an acceptance sets one of BUSY and DONE,
and a STATUS write clears DONE. -/
theorem busyAndDoneFollowTheCommand : Obligations.BusyAndDoneFollowTheCommand := by
  intro s t hi h
  rcases step_cases h with ⟨hm, rfl⟩ | ⟨answer, hm, h⟩ | ⟨v, answer, hm, h⟩ | ⟨core, op, hm, h⟩ <;> rw [hm]
  · exact ⟨rfl, rfl⟩
  · exact engineMove_busy_done (s := s.popMove) hi.popMove h
  · exact engineMove_busy_done (hi.popMove.writeStatus v) h
  · rcases hostMove_status_cases hi h with
      ⟨hr, hst, -⟩ | ⟨v, hr, hst, -⟩ | ⟨w, hr, hcmd⟩ | ⟨reg, v, hr, hs, hc, ⟨b, hst⟩, -⟩
    · simp [hr, hst]
    · simp [hr, hst]
    · simp only [hr]
      rcases hcmd with ⟨hb, hst, -⟩ | ⟨e, hb, hv, hst, -⟩ | ⟨hb, hv, hst, -⟩
      · simp [hst, hb]
      · simp [hst, hb, hv]
      · simp [hst, hb, hv]
    · simp only [hr]
      cases reg with
      | cmd => exact absurd rfl hc
      | status => exact absurd rfl hs
      | _ => exact ⟨by rw [hst], by rw [hst]⟩

/-- Settles O12: acceptance writes the code of its error or clears both, and the engine leaves both or writes BUS. -/
theorem errAndErrcodeFollowTheCommand : Obligations.ErrAndErrcodeFollowTheCommand := by
  intro s t hi h
  refine ⟨(everyStepKeepsTheInvariant s t hi h).status.code_zero.mpr, ?_⟩
  rcases step_cases h with ⟨hm, rfl⟩ | ⟨answer, hm, h⟩ | ⟨v, answer, hm, h⟩ | ⟨core, op, hm, h⟩ <;> rw [hm]
  · exact ⟨rfl, rfl⟩
  · exact engineMove_err (s := s.popMove) hi.popMove h
  · exact engineMove_err (hi.popMove.writeStatus v) h
  · rcases hostMove_status_cases hi h with
      ⟨hr, hst, -⟩ | ⟨v, hr, hst, -⟩ | ⟨w, hr, hcmd⟩ | ⟨reg, v, hr, hs, hc, ⟨b, hst⟩, -⟩
    · simp [hr, hst]
    · simp [hr, hst]
    · simp only [hr]
      rcases hcmd with ⟨hb, hst, -⟩ | ⟨e, hb, hv, hst, -⟩ | ⟨hb, hv, hst, -⟩
      · simp [hst, hb]
      · simp only [hst, hb, hv]
        cases e with
        | bus => exact absurd hv (validate_ne_bus _ _)
        | _ => exact ⟨rfl, rfl⟩
      · simp [hst, hb, hv]
    · simp only [hr]
      cases reg with
      | cmd => exact absurd rfl hc
      | status => exact absurd rfl hs
      | _ => exact ⟨by rw [hst], by rw [hst]⟩

/-- Settles O13: the engine and every other write leave CMD. -/
theorem cmdHoldsTheLastAcceptedWord : Obligations.CmdHoldsTheLastAcceptedWord := by
  refine ⟨fun s t hi h => ?_, fun s core rest h => step_readReg (reg := .cmd) (by decide) h⟩
  rcases step_cases h with ⟨hm, rfl⟩ | ⟨answer, hm, h⟩ | ⟨v, answer, hm, h⟩ | ⟨core, op, hm, h⟩ <;> rw [hm]
  · rfl
  · exact (engineMove_registers h).1 .cmd (by decide)
  · exact (engineMove_registers h).1 .cmd (by decide)
  · rcases hostMove_status_cases hi h with
      ⟨hr, -, hcmd⟩ | ⟨v, hr, -, hcmd⟩ | ⟨w, hr, hw⟩ | ⟨reg, v, hr, hs, hc, -, hcmd⟩
    · simp only [hr, hcmd]
    · simp only [hr, hcmd]
    · simp only [hr]
      rcases hw with ⟨hb, -, hcmd⟩ | ⟨e, hb, -, -, hcmd⟩ | ⟨hb, -, -, hcmd⟩ <;> simp [hcmd, hb]
    · simp only [hr]
      cases reg with
      | cmd => exact absurd rfl hc
      | status => exact absurd rfl hs
      | _ => exact hcmd

end Sys2Proof.Machine
end

section
/-! A host store to data memory, and the end of a command whose ranges it met (20_memory.md R61, R68, R69,
70_reset_and_hazards.md R266). -/

namespace Sys2Proof.Machine

/-! ### The race mark and the record of stores not yet visible -/

/-- The race mark of a running command one of whose ranges the store meets (20_memory.md R68). -/
theorem markRaces_eng_busy {written : Range} {s : State} {run : Run} (he : s.eng = .busy run) :
    (markRaces written s).eng =
      .busy { run with raced := run.raced || run.op.ranges.any (fun r => r.intersects written) } := by
  unfold markRaces
  dsimp only
  split <;> simp only [he]

/-- A store meets one of the ranges. -/
theorem any_intersects_iff {rs : List Range} {addr len : Nat} (hlen : 0 < len) :
    rs.any (fun r => r.intersects ⟨addr, len⟩) = true ↔
      ∃ r ∈ rs, 0 < r.len ∧ r.base < addr + len ∧ addr < r.base + r.len := by
  simp only [List.any_eq_true, Range.intersects_iff, hlen, true_and]

theorem Size.bytes_pos (size : Size) : 0 < size.bytes := by cases size <;> decide

section
variable (addr : Word) (size : Size) (v : Word) (visible : Bool) (s : State)

/-- A host store changes memory, the race mark, the record of stores not yet visible and the draw counter alone. -/
theorem storeData_eq :
    storeData addr size v visible s =
      { s with
        mem := (storeData addr size v visible s).mem, eng := (storeData addr size v visible s).eng
        unpublished := (storeData addr size v visible s).unpublished
        draws := (storeData addr size v visible s).draws } := by
  unfold storeData markRaces
  dsimp only
  split <;> rfl

variable {addr size v visible s}

theorem storeData_eng_busy {run : Run} (he : s.eng = .busy run) :
    (storeData addr size v visible s).eng =
      .busy { run with
        raced := run.raced || run.op.ranges.any (fun r => r.intersects ⟨addr.toNat, size.bytes⟩) } := by
  unfold storeData
  exact markRaces_eng_busy he

/-- The bytes of a store are visible as the store says, the others as they were (20_memory.md R69). -/
theorem mem_storeData_unpublished {a : Nat} :
    a ∈ (storeData addr size v visible s).unpublished ↔
      if addr.toNat ≤ a ∧ a < addr.toNat + size.bytes then visible = false else a ∈ s.unpublished := by
  have hu : (storeData addr size v visible s).unpublished =
      if visible then s.unpublished.filter (fun a => !Range.holds ⟨addr.toNat, size.bytes⟩ a)
      else Range.addresses ⟨addr.toNat, size.bytes⟩ ++
        s.unpublished.filter (fun a => !Range.holds ⟨addr.toNat, size.bytes⟩ a) := by
    unfold storeData markRaces
    dsimp only
    split <;> rfl
  rw [hu]
  by_cases hin : addr.toNat ≤ a ∧ a < addr.toNat + size.bytes
  · have hh : Range.holds ⟨addr.toNat, size.bytes⟩ a = true := Range.holds_iff.mpr hin
    rw [if_pos hin]
    cases visible <;> simp [Range.mem_addresses, hin, hh]
  · have hh : Range.holds ⟨addr.toNat, size.bytes⟩ a = false := Range.holds_eq_false.mpr hin
    rw [if_neg hin]
    cases visible <;> simp [Range.mem_addresses, hin, hh]

/-- The destination bytes of an ended, unread command that a store meets become free values. -/
theorem read_storeData_of_hit {a : Nat} {q : Run} (hq : q ∈ s.unread)
    (hhit : q.op.ranges.any (fun r => r.intersects ⟨addr.toNat, size.bytes⟩) = true)
    (ha : ∃ r ∈ q.op.writes, r.base ≤ a ∧ a < r.base + r.len) :
    Memory.read (storeData addr size v visible s).mem a = Config.freeByte s.draws a := by
  unfold storeData
  exact markRaces_mem_of_hit hq hhit ha
end

/-! ### The end of a raced command -/

theorem finish_raced {i : Instr} {eff : OpRecord → Memory → Effect} {run : Run} {s : State}
    (hb : accessFails s.platform (accessRanges i run.op) = false) (hr : run.raced = true) :
    finish i eff run s = completeRaced (writeRanges i run.op) (mayOverflow i run.op) run s := by
  simp [finish, hb, hr]

/-! ### The obligation -/

/-- Settles O42: a store marks the running command it meets and frees the results of the unread ones it meets, and a
marked command completes with free values. -/
theorem hostWriteIntoRunningRangesFreesTheResult : Obligations.HostWriteIntoRunningRangesFreesTheResult := by
  constructor
  · intro s core addr size v visible rest h hspace hwin hmem met writes
    have met_iff : ∀ run : Run,
        run.op.ranges.any (fun r => r.intersects ⟨addr.toNat, size.bytes⟩) = true ↔ met run :=
      fun run => any_intersects_iff size.bytes_pos
    have hstep : step s = .next (storeData addr size v visible { s with pending := rest }) :=
      (step_of_pending h).trans (hostStore_data (s := { s with pending := rest }) hspace hwin hmem)
    have hblock := storeData_sameBlock addr size v visible { s with pending := rest }
    refine ⟨_, hstep, storeData_eq _ _ _ _ _, hblock.idle, fun run he => ⟨_, storeData_eng_busy he, rfl, rfl, ?_⟩,
      fun a => mem_storeData_unpublished, fun q hq hmet a ha => ?_, fun a ha => ?_⟩
    · rw [Bool.or_eq_true, met_iff]
    · exact read_storeData_of_hit hq ((met_iff q).mpr hmet) ha
    · exact read_storeData fun q hq hhit r hr hin => ha q hq ((met_iff q).mp hhit) ⟨r, hr, hin⟩
  · intro i s run he hr hb
    have hexec : exec i s = .next (completeRaced (writeRanges i run.op) (mayOverflow i run.op) run s) := by
      rw [exec_busy he, finish_raced hb hr]
    refine ⟨_, hexec, rfl, rfl, rfl, fun ho => by simp [ho], fun hno => by simp [mayOverflow_eq_false hno],
      fun r hm a h1 h2 => read_drawBytes_of_mem ⟨r, hm, h1, h2⟩, fun a ha => read_drawBytes_of_not_mem ha⟩

end Sys2Proof.Machine
end

section
/-! The acceptance of a command while the engine is IDLE, and the ranges an acceptance takes (20_memory.md R65, R66,
R69, 40_command_model.md R110, R113, 70_reset_and_hazards.md R268). -/

namespace Sys2Proof.Machine

/-! ### The ranges that are accepted -/

/-- The register window and a range lie apart, or the range is empty (20_memory.md R66). -/
theorem not_intersects_window {p : Platform} {r : Range} :
    ¬r.intersects (Platform.window p) = true ↔
      r.len = 0 ∨ r.base + r.len ≤ p.regBase.toNat ∨ p.regBase.toNat + 256 ≤ r.base := by
  rw [Range.intersects_iff, window_base, window_len]
  omega

/-- The ranges are accepted when they avoid the window and cover no device, no foreign memory, and no missing memory
that the bus would not report. -/
theorem operandRefusal_eq_none {p : Platform} {rs : List Range} :
    operandRefusal p rs = none ↔
      (∀ r ∈ rs, ¬r.intersects (Platform.window p) = true) ∧ ¬Platform.covers p rs (some .device) = true ∧
        ¬Platform.covers p rs (some .foreign) = true ∧
        ¬(Platform.covers p rs none = true ∧ p.hasBusError = false) := by
  unfold operandRefusal
  split_ifs with hwindow hdevice hforeign hmissing <;> simp_all

/-- What is neither a device, nor foreign, nor missing without a report is owned ordinary memory or reported. -/
theorem acceptedKind_iff {k : Option RegionKind} {b : Bool} :
    k ≠ some .device ∧ k ≠ some .foreign ∧ ¬(k = none ∧ b = false) ↔ k = some .ordinary ∨ (k = none ∧ b = true) := by
  cases k with
  | none => simp
  | some k => cases k <;> simp

/-- Settles O17: each of the four refusals rules out one kind of address. -/
theorem onlyOwnedOrdinaryMemoryIsAccepted : Obligations.OnlyOwnedOrdinaryMemoryIsAccepted := by
  intro p rs
  simp only [operandRefusal_eq_none, Platform.covers_iff, not_intersects_window, ← acceptedKind_iff]
  constructor
  · rintro ⟨hwindow, hdevice, hforeign, hmissing⟩ r hr
    exact ⟨hwindow r hr, fun a h1 h2 => ⟨fun hk => hdevice ⟨r, hr, a, h1, h2, hk⟩,
      fun hk => hforeign ⟨r, hr, a, h1, h2, hk⟩, fun hk => hmissing ⟨⟨r, hr, a, h1, h2, hk.1⟩, hk.2⟩⟩⟩
  · intro h
    have hkind := fun r hr a h1 h2 => (h r hr).2 a h1 h2
    refine ⟨fun r hr => (h r hr).1, ?_, ?_, ?_⟩
    · rintro ⟨r, hr, a, h1, h2, hk⟩
      exact (hkind r hr a h1 h2).1 hk
    · rintro ⟨r, hr, a, h1, h2, hk⟩
      exact (hkind r hr a h1 h2).2.1 hk
    · rintro ⟨⟨r, hr, a, h1, h2, hk⟩, hb⟩
      exact (hkind r hr a h1 h2).2.2 ⟨hk, hb⟩

/-! ### The words of the commands -/

/-- A well-formed command's word decodes to it (30_encoding.md R94). -/
theorem decode_encode {i : Instr} (h : i.wellFormed = true) : decode (encode i) = .command i := by
  rw [encode, decode_packWord]
  cases i with
  | blend f => simp [decodeFields, opcode, factorOf, h]
  | _ => rfl

/-- A BLEND with a factor above 256 is refused by the decoder (30_encoding.md R92). -/
theorem decode_encode_blend {f : BitVec 9} (h : 256 < f.toNat) : decode (encode (.blend f)) = .factor := by
  rw [encode, decode_packWord]
  simp [decodeFields, opcode, factorOf, Instr.wellFormed, Nat.not_le.mpr h]

/-- OP stands in the low byte of a packed word, FACTOR from bit 8 on (30_encoding.md R90). -/
theorem packWord_eq (op : BitVec 4) (f : BitVec 9) : packWord op f = op.setWidth 32 ||| (f.setWidth 32 <<< 8) := by
  apply BitVec.eq_of_toNat_eq
  have hop : op.toNat % 2 ^ 32 = op.toNat := Nat.mod_eq_of_lt (by omega)
  have hf : f.toNat % 2 ^ 32 = f.toNat := Nat.mod_eq_of_lt (by omega)
  have hplace : f.toNat <<< 8 % 2 ^ 32 = f.toNat <<< 8 := Nat.mod_eq_of_lt (by rw [Nat.shiftLeft_eq]; omega)
  rw [BitVec.toNat_or, BitVec.toNat_shiftLeft, BitVec.toNat_setWidth, BitVec.toNat_setWidth, hop, hf, hplace,
    Nat.or_comm, packWord]
  simp only [BitVec.toNat_append]
  simp [← Nat.shiftLeft_add]

/-- The record latched from a command's word stands for the command. -/
theorem instr?_latch_encode {i : Instr} (h : i.wellFormed = true) (s : State) :
    (latch (encode i) s).instr? = some i := by
  have hd := decode_encode h
  rw [instr?_eq_some, latch_word (by simp [hd]), hd]

theorem validate_encode {i : Instr} (h : i.wellFormed = true) (op : OpRecord) :
    validate (encode i) op = validateOperands i op := by
  simp only [validate, decode_encode h]

/-! ### The acceptance -/

/-- While the engine is IDLE a validation error changes CMD, DONE, ERR and ERRCODE alone (60_exceptions.md R233). -/
theorem accept_error_idle {w : Word} {s : State} {e : ErrKind} (he : s.eng = .idle) (hb : s.status.busy = false)
    (hv : validate w (latch w s) = some e) :
    accept w s = .next { s with
      cmd := w, status := { s.status with done := true, err := true, errcode := e.code } } := by
  rw [accept_error hv, endWithError, Status.endError_onAccept hb, ← he]

/-- Settles O16: a command is accepted as its word, and the snapshot is what `read_snapshot` says. -/
theorem idleCommandStartsOrEndsInError : Obligations.IdleCommandStartsOrEndsInError := by
  refine ⟨fun f s hf he hb => ?_, fun i s hwf he hb => ?_⟩
  · have hv : validate (encode (.blend f)) (latch (encode (.blend f)) s) = some .factor := by
      simp only [validate, decode_encode_blend hf]
    rw [exec_idle he, accept_error_idle he hb hv, encode, packWord_eq]
    rfl
  · rw [exec_idle he, ← validate_encode hwf]
    have hranges : (latch (encode i) s).ranges = operandRanges i (latch (encode i) s) := by
      simp only [OpRecord.ranges, instr?_latch_encode hwf]
    have hreads : (latch (encode i) s).reads = readRanges i (latch (encode i) s) := by
      simp only [OpRecord.reads, instr?_latch_encode hwf]
    refine ⟨fun e hv => accept_error_idle he hb hv, fun hv => ⟨fun r hr => ?_, fun hr => ?_⟩⟩
    · exact accept_refused hv (hranges ▸ hr)
    · refine ⟨_, accept_start hv (hranges ▸ hr), fun a ha => ?_, fun a hstale hcount hread => ?_⟩
      · rw [read_snapshot, if_neg]
        rintro ⟨hstale, r, hr, hin⟩
        obtain ⟨hcount, hr⟩ := OpRecord.mem_loads.mp hr
        rcases ha with hn | hn | hn
        · exact hn hstale
        · exact hcount hn
        · exact hn r (hreads ▸ hr) hin
      · obtain ⟨r, hr, hin⟩ := hread
        rw [read_snapshot, if_pos ⟨hstale, r, OpRecord.mem_loads.mpr ⟨hcount, hreads ▸ hr⟩, hin⟩]

/-- The publish move empties the record of stores not yet visible (20_memory.md R69). -/
theorem step_publish {s : State} {core : Nat} {rest : List Move} (h : s.pending = .host core .publish :: rest) :
    step s = .next { s with pending := rest, unpublished := [] } :=
  step_of_pending h

/-- With no store left to publish, a valid command is accepted with data memory as its snapshot. -/
theorem step_cmdWrite_published {s : State} {core : Nat} {rest : List Move} {w : Word}
    (h : s.pending = .host core (.regWrite (regOffset .cmd) .word w) :: rest) (hm : s.mayProgram core)
    (hb : s.status.busy = false) (he : s.eng = .idle) (hv : validate w (latch w s) = none)
    (hr : operandRefusal s.platform (latch w s).ranges = none) (hu : s.unpublished = []) :
    step s = .next { s with
      pending := rest, owner := s.claimed core true, cmd := w, status := s.status.onAccept.start
      eng := .busy { op := latch w s, m0 := s.mem, raced := false }, draws := s.draws + 1 } := by
  rw [step_cmdWrite h hm hb, writeCmd_idle (s := { s with pending := rest, owner := s.claimed core true }) he,
    accept_start (s := { s with pending := rest, owner := s.claimed core true }) hv hr, startRun,
    snapshot_of_published (s := { s with
      pending := rest, owner := s.claimed core true, cmd := w, status := s.status.onAccept }) hu]
  rfl

/-- Settles O53: with no store left to publish the snapshot is data memory. -/
theorem publishMakesEveryStoreVisible : Obligations.PublishMakesEveryStoreVisible := by
  intro s core rest h
  refine ⟨step_publish h, fun w rest' hrest hm hb he hv hr => ?_⟩
  rw [run_next (step_publish h), run_next (step_cmdWrite_published (s := { s with pending := rest, unpublished := [] })
    hrest hm hb he hv hr rfl)]
  rfl

end Sys2Proof.Machine
end

section
/-! The completion of the commands that write pixels (20_memory.md R61, 41_color_convert.md R142, R144, R147,
42_frame_blend.md R171). -/

namespace Sys2Proof.Machine

/-! ### One pixel -/

/-- One pixel of CONV15C, the clamps as written (41_color_convert.md R142). -/
theorem conv15cPixel_toNat (p : Half) :
    (conv15cPixel p).toNat =
      min ((p.toNat % 32 * 13 + p.toNat / 32 % 32 * 2 + p.toNat / 1024 % 32) / 16) 31 * 2048 +
        min ((p.toNat / 32 % 32 * 3 + p.toNat / 1024 % 32) / 4) 63 * 32 +
        min ((p.toNat % 32 * 3 + p.toNat / 32 % 32 * 2 + p.toNat / 1024 % 32 * 11) / 16) 31 := by
  have hclamp : ∀ v hi, clamp v 0 hi = min v hi := fun v hi => by simp [clamp]
  simp only [conv15cPixel, hclamp, Nat.shiftRight_eq_div_pow, red15_eq, green15_eq, blue15_eq]
  exact pack565_toNat (by omega) (by omega) (by omega)

/-- One pixel of CONV15N, green doubled (41_color_convert.md R144). -/
theorem conv15nPixel_toNat (p : Half) :
    (conv15nPixel p).toNat = p.toNat % 32 * 2048 + p.toNat / 32 % 32 * 64 + p.toNat / 1024 % 32 := by
  simp only [conv15nPixel, red15_eq, green15_eq, blue15_eq, Nat.shiftLeft_eq]
  rw [pack565_toNat (by omega) (by omega) (by omega)]
  omega

/-- A mask selects a field, which stays at its place. -/
theorem and_mask_eq (v width place : Nat) :
    v &&& (2 ^ width - 1) <<< place = (v >>> place % 2 ^ width) <<< place := by
  rw [← Nat.and_two_pow_sub_one_eq_mod, Nat.shiftLeft_and_distrib]
  apply Nat.eq_of_testBit_eq
  intro k
  by_cases hk : place ≤ k
  · simp [hk]
  · simp [hk]

/-- A packed pixel whose channels fit is the union of its fields. -/
theorem pack565_toNat_or {r g b : Nat} (hr : r < 32) (hg : g < 64) (hb : b < 32) :
    (pack565 r g b).toNat = r <<< 11 ||| g <<< 5 ||| b := by
  rw [pack565, BitVec.toNat_ofNat]
  apply Nat.mod_eq_of_lt
  refine Nat.or_lt_two_pow (Nat.or_lt_two_pow ?_ ?_) ?_
  · rw [Nat.shiftLeft_eq]
    omega
  · rw [Nat.shiftLeft_eq]
    omega
  · omega

/-- One pixel of CONV32 in the form of masks and shifts (41_color_convert.md R147). -/
theorem conv32Pixel_toNat (w : Word) :
    (conv32Pixel w).toNat =
      ((w.toNat >>> 8) &&& 0xF800) ||| ((w.toNat >>> 5) &&& 0x07E0) ||| ((w.toNat >>> 3) &&& 0x001F) := by
  have hred : (w.toNat >>> 8) &&& 0xF800 = (red32 w >>> 3) <<< 11 := by
    rw [show 0xF800 = (2 ^ 5 - 1) <<< 11 from rfl, and_mask_eq, red32_eq]
    congr 1
    simp only [Nat.shiftRight_eq_div_pow]
    omega
  have hgreen : (w.toNat >>> 5) &&& 0x07E0 = (green32 w >>> 2) <<< 5 := by
    rw [show 0x07E0 = (2 ^ 6 - 1) <<< 5 from rfl, and_mask_eq, green32_eq]
    congr 1
    simp only [Nat.shiftRight_eq_div_pow]
    omega
  have hblue : (w.toNat >>> 3) &&& 0x001F = blue32 w >>> 3 := by
    rw [show 0x001F = 2 ^ 5 - 1 from rfl, Nat.and_two_pow_sub_one_eq_mod, blue32_eq]
    simp only [Nat.shiftRight_eq_div_pow]
    omega
  rw [hred, hgreen, hblue]
  apply pack565_toNat_or <;> simp only [red32_eq, green32_eq, blue32_eq, Nat.shiftRight_eq_div_pow] <;> omega

/-- One channel of BLEND (42_frame_blend.md R171). -/
theorem blendChannel_eq (f s d : Nat) : blendChannel f s d = (s * f + d * (256 - f)) / 256 :=
  Nat.shiftRight_eq_div_pow _ 8

/-- A weighted mean lies below every bound of both its inputs. -/
theorem weightedMean_lt {f s d bound : Nat} (hf : f ≤ 256) (hs : s < bound) (hd : d < bound) :
    (s * f + d * (256 - f)) / 256 < bound := by
  have hs' : s * f ≤ (bound - 1) * f := Nat.mul_le_mul_right f (by omega)
  have hd' : d * (256 - f) ≤ (bound - 1) * (256 - f) := Nat.mul_le_mul_right _ (by omega)
  have htotal : (bound - 1) * f + (bound - 1) * (256 - f) = (bound - 1) * 256 := by
    rw [← Nat.mul_add, Nat.add_sub_cancel' hf]
  omega

/-- One pixel of BLEND with a legal factor (42_frame_blend.md R170, R171). -/
theorem blendPixel_toNat {f : Nat} (hf : f ≤ 256) (s d : Half) :
    (blendPixel f s d).toNat =
      (s.toNat / 2048 * f + d.toNat / 2048 * (256 - f)) / 256 * 2048 +
        (s.toNat / 32 % 64 * f + d.toNat / 32 % 64 * (256 - f)) / 256 * 32 +
        (s.toNat % 32 * f + d.toNat % 32 * (256 - f)) / 256 := by
  have hs := s.isLt
  have hd := d.isLt
  simp only [blendPixel, blendChannel_eq, red565_eq, green565_eq, blue565_eq]
  exact pack565_toNat (weightedMean_lt hf (by omega) (by omega)) (weightedMean_lt hf (by omega) (by omega))
    (weightedMean_lt hf (by omega) (by omega))

/-! ### The completion -/

theorem exec_undisturbed {i : Instr} {s : State} {run : Run} (he : s.eng = .busy run) (hu : Undisturbed i run s) :
    exec i s = .next (complete run (effectOf i run.op run.m0) s) := by
  rw [exec_busy he, finish_undisturbed hu.noBusError hu.notRaced]

/-- A command that writes pixels completes: memory, BUSY, DONE and the record of unread ends change alone. -/
theorem exec_pixels {i : Instr} {s : State} {run : Run} {pixel : Nat → Half} (he : s.eng = .busy run)
    (hu : Undisturbed i run s) (heff : effectOf i run.op run.m0 = pixelEffect pixel run.op) :
    ∃ m, exec i s = .next { s with
        mem := m, status := { s.status with busy := false, done := true }, eng := .idle, unread := run :: s.unread } ∧
      (∀ k, k < run.op.count.toNat → (Memory.read m (run.op.dst0.toNat + 2 * k)).toNat +
        256 * (Memory.read m (run.op.dst0.toNat + 2 * k + 1)).toNat = (pixel k).toNat) ∧
      (∀ a, ¬(run.op.dst0.toNat ≤ a ∧ a < run.op.dst0.toNat + 2 * run.op.count.toNat) →
        Memory.read m a = Memory.read s.mem a) := by
  refine ⟨Memory.writeBytes s.mem run.op.dst0.toNat ((List.range run.op.n).flatMap (fun k => bytes16 (pixel k))),
    ?_, fun k hk => ?_, fun a ha => Memory.read_writeBytes_of_not_mem ?_⟩
  · rw [exec_undisturbed he hu, heff, complete, Status.endDone, pixelEffect, Bool.or_false]
    rfl
  · rw [← Memory.read16_toNat]
    exact congrArg BitVec.toNat (elem16_writeBytes_pixels _ _ _ k pixel hk)
  · simpa [List.length_flatMap, OpRecord.n, Nat.mul_comm] using ha

/-! ### The obligations -/

/-- Settles O18: the stored pixel is `conv15cPixel` of the source element. -/
theorem conv15cConvertsEveryPixel : Obligations.Conv15cConvertsEveryPixel := by
  intro s run he hu
  obtain ⟨m, hexec, hpixels, hframe⟩ := exec_pixels (pixel := conv15cOut run.op run.m0) he hu rfl
  refine ⟨m, hexec, fun k hk => ?_, hframe⟩
  rw [hpixels k hk, conv15cOut, conv15cPixel_toNat, elem16, Memory.read16_toNat]

/-- Settles O19: the stored pixel is `conv15nPixel` of the source element. -/
theorem conv15nConvertsEveryPixel : Obligations.Conv15nConvertsEveryPixel := by
  intro s run he hu
  obtain ⟨m, hexec, hpixels, hframe⟩ := exec_pixels (pixel := conv15nOut run.op run.m0) he hu rfl
  refine ⟨m, hexec, fun k hk => ?_, hframe⟩
  rw [hpixels k hk, conv15nOut, conv15nPixel_toNat, elem16, Memory.read16_toNat]

/-- Settles O20: the stored pixel is `conv32Pixel` of the source word. -/
theorem conv32ConvertsEveryPixel : Obligations.Conv32ConvertsEveryPixel := by
  intro s run he hu
  obtain ⟨m, hexec, hpixels, hframe⟩ := exec_pixels (pixel := conv32Out run.op run.m0) he hu rfl
  refine ⟨m, hexec, fun k hk => ?_, hframe⟩
  rw [hpixels k hk, conv32Out, conv32Pixel_toNat, elem32, Memory.read32_toNat]
  rfl

/-- Settles O21: the stored pixel is `blendPixel` of the two elements. -/
theorem blendMixesEveryPixel : Obligations.BlendMixesEveryPixel := by
  intro f s run hf he hu
  obtain ⟨m, hexec, hpixels, hframe⟩ := exec_pixels (pixel := blendOut f run.op run.m0) he hu rfl
  refine ⟨m, hexec, fun k hk => ?_, hframe⟩
  rw [hpixels k hk, blendOut, blendPixel_toNat hf, elem16, elem16, Memory.read16_toNat, Memory.read16_toNat]

end Sys2Proof.Machine
end

section
/-! The completion of MAC in closed form (43_audio_mac.md R190 to R195): the taps of the whole command are one beat, so
its sums are wrapped once. -/

namespace Sys2Proof.Machine

/-! ### The sums in closed form -/

section
variable (op : OpRecord) (m0 : Memory)

/-- The exact sum of the left channel over the first `n` taps. -/
def exactLeft (n : Nat) : Int :=
  (macStart op m0).left + ((List.range n).map (fun i => (macTap op m0 i).sl * (macTap op m0 i).k)).sum

/-- The exact sum of the right channel over the first `n` taps. -/
def exactRight (n : Nat) : Int :=
  (macStart op m0).right + ((List.range n).map (fun i => (macTap op m0 i).sr * (macTap op m0 i).k)).sum

/-- The first `j` of the first `n` taps. -/
theorem take_map_range {α : Type} (f : Nat → α) {j n : Nat} (h : j ≤ n) :
    ((List.range n).map f).take j = (List.range j).map f := by
  rw [← List.map_take, List.take_range, Nat.min_eq_left h]

/-- The sums of MAC are the exact ones wrapped, and overflow where some exact running sum does (43_audio_mac.md
R193). -/
theorem macSums_eq_exact :
    (macSums op m0).left = wrapS32 (exactLeft op m0 op.n) ∧ (macSums op m0).right = wrapS32 (exactRight op m0 op.n) ∧
    ((macSums op m0).ovf = true ↔ ∃ j, j < op.n ∧
      (outsideS32 (exactLeft op m0 (j + 1)) = true ∨ outsideS32 (exactRight op m0 (j + 1)) = true)) := by
  have hbeat : macSums op m0 = macBeat (macStart op m0) ((List.range op.n).map (macTap op m0)) :=
    (macBeat_eq_foldl (macStart_range op m0) _).symm
  rw [hbeat]
  refine ⟨?_, ?_, ?_⟩
  · simp [macBeat, exactLeft, take_map_range, Function.comp_def]
  · simp [macBeat, exactRight, take_map_range, Function.comp_def]
  · simp only [macBeat, macStart, Bool.false_or, List.any_eq_true, List.mem_range, Bool.or_eq_true, List.length_map,
      List.length_range]
    refine exists_congr fun j => and_congr_right fun hj => ?_
    rw [take_map_range _ hj]
    simp [exactLeft, exactRight, macStart, Function.comp_def]
end

/-! ### What is stored -/

/-- With taps a MAC stores the exact sums modulo 2^32 in its two lanes (43_audio_mac.md R191). -/
theorem writeAll_macEffect {op : OpRecord} (hn : op.n ≠ 0) (m m0 : Memory) :
    Memory.writeAll m (macEffect op m0).writes =
      Memory.writeBytes (Memory.writeBytes m op.dst0.toNat (bytes32 (BitVec.ofInt 32 (exactLeft op m0 op.n))))
        op.dst1.toNat (bytes32 (BitVec.ofInt 32 (exactRight op m0 op.n))) := by
  obtain ⟨hl, hr, -⟩ := macSums_eq_exact op m0
  rw [macEffect, if_neg hn, hl, hr, ofInt_wrapS32, ofInt_wrapS32]
  rfl

/-- The store to the right lane leaves the left one, as the arrays lie apart. -/
theorem read32_macEffect {op : OpRecord} (hn : op.n ≠ 0) (hv : validateOperands .mac op = none) (m m0 : Memory) :
    Memory.read32 (Memory.writeAll m (macEffect op m0).writes) op.dst0.toNat =
        BitVec.ofInt 32 (exactLeft op m0 op.n) ∧
      Memory.read32 (Memory.writeAll m (macEffect op m0).writes) op.dst1.toNat =
        BitVec.ofInt 32 (exactRight op m0 op.n) := by
  have hapart := accumulators_disjoint hv
  rw [writeAll_macEffect hn]
  refine ⟨(Memory.read32_congr fun x h1 h2 => ?_).trans (Memory.read32_writeBytes m op.dst0.toNat _),
    Memory.read32_writeBytes _ _ _⟩
  refine Memory.read_writeBytes_of_not_mem ?_
  rw [bytes32_length]
  omega

/-- The bytes of a lane that holds an exact sum. -/
theorem lane_bytes {m : Memory} {a : Nat} {v : Int} (h : Memory.read32 m a = BitVec.ofInt 32 v) :
    ((Memory.read m a).toNat : Int) + 2 ^ 8 * ((Memory.read m (a + 1)).toNat : Int) +
      2 ^ 16 * ((Memory.read m (a + 2)).toNat : Int) + 2 ^ 24 * ((Memory.read m (a + 3)).toNat : Int) = v % 2 ^ 32 := by
  have hb : ((Memory.read32 m a).toNat : Int) = v % 2 ^ 32 := by
    rw [h, BitVec.toNat_ofInt, Int.toNat_of_nonneg (Int.emod_nonneg _ (by decide))]
    rfl
  rw [← hb, Memory.read32_toNat]
  push_cast
  rfl

/-! ### The obligation -/

/-- Settles O22: the exact sums of the statement are `exactLeft` and `exactRight`. -/
theorem macAccumulatesBothChannels : Obligations.MacAccumulatesBothChannels := by
  intro s run he hu hv byte s16 u32 k sl sr sumL sumR
  have hsumL : ∀ n, sumL n = exactLeft run.op run.m0 n := by
    intro n
    simp only [sumL, sl, k, s16, u32, byte, exactLeft, macStart, macTap, elem16, Memory.read32_toInt,
      Memory.read16_toInt, show ∀ i, 2 * (2 * i) = 4 * i from fun i => by omega]
  have hsumR : ∀ n, sumR n = exactRight run.op run.m0 n := by
    intro n
    simp only [sumR, sr, k, s16, u32, byte, exactRight, macStart, macTap, elem16, Memory.read32_toInt,
      Memory.read16_toInt, show ∀ a i : Nat, a + 2 * (2 * i + 1) = a + 4 * i + 2 from fun a i => by omega]
  refine ⟨Memory.writeAll s.mem (macEffect run.op run.m0).writes, (macEffect run.op run.m0).ovf,
    exec_undisturbed he hu, ?_, fun hcount => ?_, fun hcount => ?_, fun a => read_macEffect_of_not_mem⟩
  · rw [macEffect_ovf, (macSums_eq_exact run.op run.m0).2.2]
    simp only [hsumL, hsumR, outsideS32_iff, or_assoc]
    rfl
  · simp [macEffect, OpRecord.n, hcount, Memory.writeAll]
  · rw [hsumL, hsumR]
    obtain ⟨hl, hr⟩ := read32_macEffect (OpRecord.count_ne_zero.mp hcount) hv s.mem run.m0
    exact ⟨lane_bytes hl, lane_bytes hr⟩

end Sys2Proof.Machine
end

section
/-! A host load from data memory while commands run or their end is unread (20_memory.md R68, R70,
70_reset_and_hazards.md R266): what it returns for each byte. -/

namespace Sys2Proof.Machine

/-! ### What a command leaves in memory -/

/-- Outside its write ranges an undisturbed command leaves memory as it was. -/
theorem read_writeAll_effectOf_of_not_mem {i : Instr} {op : OpRecord} {m m0 : Memory} {a : Nat}
    (h : ∀ r ∈ writeRanges i op, ¬(r.base ≤ a ∧ a < r.base + r.len)) :
    Memory.read (Memory.writeAll m (effectOf i op m0).writes) a = Memory.read m a := by
  refine Memory.read_writeAll_of_not_mem fun w hw => ?_
  obtain ⟨r, hr, hbase, hlen⟩ := effectOf_writes hw
  rw [hbase, hlen]
  exact h r hr

/-- With COUNT = 0 a command leaves memory as it was (40_command_model.md R120). -/
theorem writeAll_effectOf_of_count_eq_zero {i : Instr} {op : OpRecord} (h : op.count = 0) (m m0 : Memory) :
    Memory.writeAll m (effectOf i op m0).writes = m := by
  have hn : op.n = 0 := by simp [OpRecord.n, h]
  by_cases hi : i = .mac
  · simp [hi, effectOf, macEffect, hn, Memory.writeAll]
  · simp [effectOf_writes_eq hi, hn, Memory.writeAll, Memory.writeBytes]

theorem writes_of_instr? {op : OpRecord} {i : Instr} (h : op.instr? = some i) : op.writes = writeRanges i op := by
  simp only [OpRecord.writes, h]

/-- The latched command of a good run passes the operand checks. -/
theorem Run.Good.validateOperands {run : Run} {i : Instr} (h : run.Good) (hi : run.op.instr? = some i) :
    validateOperands i run.op = none := by
  obtain ⟨i', hd, hv⟩ := validate_eq_none h.valid
  obtain rfl : i = i' := Option.some.inj (hi.symm.trans (instr?_eq_some.mpr hd))
  exact hv

/-- The write ranges of a validated command share no byte. -/
theorem writeRanges_unique {i : Instr} {op : OpRecord} {r q : Range} {a : Nat} (hv : validateOperands i op = none)
    (hr : r ∈ writeRanges i op) (hq : q ∈ writeRanges i op) (har : r.base ≤ a ∧ a < r.base + r.len)
    (haq : q.base ≤ a ∧ a < q.base + q.len) : r = q := by
  cases i with
  | mac =>
    have hapart := accumulators_disjoint hv
    simp only [writeRanges, List.mem_cons, List.not_mem_nil, or_false] at hr hq
    rcases hr with rfl | rfl <;> rcases hq with rfl | rfl
    · rfl
    · simp only [laneL_base, laneL_len, laneR_base, laneR_len] at har haq
      omega
    · simp only [laneL_base, laneL_len, laneR_base, laneR_len] at har haq
      omega
    · rfl
  | _ => exact (List.mem_singleton.mp hr).trans (List.mem_singleton.mp hq).symm

/-- Every address of a destination element belongs to that element. -/
theorem elementAt_of_mem {op : OpRecord} {i : Instr} {r : Range} {a k : Nat} (hi : op.instr? = some i)
    (h1 : r.base + destBytes i * k ≤ a) (h2 : a < r.base + destBytes i * (k + 1)) :
    op.elementAt r a = r.base + destBytes i * k := by
  have hk : (a - r.base) / destBytes i = k := by
    apply Nat.div_eq_of_lt_le
    · rw [Nat.mul_comm]
      omega
    · rw [Nat.mul_comm]
      omega
  simp only [OpRecord.elementAt, hi, hk]

/-! ### The byte a running command will leave -/

/-- What a host load takes as the final value of a byte while a command runs: any value for a byte it stores to where
the platform can report bus errors (60_exceptions.md R236, log entry 5). -/
def runningByte (s : State) (run : Run) (a : Nat) : Byte :=
  if s.platform.hasBusError && run.op.stores.any (fun r => r.holds a) then Config.freeByte s.draws a
  else Memory.read (finalImage run s.mem) a

theorem hostByte_running {s : State} {a : Nat} {run : Run} (h : s.eng = .busy run) :
    hostByte s a = hostView s.draws a (run :: s.unread) (runningByte s run a) :=
  hostByte_busy h

section
variable {s : State} {run : Run} {i : Instr} {a : Nat} (hi : run.op.instr? = some i)
include hi

theorem stores_any_holds :
    run.op.stores.any (fun r => r.holds a) = true ↔
      run.op.count ≠ 0 ∧ ∃ r ∈ writeRanges i run.op, r.base ≤ a ∧ a < r.base + r.len := by
  simp only [List.any_eq_true, OpRecord.mem_stores, Range.holds_iff, writes_of_instr? hi, and_assoc, exists_and_left]

theorem runningByte_of_noBusError (h : s.platform.hasBusError = false) :
    runningByte s run a = Memory.read (Memory.writeAll s.mem (effectOf i run.op run.m0).writes) a := by
  simp [runningByte, h, finalImage, hi]

theorem runningByte_of_stored (h : s.platform.hasBusError = true) (hc : run.op.count ≠ 0)
    (ha : ∃ r ∈ writeRanges i run.op, r.base ≤ a ∧ a < r.base + r.len) :
    runningByte s run a = Config.freeByte s.draws a := by
  rw [runningByte, h, Bool.true_and, if_pos ((stores_any_holds hi).mpr ⟨hc, ha⟩)]

theorem runningByte_of_not_stored
    (h : ¬(run.op.count ≠ 0 ∧ ∃ r ∈ writeRanges i run.op, r.base ≤ a ∧ a < r.base + r.len)) :
    runningByte s run a = Memory.read s.mem a := by
  rw [runningByte, Bool.eq_false_iff.mpr (fun hs => h ((stores_any_holds hi).mp hs)), Bool.and_false,
    if_neg Bool.false_ne_true]
  simp only [finalImage, hi]
  by_cases hc : run.op.count = 0
  · rw [writeAll_effectOf_of_count_eq_zero hc]
  · exact read_writeAll_effectOf_of_not_mem fun r hr ha => h ⟨hc, r, hr, ha⟩
end

/-! ### What a load returns -/

/-- A host load of data memory changes the result register and the draw counter alone. -/
theorem step_load {s : State} {core : Nat} {addr : Word} {size : Size} {rest : List Move}
    (h : s.pending = .host core (.load addr size) :: rest) (hspace : addr.toNat + size.bytes ≤ 2 ^ 32)
    (hwin : (Platform.window s.platform).holds addr.toNat = false)
    (hmem : hostAccessRefusal s.platform ⟨addr.toNat, size.bytes⟩ = none) :
    ∃ t, step s = .next t ∧ t = { s with pending := rest, ldata := t.ldata, draws := t.draws } ∧
      t.ldata.toNat < 2 ^ (8 * size.bytes) ∧
      ∀ j, j < size.bytes → t.ldata.extractLsb' (8 * j) 8 = hostByte s (addr.toNat + j) := by
  obtain ⟨hlt, hbytes⟩ := loadData_ldata addr size { s with pending := rest }
  exact ⟨_, (step_of_pending h).trans (hostLoad_data (s := { s with pending := rest }) hspace hwin hmem), rfl, hlt,
    hbytes⟩

/-- One draw decides for every byte of a destination element of an unraced running command, but for those an unread
command writes, between the final value and that of `M0` (20_memory.md R68). -/
theorem hostByte_element {s : State} {run : Run} {i : Instr} {r : Range} {k : Nat} (he : s.eng = .busy run)
    (hg : run.Good) (hi : run.op.instr? = some i) (hraced : run.raced = false) (hr : r ∈ writeRanges i run.op)
    (hk : destBytes i * (k + 1) ≤ r.len) :
    ∃ final : Bool, ∀ a, (∀ q ∈ s.unread, ∀ r ∈ q.op.writes, ¬(r.base ≤ a ∧ a < r.base + r.len)) →
      r.base + destBytes i * k ≤ a → a < r.base + destBytes i * (k + 1) →
      hostByte s a = if final then runningByte s run a else Memory.read run.m0 a := by
  refine ⟨Config.freeBit s.draws (r.base + destBytes i * k), fun a hunread h1 h2 => ?_⟩
  have ha : r.base ≤ a ∧ a < r.base + r.len := by omega
  have hwrites := writes_of_instr? hi
  obtain ⟨q, hq, haq, hview⟩ := hostView_cons_of_mem (n := s.draws) (rest := s.unread) (v := runningByte s run a)
    hraced ⟨r, hwrites ▸ hr, ha⟩
  obtain rfl := writeRanges_unique (hg.validateOperands hi) hr (hwrites ▸ hq) ha haq
  rw [hostByte_running he, hview, elementAt_of_mem hi h1 h2, hostView_of_not_mem hunread]

/-! ### The obligations -/

/-- Settles O43: the draw of an element decides for all its bytes, and its final value is open only where a bus error
can be reported. -/
theorem hostReadOfRunningDestinationIsOldOrFinal : Obligations.HostReadOfRunningDestinationIsOldOrFinal := by
  intro s core addr size rest run i hinv h he hi hraced hspace hwin hmem hunread
  obtain ⟨t, hstep, ht, hlt, hbytes⟩ := step_load h hspace hwin hmem
  have hfree : ∀ j, j < size.bytes → ∀ q ∈ s.unread, ∀ r ∈ q.op.writes,
      ¬(r.base ≤ addr.toNat + j ∧ addr.toNat + j < r.base + r.len) := fun j hj q hq r hr => hunread q hq r hr j hj
  refine ⟨t, hstep, ht, hlt, fun r hr k hk => ?_, fun j hj hout => ?_⟩
  · obtain ⟨final, hdraw⟩ := hostByte_element he (run_good hinv he) hi hraced hr hk
    have hload := fun j hj h1 h2 => (hbytes j hj).trans (hdraw _ (hfree j hj) h1 h2)
    cases final with
    | false => exact .inl hload
    | true =>
      refine .inr ?_
      cases hb : s.platform.hasBusError with
      | false => exact .inl ⟨rfl, fun j hj h1 h2 => (hload j hj h1 h2).trans (runningByte_of_noBusError hi hb)⟩
      | true =>
        by_cases hc : run.op.count = 0
        · exact .inr (.inl ⟨hc, fun j hj h1 h2 =>
            (hload j hj h1 h2).trans (runningByte_of_not_stored hi fun hs => hs.1 hc)⟩)
        · exact .inr (.inr ⟨rfl, hc, fun j hj h1 h2 =>
            (hload j hj h1 h2).trans (runningByte_of_stored hi hb hc ⟨r, hr, by omega, by omega⟩)⟩)
  · rw [hbytes j hj, hostByte_running he, hostView_of_not_mem, runningByte_of_not_stored hi]
    · rintro ⟨-, r, hr, ha⟩
      exact hout r hr ha
    · intro q hq r hr
      rcases List.mem_cons.mp hq with rfl | hq
      · exact hout r (writes_of_instr? hi ▸ hr)
      · exact hfree j hj q hq r hr

/-- Settles O44: the STATUS read leaves no command unread, so every byte is memory's. -/
theorem statusReadMakesResultsVisible : Obligations.StatusReadMakesResultsVisible := by
  intro s core addr size rest hinv h hb hspace hwin hmem
  have he := eng_of_not_busy hinv hb
  have hread := step_statusRead_ended hb h
  obtain ⟨t, hstep, ht, hlt, hbytes⟩ := step_load (s := { s with
    pending := .host core (.load addr size) :: rest, rdata := s.status.toWord, unread := []
    owner := if s.owner = some { core := core, started := true } then none else s.owner }) rfl hspace hwin hmem
  refine ⟨t, ?_, ?_, ?_, hlt, fun j hj => ?_⟩
  · rw [run_next hread, run_next hstep]
    rfl
  · rw [ht]
    exact (Status.toWord_flags s.status).1.trans hb
  · rw [ht]
  · exact (hbytes j hj).trans (hostByte_idle he)

/-- Settles O51: a load shows the current value or goes back to the `M0` of a command that writes the byte. -/
theorem earlyHostReadIsCurrentOrOlder : Obligations.EarlyHostReadIsCurrentOrOlder := by
  intro s core addr size rest h hspace hwin hmem hunraced older
  obtain ⟨t, hstep, -, -, hbytes⟩ := step_load h hspace hwin hmem
  refine ⟨t, hstep, fun j hj => ?_⟩
  intro a b
  have hb : b = hostByte s a := hbytes j hj
  have view : ∀ (runs : List Run) (v : Byte), b = hostView s.draws a runs v → (∀ q ∈ runs, q.raced = false) →
      b = v ∨ older runs a b := by
    intro runs v hv hruns
    rw [hv]
    exact hostView_cases hruns
  refine ⟨fun he => view _ _ (hb.trans (hostByte_idle he)) hunraced, fun run i he hraced hi => ?_⟩
  rcases view _ _ (hb.trans (hostByte_running he)) (List.forall_mem_cons.mpr ⟨hraced, hunraced⟩) with hv | hold
  · rw [hv]
    cases hbus : s.platform.hasBusError with
    | false => exact .inl ⟨rfl, runningByte_of_noBusError hi hbus⟩
    | true =>
      refine .inr (.inl ⟨rfl, ?_⟩)
      split
      · rename_i hs
        exact runningByte_of_stored hi hbus hs.1 hs.2
      · rename_i hs
        exact runningByte_of_not_stored hi hs
  · exact .inr (.inr hold)

/-- Settles O55: the race frees the bytes of the destination, and no view changes a byte that no command writes. -/
theorem hostReadOfRacedDestinationIsAnyValue : Obligations.HostReadOfRacedDestinationIsAnyValue := by
  intro s core addr size rest run i h he hi hraced hspace hwin hmem
  obtain ⟨t, hstep, ht, -, hbytes⟩ := step_load h hspace hwin hmem
  refine ⟨t, hstep, ht, fun j hj => ⟨fun hin => ?_, fun hout => ?_⟩⟩
  · rw [hbytes j hj, hostByte_running he]
    exact hostView_cons_of_raced hraced (writes_of_instr? hi ▸ hin)
  · rw [hbytes j hj, hostByte_running he, hostView_of_not_mem hout, runningByte_of_not_stored hi]
    rintro ⟨-, r, hr, ha⟩
    exact hout run (by simp) r (writes_of_instr? hi ▸ hr) ha

end Sys2Proof.Machine
end

section
/-! The command word in both directions (30_encoding.md R90 to R94): which words decode to a command, which are FACTOR,
and which are ILLEGAL. -/

namespace Sys2Proof.Machine

/-! ### The three results of the decoder -/

/-- Only the well-formed commands' words decode to commands (30_encoding.md R92, R94). -/
theorem decode_eq_command_iff {w : Word} {i : Instr} :
    decode w = .command i ↔ i.wellFormed = true ∧ w = encode i := by
  constructor
  · intro h
    have hlegal : decode w ≠ .illegal := by simp [h]
    exact ⟨(decodeFields_eq_command ((decode_eq_fields hlegal).symm.trans h)).1, (encode_of_decode h).symm⟩
  · rintro ⟨hwf, rfl⟩
    exact decode_encode hwf

/-- Only OP = 4 with a factor above 256 reads as FACTOR (30_encoding.md R94). -/
theorem decodeFields_eq_factor {op : BitVec 4} {f : BitVec 9} (h : decodeFields op f = .factor) :
    op = opcode (.blend f) ∧ 256 < f.toNat := by
  unfold decodeFields at h
  split at h
  case h_4 hop =>
    refine ⟨BitVec.eq_of_toNat_eq hop, ?_⟩
    by_contra hle
    simp [Instr.wellFormed, Nat.not_lt.mp hle] at h
  case h_7 => cases h
  all_goals
    unfold plainCommand at h
    split at h <;> cases h

/-- The FACTOR words are those of BLEND with a factor above 256. -/
theorem decode_eq_factor_iff {w : Word} :
    decode w = .factor ↔ ∃ f : BitVec 9, 256 < f.toNat ∧ w = encode (.blend f) := by
  constructor
  · intro h
    have hlegal : decode w ≠ .illegal := by simp [h]
    obtain ⟨hop, hf⟩ := decodeFields_eq_factor ((decode_eq_fields hlegal).symm.trans h)
    refine ⟨factorField w, hf, ?_⟩
    calc w = packWord (opField w) (factorField w) := (packWord_of_decode hlegal).symm
      _ = encode (.blend (factorField w)) := by rw [hop, encode, factorOf]
  · rintro ⟨f, hf, rfl⟩
    exact decode_encode_blend hf

/-- No command's word is ILLEGAL: it decodes to the command, or is FACTOR. -/
theorem decode_encode_ne_illegal (i : Instr) : decode (encode i) ≠ .illegal := by
  by_cases hwf : i.wellFormed = true
  · simp [decode_encode hwf]
  · cases i with
    | blend f =>
      have hf : 256 < f.toNat := by simpa [Instr.wellFormed] using hwf
      simp [decode_encode_blend hf]
    | _ => exact absurd rfl hwf

/-- The ILLEGAL words are those that no command, well formed or not, is packed into. -/
theorem decode_eq_illegal_iff {w : Word} : decode w = .illegal ↔ ∀ i, w ≠ encode i := by
  constructor
  · rintro h i rfl
    exact decode_encode_ne_illegal i h
  · intro h
    cases hd : decode w with
    | illegal => rfl
    | command i => exact absurd (decode_eq_command_iff.mp hd).2 (h i)
    | factor =>
      obtain ⟨f, -, hw⟩ := decode_eq_factor_iff.mp hd
      exact absurd hw (h _)

/-- The word of BLEND, by the places of its two fields (30_encoding.md R90). -/
theorem encode_blend (f : BitVec 9) : encode (.blend f) = 0x00000004 ||| (f.setWidth 32 <<< 8) :=
  packWord_eq 4 f

/-- A command without an operand in the word has one word. -/
theorem decode_eq_plain_iff {w : Word} {i : Instr} (h : i.wellFormed = true) :
    decode w = .command i ↔ w = encode i := by
  rw [decode_eq_command_iff, and_iff_right h]

/-! ### The obligations -/

/-- Settles O2: a word that decodes is put together again from its fields, and a command's word has its fields. -/
theorem decodeAndEncodeAgree : Obligations.DecodeAndEncodeAgree :=
  fun _ _ => decode_eq_command_iff

/-- Settles O3: the ILLEGAL words are those of no constructor of `Instr`. -/
theorem everyWordDecodesAsListed : Obligations.EveryWordDecodesAsListed := by
  intro w
  refine ⟨decode_eq_plain_iff rfl, decode_eq_plain_iff rfl, decode_eq_plain_iff rfl, decode_eq_plain_iff rfl,
    decode_eq_plain_iff rfl, fun f => ?_, ?_, ?_⟩
  · rw [decode_eq_command_iff, encode_blend]
    simp [Instr.wellFormed]
  · simp only [decode_eq_factor_iff, encode_blend, Nat.succ_le_iff]
  · rw [decode_eq_illegal_iff]
    constructor
    · intro h
      exact ⟨h .conv15c, h .conv15n, h .conv32, h .mac, h .copy, fun f => encode_blend f ▸ h (.blend f)⟩
    · rintro ⟨h15c, h15n, h32, hmac, hcopy, hblend⟩ i
      cases i with
      | conv15c => exact h15c
      | conv15n => exact h15n
      | conv32 => exact h32
      | blend f => exact encode_blend f ▸ hblend f
      | mac => exact hmac
      | copy => exact hcopy

/-- Settles O1, by running the decoder on each word. -/
theorem decodeReadsTheSpecWords : Obligations.DecodeReadsTheSpecWords := by
  unfold Obligations.DecodeReadsTheSpecWords
  decide

end Sys2Proof.Machine
end

section
/-! The expansions of the command mnemonics, run as host writes (30_encoding.md R97, R98): any list of operand writes
followed by a command's word runs to the meaning of the command on the written registers. -/

namespace Sys2Proof.Machine

/-! ### Operand writes, then a command's word -/

/-- The lines that write a value to each register in turn. -/
def operandLines (ws : List (Reg × Word)) : List AsmLine := ws.map (fun p => wrReg p.1 p.2)

/-- The state after these writes, made in turn. -/
def writeOperands (ws : List (Reg × Word)) (s : State) : State := ws.foldl (fun t p => writeOperand p.1 p.2 t) s

/-- The moves to come and the critical section play no part in an operand write. -/
theorem writeOperand_withHost (reg : Reg) (v : Word) (s : State) (moves : List Move) (o : Option Session) :
    writeOperand reg v { s with pending := moves, owner := o } =
      { writeOperand reg v s with pending := moves, owner := o } := by
  cases reg <;> rfl

/-- Nor in several of them. -/
theorem writeOperands_withHost (ws : List (Reg × Word)) (s : State) (moves : List Move) (o : Option Session) :
    writeOperands ws { s with pending := moves, owner := o } =
      { writeOperands ws s with pending := moves, owner := o } := by
  induction ws generalizing s with
  | nil => rfl
  | cons p ws ih => exact (congrArg (writeOperands ws) (writeOperand_withHost p.1 p.2 s moves o)).trans (ih _)

theorem run_one (s : State) : Sys2Proof.core.run 1 s = step s := by
  cases h : step s with
  | next t => exact run_next h
  | fault r => exact run_fault h
  | refused r => exact run_refused h

/-- Operand writes followed by a command's word, run on a core that may program a block with BUSY = 0, end in the
meaning of the command with the writes made (10_state.md R33, R43): each write keeps BUSY = 0 and leaves the core inside
the critical section. -/
theorem run_operandLines {core : Nat} {i : Instr} (hwf : i.wellFormed = true) (ws : List (Reg × Word))
    (hws : ∀ p ∈ ws, p.1 ≠ .cmd ∧ p.1 ≠ .status) {s : State}
    (hp : s.pending = hostMoves core (operandLines ws ++ [wrReg .cmd (encode i)])) (hm : s.mayProgram core)
    (hb : s.status.busy = false) :
    Sys2Proof.core.run (ws.length + 1) s =
      exec i { writeOperands ws s with pending := [], owner := some { core := core, started := true } } := by
  induction ws generalizing s with
  | nil => exact (run_one s).trans (stepRunsTheDecodedCommand.1 s core _ [] i hp hm hb (decode_encode hwf))
  | cons p ws ih =>
    obtain ⟨hcmd, hstatus⟩ := hws p List.mem_cons_self
    have hstep := step_operandWrite hcmd hstatus hp hm hb
    rw [writeOperand_withHost] at hstep
    refine (run_next hstep).trans ((ih (fun q hq => hws q (List.mem_cons_of_mem p hq)) ?_ ?_ ?_).trans ?_)
    · rfl
    · intro o ho
      rw [← Option.some.inj ho]
    · rwa [← writeOperand_status p.1 p.2 s] at hb
    · rw [writeOperands_withHost]
      rfl

/-! ### The expansions -/

/-- A BLEND factor of at most 256 keeps its value in the FACTOR field. -/
theorem blend_ofNat_wellFormed {f : Nat} (h : f ≤ 256) : (Instr.blend (BitVec.ofNat 9 f)).wellFormed = true := by
  have : f % 512 ≤ 256 := by omega
  simpa [Instr.wellFormed] using this

/-! ### The obligation -/

/-- Settles O50: each expansion is a list of operand writes and the command's word. -/
theorem pseudoInstructionsProgramTheirOperands : Obligations.PseudoInstructionsProgramTheirOperands := by
  refine ⟨fun s core dst src n lines q i hq hlines hp hb ho => ?_,
    fun s core accl accr samples kernel n lines hlines hp hb ho => ?_, fun dst src n f hf => ?_⟩
  · have hexpand : expand q = some (oneSource dst src n i) ∧ i.wellFormed = true := by
      rcases hq with ⟨rfl, rfl⟩ | ⟨rfl, rfl⟩ | ⟨rfl, rfl⟩ | ⟨rfl, rfl⟩ | ⟨f, hf, rfl, rfl⟩
      exacts [⟨rfl, rfl⟩, ⟨rfl, rfl⟩, ⟨rfl, rfl⟩, ⟨rfl, rfl⟩, ⟨if_pos hf, blend_ofNat_wellFormed hf⟩]
    obtain rfl : oneSource dst src n i = lines := Option.some.inj (hexpand.1.symm.trans hlines)
    exact run_operandLines hexpand.2 [(.src0, src), (.dst0, dst), (.count, n)] (by simp) hp
      (State.mayProgram_of_owner_none ho core) hb
  · obtain rfl := Option.some.inj hlines
    exact run_operandLines (i := .mac) rfl
      [(.src0, samples), (.src1, kernel), (.dst0, accl), (.dst1, accr), (.count, n)] (by simp) hp
      (State.mayProgram_of_owner_none ho core) hb
  · exact if_neg (Nat.not_le.mpr hf)

end Sys2Proof.Machine
end

section
/-! The checks of validation as arithmetic on the operands of a command (40_command_model.md R112 to R117, R120,
43_audio_mac.md R195). -/

namespace Sys2Proof.Machine

/-! ### Alignment -/

/-- The failure of the alignment rule of the commands on 16-bit pixels (40_command_model.md R114). -/
theorem alignedOk_pixels_eq_false {i : Instr} (hi : i = .conv15c ∨ i = .conv15n ∨ ∃ f, i = .blend f) {op : OpRecord} :
    alignedOk i op = false ↔ op.src0.toNat % 2 ≠ 0 ∨ op.dst0.toNat % 2 ≠ 0 := by
  rcases hi with rfl | rfl | ⟨f, rfl⟩ <;> simp only [alignedOk, Bool.and_eq_false_iff, decide_eq_false_iff_not, ne_eq]

theorem alignedOk_conv32_eq_false {op : OpRecord} :
    alignedOk .conv32 op = false ↔ op.src0.toNat % 4 ≠ 0 ∨ op.dst0.toNat % 2 ≠ 0 := by
  simp only [alignedOk, Bool.and_eq_false_iff, decide_eq_false_iff_not, ne_eq]

theorem alignedOk_mac_eq_false {op : OpRecord} :
    alignedOk .mac op = false ↔
      op.src0.toNat % 2 ≠ 0 ∨ op.src1.toNat % 2 ≠ 0 ∨ op.dst0.toNat % 4 ≠ 0 ∨ op.dst1.toNat % 4 ≠ 0 := by
  simp only [alignedOk, Bool.and_eq_false_iff, decide_eq_false_iff_not, ne_eq, or_assoc]

/-! ### Ranges -/

/-- The ranges of every command but MAC are S and D (40_command_model.md R115). -/
theorem operandRanges_of_ne_mac {i : Instr} (hi : i ≠ .mac) (op : OpRecord) :
    operandRanges i op = [rangeS i op, rangeD i op] := by
  cases i with
  | mac => exact absurd rfl hi
  | _ => rfl

/-- Every range begins at the value of an address register. -/
theorem base_lt_of_mem_operandRanges {i : Instr} {op : OpRecord} {r : Range} (hr : r ∈ operandRanges i op) :
    r.base < 2 ^ 32 := by
  by_cases hi : i = .mac
  · subst hi
    simp only [operandRanges, List.mem_cons, List.not_mem_nil, or_false] at hr
    rcases hr with rfl | rfl | rfl | rfl
    exacts [op.src0.isLt, op.src1.isLt, op.dst0.isLt, op.dst1.isLt]
  · simp only [operandRanges_of_ne_mac hi, List.mem_cons, List.not_mem_nil, or_false] at hr
    rcases hr with rfl | rfl
    exacts [op.src0.isLt, op.dst0.isLt]

/-- The range rule fails where a range runs past the top of the address space; an empty one never does
(40_command_model.md R116). -/
theorem rangesOk_eq_false {i : Instr} {op : OpRecord} :
    rangesOk i op = false ↔ ∃ r ∈ operandRanges i op, 2 ^ 32 < r.base + r.len := by
  simp only [rangesOk, List.all_eq_false, Bool.or_eq_true, decide_eq_true_eq, Config.addressSpace]
  refine exists_congr fun r => and_congr_right fun hr => ?_
  have hbase := base_lt_of_mem_operandRanges hr
  omega

theorem rangesOk_mac_eq_false {op : OpRecord} :
    rangesOk .mac op = false ↔
      2 ^ 32 < op.src0.toNat + 4 * op.count.toNat ∨ 2 ^ 32 < op.src1.toNat + 2 * op.count.toNat ∨
        2 ^ 32 < op.dst0.toNat + 16 ∨ 2 ^ 32 < op.dst1.toNat + 16 := by
  simp [rangesOk_eq_false, operandRanges, sourceBytes]

/-! ### Overlap -/

/-- The failure of the overlap rule of every command but MAC: S and D share a byte and do not begin at the same address
(40_command_model.md R117). -/
theorem overlapOk_of_ne_mac_eq_false {i : Instr} (hi : i ≠ .mac) {op : OpRecord} :
    overlapOk i op = false ↔
      op.count ≠ 0 ∧ op.src0.toNat < op.dst0.toNat + destBytes i * op.count.toNat ∧
        op.dst0.toNat < op.src0.toNat + sourceBytes i * op.count.toNat ∧ op.src0 ≠ op.dst0 := by
  have hrule : overlapOk i op = inPlaceOrDisjoint i op := by
    cases i with
    | mac => exact absurd rfl hi
    | _ => rfl
  have hs : 0 < sourceBytes i := by cases i <;> simp [sourceBytes]
  have hd : 0 < destBytes i := by cases i <;> simp [destBytes]
  rw [hrule, inPlaceOrDisjoint_eq_false, Range.intersects_iff, OpRecord.count_ne_zero, ← Nat.pos_iff_ne_zero]
  simp only [rangeS_base, rangeS_len, rangeD_base, rangeD_len, Nat.mul_pos_iff_of_pos_left hs,
    Nat.mul_pos_iff_of_pos_left hd]
  tauto

/-- The failure of MAC's overlap rule: an accumulator array meets the other one, the samples or the kernel
(40_command_model.md R117). -/
theorem overlapOk_mac_eq_false_iff {op : OpRecord} :
    overlapOk .mac op = false ↔
      (op.dst0.toNat < op.dst1.toNat + 16 ∧ op.dst1.toNat < op.dst0.toNat + 16) ∨
        (op.count ≠ 0 ∧ ∃ d ∈ [op.dst0.toNat, op.dst1.toNat],
          ((d < op.src0.toNat + 4 * op.count.toNat ∧ op.src0.toNat < d + 16) ∨
            (d < op.src1.toNat + 2 * op.count.toNat ∧ op.src1.toNat < d + 16))) := by
  rw [overlapOk_mac_eq_false, OpRecord.count_ne_zero]
  simp only [Range.intersects_iff, rangeAL_base, rangeAL_len, rangeAR_base, rangeAR_len, rangeS_base, rangeS_len,
    rangeK_base, rangeK_len, sourceBytes, List.mem_cons, List.not_mem_nil, or_false, exists_eq_or_imp, exists_eq_left]
  omega

/-! ### The checks in order -/

/-- The three operand checks, each by what its failure means (40_command_model.md R112). -/
theorem validateOperands_eq {i : Instr} {op : OpRecord} {align range overlap : Prop} [Decidable align]
    [Decidable range] [Decidable overlap] (ha : alignedOk i op = false ↔ align) (hr : rangesOk i op = false ↔ range)
    (ho : overlapOk i op = false ↔ overlap) :
    validateOperands i op =
      if align then some .align else if range then some .range else if overlap then some .overlap else none := by
  simp only [validateOperands, ha, hr, ho]

/-- The checks of a command with one source and one destination. -/
theorem validateOperands_of_ne_mac {i : Instr} (hi : i ≠ .mac) {op : OpRecord} {align : Prop} [Decidable align]
    (ha : alignedOk i op = false ↔ align) :
    validateOperands i op =
      if align then some .align
      else if 2 ^ 32 < op.src0.toNat + sourceBytes i * op.count.toNat ∨
          2 ^ 32 < op.dst0.toNat + destBytes i * op.count.toNat then some .range
      else if op.count ≠ 0 ∧ op.src0.toNat < op.dst0.toNat + destBytes i * op.count.toNat ∧
          op.dst0.toNat < op.src0.toNat + sourceBytes i * op.count.toNat ∧ op.src0 ≠ op.dst0 then some .overlap
      else none :=
  validateOperands_eq ha (by simp [rangesOk_eq_false, operandRanges_of_ne_mac hi]) (overlapOk_of_ne_mac_eq_false hi)

/-! ### The obligation -/

/-- Settles O15: decoding comes first, then the operand checks, each by what its failure means. -/
theorem validationChecksInOrder : Obligations.ValidationChecksInOrder := by
  intro op
  refine ⟨fun w hd => ?_, fun w hd => ?_, fun i hi => ?_, ?_, ?_, ?_⟩
  · simp only [validate, hd]
  · simp only [validate, hd]
  · have hpixels : i.wellFormed = true ∧ i ≠ .mac ∧ sourceBytes i = 2 ∧ destBytes i = 2 := by
      rcases hi with rfl | rfl | ⟨f, hf, rfl⟩
      exacts [⟨rfl, by simp, rfl, rfl⟩, ⟨rfl, by simp, rfl, rfl⟩, ⟨decide_eq_true hf, by simp, rfl, rfl⟩]
    obtain ⟨hwf, hmac, hs, hd⟩ := hpixels
    have halign := alignedOk_pixels_eq_false (op := op) (hi.imp_right (Or.imp_right fun ⟨f, _, h⟩ => ⟨f, h⟩))
    rw [validate_encode hwf, validateOperands_of_ne_mac hmac halign, hs, hd]
  · exact (validate_encode rfl op).trans (validateOperands_of_ne_mac (by simp) alignedOk_conv32_eq_false)
  · exact (validate_encode rfl op).trans
      (validateOperands_eq alignedOk_mac_eq_false rangesOk_mac_eq_false overlapOk_mac_eq_false_iff)
  · have halign : alignedOk .copy op = false ↔ False := by simp [alignedOk]
    rw [validate_encode rfl, validateOperands_of_ne_mac (by simp) halign, if_neg not_false]
    simp only [sourceBytes, destBytes, Nat.one_mul]

end Sys2Proof.Machine
end

section
/-! How a running command ends: what an end leaves unchanged, what it depends on, and what COUNT = 0 and a bus error
make of it (40_command_model.md R119, R120, R123, 43_audio_mac.md R195, 60_exceptions.md R236). -/

namespace Sys2Proof.Machine

/-! ### What an end leaves unchanged -/

/-- Every end of a command leaves the platform and the host's own records but the unread ends. -/
theorem finish_host_frame (i : Instr) (run : Run) (s : State) :
    (finish i (effectOf i) run s).platform = s.platform ∧ (finish i (effectOf i) run s).rdata = s.rdata ∧
    (finish i (effectOf i) run s).ldata = s.ldata ∧ (finish i (effectOf i) run s).owner = s.owner ∧
    (finish i (effectOf i) run s).unpublished = s.unpublished := by
  rcases finish_cases i (effectOf i) run s with ⟨h, -⟩ | ⟨h, -⟩ | ⟨h, -⟩ <;> rw [h] <;> simp

/-! ### What an end depends on -/

section
variable {m m' : Memory} {a n : Nat}

/-- A 16-bit element of a range depends on the bytes of the range. -/
theorem elem16_congr (h : ∀ x, a ≤ x → x < a + 2 * n → Memory.read m x = Memory.read m' x) {k : Nat} (hk : k < n) :
    elem16 m a k = elem16 m' a k :=
  Memory.read16_congr fun x h1 h2 => h x (by omega) (by omega)

/-- A 32-bit element of a range depends on the bytes of the range. -/
theorem elem32_congr (h : ∀ x, a ≤ x → x < a + 4 * n → Memory.read m x = Memory.read m' x) {k : Nat} (hk : k < n) :
    elem32 m a k = elem32 m' a k :=
  Memory.read32_congr fun x h1 h2 => h x (by omega) (by omega)
end

/-- What a command on pixels stores is given by the pixels of its elements. -/
theorem pixelEffect_congr {pixel pixel' : Nat → Half} {op : OpRecord} (h : ∀ k, k < op.n → pixel k = pixel' k) :
    pixelEffect pixel op = pixelEffect pixel' op := by
  simp only [pixelEffect, List.flatMap_congr fun k hk => congrArg bytes16 (h k (List.mem_range.mp hk))]

/-- The sums of MAC depend on its samples, its kernel and lane 0 of both arrays (43_audio_mac.md R190, R192). -/
theorem macSums_congr {op : OpRecord} {m m' : Memory}
    (h : ∀ r ∈ readRanges .mac op, ∀ a, r.base ≤ a → a < r.base + r.len → Memory.read m a = Memory.read m' a) :
    macSums op m = macSums op m' := by
  have hleft : Memory.read32 m op.dst0.toNat = Memory.read32 m' op.dst0.toNat :=
    Memory.read32_congr (h (laneL op) (by simp [readRanges]))
  have hright : Memory.read32 m op.dst1.toNat = Memory.read32 m' op.dst1.toNat :=
    Memory.read32_congr (h (laneR op) (by simp [readRanges]))
  have hkernel : ∀ k, k < op.n → elem16 m op.src1.toNat k = elem16 m' op.src1.toNat k := fun _ =>
    elem16_congr (h (rangeK op) (by simp [readRanges]))
  have hsample : ∀ j, j < 2 * op.n → elem16 m op.src0.toNat j = elem16 m' op.src0.toNat j := fun _ =>
    elem16_congr fun x h1 h2 => h (rangeS .mac op) (by simp [readRanges]) x h1 (by
      simp only [rangeS_base, rangeS_len, sourceBytes, OpRecord.n] at h2 ⊢
      omega)
  have hstart : macStart op m = macStart op m' := by rw [macStart, macStart, hleft, hright]
  have htap : ∀ k ∈ List.range op.n, macTap op m k = macTap op m' k := fun k hk => by
    have hk := List.mem_range.mp hk
    rw [macTap, macTap, hkernel k hk, hsample (2 * k) (by omega), hsample (2 * k + 1) (by omega)]
  rw [macSums, macSums, hstart, List.map_congr_left htap]

/-- What a command stores, and its overflow, depend on the bytes of its read ranges (40_command_model.md R119). -/
theorem effectOf_congr {i : Instr} {op : OpRecord} {m m' : Memory}
    (h : ∀ r ∈ readRanges i op, ∀ a, r.base ≤ a → a < r.base + r.len → Memory.read m a = Memory.read m' a) :
    effectOf i op m = effectOf i op m' := by
  have hsource := h (rangeS i op) (by cases i <;> simp [readRanges])
  cases i with
  | conv15c => exact pixelEffect_congr fun k hk => congrArg conv15cPixel (elem16_congr hsource hk)
  | conv15n => exact pixelEffect_congr fun k hk => congrArg conv15nPixel (elem16_congr hsource hk)
  | conv32 => exact pixelEffect_congr fun k hk => congrArg conv32Pixel (elem32_congr hsource hk)
  | blend f =>
    have hdest := h (rangeD (.blend f) op) (by simp [readRanges])
    exact pixelEffect_congr fun k hk =>
      congrArg₂ (blendPixel f.toNat) (elem16_congr hsource hk) (elem16_congr hdest hk)
  | mac => simp only [effectOf, macEffect, macSums_congr h]
  | copy =>
    have hbyte : ∀ j ∈ List.range op.n, copyOut op m j = copyOut op m' j := fun j hj =>
      hsource _ (Nat.le_add_right _ _) (by
        have hj := List.mem_range.mp hj
        simp only [rangeS_base, rangeS_len, sourceBytes, OpRecord.n] at hj ⊢
        omega)
    simp only [effectOf, copyEffect, List.map_congr_left hbyte]

/-- Settles O24: the frame of the three ends, and the elements each command reads. -/
theorem commandsTouchOnlyTheirRanges : Obligations.CommandsTouchOnlyTheirRanges := by
  refine ⟨fun i s t run he ht => ?_, fun i op m m' h => effectOf_congr h, fun i op hd hmac hne => ?_⟩
  · obtain rfl := Host.Outcome.next.inj ((exec_busy he).symm.trans ht)
    obtain ⟨hcmd, hsrc0, hsrc1, hdst0, hdst1, hcount, hwerr, -, -, -, -, hpending⟩ := finish_frame i run s
    obtain ⟨hplatform, hrdata, hldata, howner, hunpublished⟩ := finish_host_frame i run s
    exact ⟨fun a ha => read_finish_of_not_mem ha, hcmd, hsrc0, hsrc1, hdst0, hdst1, hcount, hwerr, hplatform, hrdata,
      hldata, howner, hunpublished, hpending⟩
  · cases i with
    | blend f => exact ⟨f, rfl⟩
    | mac => exact absurd rfl hmac
    | _ => exact absurd (List.mem_singleton.mp hd).symm hne

/-- The end of a command but for OVF is that of the STATUS before it but for OVF. -/
theorem Status.endDone_withoutOvf (st : Status) (b : Bool) :
    { st.endDone b with ovf := false } = ({ st with ovf := false } : Status).endDone false := rfl

/-- Settles O37: both runs complete with the one effect of the operands and the snapshot. -/
theorem resultDependsOnlyOnOpAndSnapshot : Obligations.ResultDependsOnlyOnOpAndSnapshot := by
  intro i s s' run he he' hp hm hm' hu
  have hu' : Undisturbed i run s' := ⟨hu.notRaced, hp ▸ hu.noBusError⟩
  refine ⟨_, _, exec_undisturbed he hu, exec_undisturbed he' hu', ?_, ?_, fun hst => ?_, fun hst => ?_, fun ho => ?_⟩
  · rw [complete_mem, complete_mem, hm, hm']
  · rw [complete_mem, hm]
  · rw [complete_status, complete_status, hst]
  · simp only [complete_status, Status.endDone_withoutOvf, hst]
  · simp [ho]

/-! ### COUNT = 0 -/

/-- A command accesses memory exactly when it has elements to process (40_command_model.md R120). -/
theorem accessRanges_eq_nil_iff {i : Instr} {op : OpRecord} : accessRanges i op = [] ↔ op.count = 0 := by
  have hreads : readRanges i op ≠ [] := by cases i <;> simp [readRanges]
  constructor
  · intro h
    by_contra hc
    rw [accessRanges_of_count hc, List.append_eq_nil_iff] at h
    exact hreads h.1
  · intro hc
    simp [accessRanges, OpRecord.n, hc]

/-- Without elements no access meets missing memory, so only a race disturbs a command. -/
theorem undisturbed_of_count_eq_zero {i : Instr} {run : Run} (hr : run.raced = false) (hc : run.op.count = 0)
    (s : State) : Undisturbed i run s :=
  ⟨hr, by simp [accessFails, Platform.covers, accessRanges_eq_nil_iff.mpr hc]⟩

theorem effectOf_ovf_of_count_eq_zero {op : OpRecord} (hc : op.count = 0) (i : Instr) (m0 : Memory) :
    (effectOf i op m0).ovf = false := by
  rw [← Bool.not_eq_true, effectOf_ovf, macSums_ovf_of_count_eq_zero hc]
  simp

theorem ranges_of_instr? {op : OpRecord} {i : Instr} (h : op.instr? = some i) : op.ranges = operandRanges i op := by
  simp only [OpRecord.ranges, h]

/-- The empty ranges of a command other than MAC do not run past the top of the address space. -/
theorem rangesOk_of_count_eq_zero {i : Instr} {op : OpRecord} (hi : i ≠ .mac) (hc : op.count = 0) :
    ¬rangesOk i op = false := by
  simp [rangesOk, operandRanges_of_ne_mac hi, hc]

theorem overlapOk_of_count_eq_zero {i : Instr} {op : OpRecord} (hi : i ≠ .mac) (hc : op.count = 0) :
    ¬overlapOk i op = false :=
  fun h => ((overlapOk_of_ne_mac_eq_false hi).mp h).1 hc

/-- Settles O25: empty ranges pass the range and overlap rules, an empty command stores nothing, and its snapshot is
data memory. -/
theorem zeroCountCompletesWithoutAccess : Obligations.ZeroCountCompletesWithoutAccess := by
  refine ⟨fun i op hi hc => ?_, fun op hc => ?_, fun i s run he hr hc => ?_, fun i s hwf he hb hc hv hr => ?_⟩
  · rw [validateOperands_eq Iff.rfl (iff_false_intro (rangesOk_of_count_eq_zero hi hc))
      (iff_false_intro (overlapOk_of_count_eq_zero hi hc)), if_neg not_false, if_neg not_false]
    cases alignedOk i op <;> rfl
  · refine validateOperands_eq alignedOk_mac_eq_false (rangesOk_mac_eq_false.trans ?_)
      (overlapOk_mac_eq_false_iff.trans ?_)
    · have hsrc0 := op.src0.isLt
      have hsrc1 := op.src1.isLt
      have hn : op.count.toNat = 0 := congrArg BitVec.toNat hc
      omega
    · simp [hc]
  · rw [exec_undisturbed he (undisturbed_of_count_eq_zero hr hc s), complete, writeAll_effectOf_of_count_eq_zero hc,
      effectOf_ovf_of_count_eq_zero hc, Status.endDone, Bool.or_false]
  · have hranges := ranges_of_instr? (instr?_latch_encode hwf s)
    rw [exec_idle he, accept_start ((validate_encode hwf _).trans hv) (hranges ▸ hr), startRun,
      snapshot_of_count_eq_zero (op := latch (encode i) s) hc]
    rfl

/-! ### Bus errors -/

/-- An error answer counts where the platform can give one and the command makes an access (60_exceptions.md R236). -/
theorem answeredWithError_error {p : Platform} {i : Instr} {op : OpRecord} :
    answeredWithError .error p i op = true ↔ p.hasBusError = true ∧ op.count ≠ 0 := by
  simp [answeredWithError, accessRanges_eq_nil_iff]

/-- Settles O38: an error answer that counts is the bus-error end, one that does not is as an ok answer, and accepted
ranges miss memory only where errors are reported. -/
theorem busErrorEndsTheCommand : Obligations.BusErrorEndsTheCommand := by
  refine ⟨fun s run i rest h he hi => ⟨fun hb hc => ?_, fun hno => ?_⟩, fun p rs hb hok r hr a h1 h2 hk => ?_⟩
  · have hend := (engineMove_busy (s := { s with pending := rest }) he hi).1 (answeredWithError_error.mpr ⟨hb, hc⟩)
    exact ⟨_, (step_of_pending h).trans hend, fun a ha => read_drawBytes_of_not_mem ha,
      fun r hr a h1 h2 => read_drawBytes_of_mem ⟨r, hr, h1, h2⟩⟩
  · have hignored : answeredWithError .error s.platform i run.op = false := by
      rw [← Bool.not_eq_true, answeredWithError_error]
      rintro ⟨hb, hc⟩
      exact hno.elim (fun hf => Bool.false_ne_true (hf.symm.trans hb)) hc
    have hrun : ({ s with pending := rest } : State).eng = .busy run := he
    rw [step_of_pending h, step_of_pending (s := { s with pending := .engine .ok :: rest }) rfl]
    exact ((engineMove_busy hrun hi).2 hignored).trans ((engineMove_busy hrun hi).2 rfl).symm
  · rcases ((onlyOwnedOrdinaryMemoryIsAccepted p rs).mp hok r hr).2 a h1 h2 with hord | ⟨-, herr⟩
    · simp [hk] at hord
    · simp [hb] at herr

end Sys2Proof.Machine
end

section
/-! The end of every command: each step makes one of the pending moves, and the engine moves when none is left
(40_command_model.md R121). -/

namespace Sys2Proof.Machine

/-! ### A step makes one move -/

theorem hostRegRead_pending {core : Nat} {off : BitVec 8} {size : Size} {s t : State}
    (h : hostRegRead core off size s = .next t) : t.pending = s.pending := by
  unfold hostRegRead at h
  split at h
  · simp at h
  · split at h <;> obtain rfl := Host.Outcome.next.inj h <;> simp

theorem writeCmd_pending {w : Word} {s t : State} (h : writeCmd w s = .next t) : t.pending = s.pending := by
  rcases writeCmd_cases w s with ha | ⟨run, i, -, hf⟩
  · rcases accept_next (ha.symm.trans h) with ⟨e, -, rfl⟩ | ⟨-, rfl⟩ <;> rfl
  · obtain ⟨-, -, -, -, -, -, -, -, -, -, -, hp⟩ := finish_frame i run s
    obtain rfl := Host.Outcome.next.inj (hf.symm.trans h)
    exact hp

theorem hostRegWrite_pending {core : Nat} {off : BitVec 8} {size : Size} {v : Word} {s t : State}
    (h : hostRegWrite core off size v s = .next t) : t.pending = s.pending := by
  rcases hostRegWrite_cases h with ⟨-, rfl⟩ | ⟨-, rfl⟩ | ⟨reg, o, -, -, ⟨-, rfl⟩ | ⟨-, -, hc⟩ | ⟨-, -, rfl⟩⟩
  · rfl
  · rfl
  · rfl
  · exact writeCmd_pending (s := { s with owner := o }) hc
  · exact writeOperand_pending reg v _

/-- A move of the host adds no move to come and takes none away. -/
theorem hostMove_pending {core : Nat} {op : HostOp} {s t : State} (h : hostMove core op s = .next t) :
    t.pending = s.pending := by
  cases op with
  | regWrite off size v => exact hostRegWrite_pending h
  | regRead off size => exact hostRegRead_pending h
  | publish => obtain rfl := Host.Outcome.next.inj h; rfl
  | load addr size =>
    simp only [hostMove, hostLoad] at h
    split at h
    · simp at h
    · split at h
      · exact hostRegRead_pending h
      · split at h
        · simp at h
        · obtain rfl := Host.Outcome.next.inj h
          rfl
  | store addr size v visible =>
    simp only [hostMove, hostStore] at h
    split at h
    · simp at h
    · split at h
      · exact hostRegWrite_pending h
      · split at h
        · simp at h
        · obtain rfl := Host.Outcome.next.inj h
          rw [storeData_eq]

theorem engineMove_pending {answer : BusAnswer} {s t : State} (h : engineMove answer s = .next t) :
    t.pending = s.pending := by
  rcases engineMove_ends h with ⟨-, rfl⟩ | ⟨run, i, -, -, rfl | ⟨rfl, -⟩ | ⟨rfl, -⟩⟩ <;> rfl

theorem resetInput_pending (s : State) : (resetInput s).pending = s.pending := by
  unfold resetInput
  cases s.eng <;> rfl

/-- A step takes the next move off the pending ones and leaves the others. -/
theorem step_pending {s t : State} (h : step s = .next t) : t.pending = s.pending.tail := by
  rcases step_cases h with ⟨-, rfl⟩ | ⟨answer, -, h⟩ | ⟨v, answer, -, h⟩ | ⟨core, op, -, h⟩
  · exact resetInput_pending s.popMove
  · exact engineMove_pending h
  · exact engineMove_pending h
  · exact hostMove_pending h

/-! ### The engine's turn -/

/-- After the engine's move no command is running. -/
theorem engineMove_idle {answer : BusAnswer} {s t : State} (h : engineMove answer s = .next t) : t.eng = .idle := by
  rcases engineMove_ends h with ⟨he, rfl⟩ | ⟨run, i, -, -, rfl | ⟨rfl, -⟩ | ⟨rfl, -⟩⟩
  · exact he
  all_goals rfl

/-- With no move pending the step is the engine's (log entries 3 and 18). -/
theorem step_of_no_pending {s : State} (h : s.pending = []) : step s = engineMove .ok s := by
  simp only [step, h]

/-- Running the pending moves and one more step ends with the engine's turn. -/
theorem run_pending_idle {s t : State} {moves : List Move} (hp : s.pending = moves)
    (h : Sys2Proof.core.run (moves.length + 1) s = .next t) : t.eng = .idle := by
  induction moves generalizing s with
  | nil => exact engineMove_idle ((step_of_no_pending hp).symm.trans ((run_one s).symm.trans h))
  | cons m rest ih =>
    cases hs : step s with
    | next u => exact ih ((step_pending hs).trans (congrArg List.tail hp)) ((run_next hs).symm.trans h)
    | fault r => simp [run_fault hs] at h
    | refused r => simp [run_refused hs] at h

/-- The invariant holds along every run. -/
theorem Invariant.run {s t : State} (hi : Invariant s) {k : Nat} (h : Sys2Proof.core.run k s = .next t) :
    Invariant t := by
  induction k generalizing s with
  | zero =>
    obtain rfl := Host.Outcome.next.inj h
    exact hi
  | succ k ih =>
    cases hs : step s with
    | next u => exact ih (everyStepKeepsTheInvariant s u hi hs) ((run_next hs).symm.trans h)
    | fault r => simp [run_fault hs] at h
    | refused r => simp [run_refused hs] at h

/-- Settles O49: the last step of such a run is the engine's, and a running command of a good state has a meaning. -/
theorem everyCommandEnds : Obligations.EveryCommandEnds := by
  refine ⟨fun s t hi h => ?_, fun s run hi he hp => ?_⟩
  · have hidle := run_pending_idle rfl h
    exact ⟨hidle, not_busy_of_eng (hi.run h) hidle⟩
  · obtain ⟨i, hinstr, -⟩ := good_ranges (run_good hi he)
    obtain ⟨-, -, -, -, -, -, -, heng, hbusy, hdone, -, -⟩ := finish_frame i run s
    exact ⟨_, (step_of_no_pending hp).trans ((engineMove_busy he hinstr).2 rfl), heng, hbusy, hdone⟩

end Sys2Proof.Machine
end

section
/-! The arithmetic of the converted pixels (41_color_convert.md R140, R143, R145, R146, R148, R149): a packed pixel
gives its channels back, so each command is seen channel by channel. -/

namespace Sys2Proof.Machine

/-! ### Channels and packed pixels -/

theorem red15_lt (p : Half) : red15 p < 32 := (p.extractLsb' 0 5).isLt

theorem green15_lt (p : Half) : green15 p < 32 := (p.extractLsb' 5 5).isLt

theorem blue15_lt (p : Half) : blue15 p < 32 := (p.extractLsb' 10 5).isLt

theorem red565_lt (q : Half) : red565 q < 32 := (q.extractLsb' 11 5).isLt

theorem green565_lt (q : Half) : green565 q < 64 := (q.extractLsb' 5 6).isLt

theorem blue565_lt (q : Half) : blue565 q < 32 := (q.extractLsb' 0 5).isLt

/-- A packed pixel whose channels fit gives them back (41_color_convert.md R141). -/
theorem channels_pack565 {r g b : Nat} (hr : r < 32) (hg : g < 64) (hb : b < 32) :
    red565 (pack565 r g b) = r ∧ green565 (pack565 r g b) = g ∧ blue565 (pack565 r g b) = b := by
  obtain ⟨hred, hgreen, hblue, -⟩ := fields_of_pack (pack565_toNat hr hg hb) hg hb
  exact ⟨(red565_eq _).trans hred, (green565_eq _).trans hgreen, (blue565_eq _).trans hblue⟩

/-- A 565 pixel is the packing of its channels (41_color_convert.md R141). -/
theorem pack565_channels (q : Half) : pack565 (red565 q) (green565 q) (blue565 q) = q := by
  apply BitVec.eq_of_toNat_eq
  rw [pack565_toNat (red565_lt q) (green565_lt q) (blue565_lt q), red565_eq, green565_eq, blue565_eq]
  omega

/-- Shifting a field right leaves its upper part. -/
theorem toNat_extractLsb'_shiftRight {width : Nat} (x : BitVec width) (start len k : Nat) :
    (x.extractLsb' start (len + k)).toNat >>> k = (x.extractLsb' (start + k) len).toNat := by
  rw [BitVec.extractLsb'_toNat, BitVec.extractLsb'_toNat, Nat.shiftRight_add, Nat.shiftRight_eq_div_pow _ k,
    Nat.shiftRight_eq_div_pow _ k, Nat.add_comm len k, Nat.pow_add, Nat.mod_mul_right_div_self]

/-! ### CONV15C -/

/-- Each weight row of the correction sums to its divisor, so its sum is at most that many times 31
(41_color_convert.md R143). -/
theorem conv15c_sums_le (p : Half) :
    red15 p * 13 + green15 p * 2 + blue15 p ≤ 496 ∧ green15 p * 3 + blue15 p ≤ 124 ∧
      red15 p * 3 + green15 p * 2 + blue15 p * 11 ≤ 496 := by
  have hr := red15_lt p
  have hg := green15_lt p
  have hb := blue15_lt p
  omega

/-- The corrected channels before the clamps fit 5 bits, green too. -/
theorem conv15c_channels_le (p : Half) :
    (red15 p * 13 + green15 p * 2 + blue15 p) >>> 4 ≤ 31 ∧ (green15 p * 3 + blue15 p) >>> 2 ≤ 31 ∧
      (red15 p * 3 + green15 p * 2 + blue15 p * 11) >>> 4 ≤ 31 := by
  obtain ⟨hr, hg, hb⟩ := conv15c_sums_le p
  simp only [Nat.shiftRight_eq_div_pow]
  omega

/-- One pixel of CONV15C without the clamps, which never bind. -/
theorem conv15cPixel_eq_pack565 (p : Half) :
    conv15cPixel p = pack565 ((red15 p * 13 + green15 p * 2 + blue15 p) >>> 4) ((green15 p * 3 + blue15 p) >>> 2)
      ((red15 p * 3 + green15 p * 2 + blue15 p * 11) >>> 4) := by
  obtain ⟨hr, hg, hb⟩ := conv15c_channels_le p
  rw [conv15cPixel, clamp_of_le hr, clamp_of_le (hg.trans (by decide)), clamp_of_le hb]

/-- A packed pixel whose green channel fits 5 bits has bit 10 clear and is at most 0xFBFF. -/
theorem pack565_of_green_lt_32 {r g b : Nat} (hr : r < 32) (hg : g < 32) (hb : b < 32) :
    (pack565 r g b).getLsbD 10 = false ∧ (pack565 r g b).toNat ≤ 0xFBFF := by
  have hpack := pack565_toNat hr (hg.trans (by decide)) hb
  constructor
  · rw [getLsbD_eq_div, hpack, decide_eq_false_iff_not]
    omega
  · omega

/-- CONV15C keeps a grey pixel grey, at the same level (41_color_convert.md R143). -/
theorem conv15cPixel_of_grey {p : Half} (hrg : red15 p = green15 p) (hgb : green15 p = blue15 p) :
    conv15cPixel p = pack565 (red15 p) (red15 p) (red15 p) := by
  rw [conv15cPixel_eq_pack565, ← hgb, ← hrg]
  congr 1 <;> rw [Nat.shiftRight_eq_div_pow] <;> omega

/-- Settles O26: the sums bound the channels, so the clamps are the identity and green fits 5 bits. -/
theorem conv15cClampsNeverBind : Obligations.Conv15cClampsNeverBind := by
  refine ⟨fun p => ?_, by decide⟩
  obtain ⟨hsr, hsg, hsb⟩ := conv15c_sums_le p
  obtain ⟨hr, hg, hb⟩ := conv15c_channels_le p
  obtain ⟨hbit, hmax⟩ := pack565_of_green_lt_32 (Nat.lt_succ_of_le hr) (Nat.lt_succ_of_le hg) (Nat.lt_succ_of_le hb)
  rw [← conv15cPixel_eq_pack565] at hbit hmax
  exact ⟨hr, hg, hb, hsr, hsg, hsb, conv15cPixel_eq_pack565 p, hbit, hmax, conv15cPixel_of_grey⟩

/-! ### CONV15N -/

theorem green15_double_lt (p : Half) : green15 p <<< 1 < 64 := by
  have hg := green15_lt p
  rw [Nat.shiftLeft_eq]
  omega

/-- The channels of one pixel of CONV15N (41_color_convert.md R144). -/
theorem conv15nPixel_channels (p : Half) :
    red565 (conv15nPixel p) = red15 p ∧ green565 (conv15nPixel p) = green15 p <<< 1 ∧
      blue565 (conv15nPixel p) = blue15 p :=
  channels_pack565 (red15_lt p) (green15_double_lt p) (blue15_lt p)

/-- Settles O27: red and blue are passed through, and green is doubled in its field. -/
theorem conv15nKeepsChannelsAndClearsBit5 : Obligations.Conv15nKeepsChannelsAndClearsBit5 := by
  intro p
  obtain ⟨hr, hg, hb⟩ := conv15nPixel_channels p
  refine ⟨?_, BitVec.eq_of_toNat_eq hr, BitVec.eq_of_toNat_eq hb, BitVec.eq_of_toNat_eq ?_⟩
  · rw [green565_eq, Nat.shiftLeft_eq] at hg
    rw [getLsbD_eq_div, decide_eq_false_iff_not]
    omega
  · calc ((conv15nPixel p).extractLsb' 6 5).toNat
        = green565 (conv15nPixel p) >>> 1 := (toNat_extractLsb'_shiftRight _ 5 5 1).symm
      _ = green15 p := by rw [hg, Nat.shiftLeft_shiftRight]

/-! ### CONV32: each channel is the upper part of its byte -/

theorem red32_shiftRight (w : Word) : red32 w >>> 3 = (w.extractLsb' 19 5).toNat :=
  toNat_extractLsb'_shiftRight w 16 5 3

theorem green32_shiftRight (w : Word) : green32 w >>> 2 = (w.extractLsb' 10 6).toNat :=
  toNat_extractLsb'_shiftRight w 8 6 2

theorem blue32_shiftRight (w : Word) : blue32 w >>> 3 = (w.extractLsb' 3 5).toNat :=
  toNat_extractLsb'_shiftRight w 0 5 3

theorem conv32_channels_lt (w : Word) : red32 w >>> 3 < 32 ∧ green32 w >>> 2 < 64 ∧ blue32 w >>> 3 < 32 := by
  rw [red32_shiftRight, green32_shiftRight, blue32_shiftRight]
  exact ⟨BitVec.isLt _, BitVec.isLt _, BitVec.isLt _⟩

/-- A word whose upper channel parts are those of a 565 pixel, with zeros below and above them. -/
def wordOf565 (q : Half) : Word :=
  0#8 ++ q.extractLsb' 11 5 ++ 0#3 ++ q.extractLsb' 5 6 ++ 0#2 ++ q.extractLsb' 0 5 ++ 0#3

theorem wordOf565_fields (q : Half) :
    (wordOf565 q).extractLsb' 19 5 = q.extractLsb' 11 5 ∧ (wordOf565 q).extractLsb' 10 6 = q.extractLsb' 5 6 ∧
      (wordOf565 q).extractLsb' 3 5 = q.extractLsb' 0 5 := by
  simp only [wordOf565, BitVec.extractLsb'_append_eq_of_le, Nat.reduceLeDiff, Nat.reduceSub,
    BitVec.extractLsb'_append_eq_right, and_self]

theorem conv32Pixel_wordOf565 (q : Half) : conv32Pixel (wordOf565 q) = q := by
  obtain ⟨hr, hg, hb⟩ := wordOf565_fields q
  rw [conv32Pixel, red32_shiftRight, green32_shiftRight, blue32_shiftRight, hr, hg, hb]
  exact pack565_channels q

/-- Settles O28: every shifted channel is a field of the word, and every 565 pixel comes from its own fields. -/
theorem conv32TruncatesEveryChannel : Obligations.Conv32TruncatesEveryChannel := by
  refine ⟨fun w => ?_, fun q => ⟨wordOf565 q, conv32Pixel_wordOf565 q⟩, by decide, by decide, by decide⟩
  obtain ⟨hr, hg, hb⟩ := conv32_channels_lt w
  obtain ⟨hred, hgreen, hblue⟩ := channels_pack565 hr hg hb
  exact ⟨Nat.le_of_lt_succ hr, Nat.le_of_lt_succ hg, Nat.le_of_lt_succ hb,
    BitVec.eq_of_toNat_eq (hred.trans (red32_shiftRight w)),
    BitVec.eq_of_toNat_eq (hgreen.trans (green32_shiftRight w)),
    BitVec.eq_of_toNat_eq (hblue.trans (blue32_shiftRight w))⟩

/-! ### Unused bits -/

/-- The channels do not read bit 15 (41_color_convert.md R140). -/
theorem channels15_flip_bit15 (p : Half) :
    red15 (p ^^^ 0x8000) = red15 p ∧ green15 (p ^^^ 0x8000) = green15 p ∧ blue15 (p ^^^ 0x8000) = blue15 p := by
  have hr : (0x8000 : Half).extractLsb' 0 5 = 0#5 := by decide
  have hg : (0x8000 : Half).extractLsb' 5 5 = 0#5 := by decide
  have hb : (0x8000 : Half).extractLsb' 10 5 = 0#5 := by decide
  simp only [red15, green15, blue15, BitVec.extractLsb'_xor, hr, hg, hb, BitVec.xor_zero, and_self]

/-- Words that agree on bits [23:0] agree on every field inside them. -/
theorem extractLsb'_congr_low {w v : Word} {start len : Nat} (hin : start + len ≤ 24)
    (h : w.extractLsb' 0 24 = v.extractLsb' 0 24) : w.extractLsb' start len = v.extractLsb' start len := by
  rw [← BitVec.extractLsb'_extractLsb'_of_le hin, h, BitVec.extractLsb'_extractLsb'_of_le hin]

/-- CONV32 does not read bits [31:24] (41_color_convert.md R148). -/
theorem conv32Pixel_congr {w v : Word} (h : w.extractLsb' 0 24 = v.extractLsb' 0 24) :
    conv32Pixel w = conv32Pixel v := by
  simp only [conv32Pixel, red32, green32, blue32, extractLsb'_congr_low (start := 16) (len := 8) (by decide) h,
    extractLsb'_congr_low (start := 8) (len := 8) (by decide) h,
    extractLsb'_congr_low (start := 0) (len := 8) (by decide) h]

/-- Settles O29: the rules read the channels alone; green is doubled by CONV15N and kept by CONV15C. -/
theorem unusedBitsAndGreenScales : Obligations.UnusedBitsAndGreenScales := by
  refine ⟨fun p => ?_, fun w v => conv32Pixel_congr, fun p hrg hgb => ⟨?_, ?_⟩⟩
  · obtain ⟨hr, hg, hb⟩ := channels15_flip_bit15 p
    simp only [conv15cPixel, conv15nPixel, hr, hg, hb, and_self]
  · obtain ⟨-, hg, -⟩ := conv15nPixel_channels p
    exact hg.trans (by rw [Nat.shiftLeft_eq, Nat.mul_comm])
  · rw [conv15cPixel_of_grey hrg hgb, hrg]
    have hc := green15_lt p
    obtain ⟨-, hgreen, -⟩ := channels_pack565 hc (hc.trans (by decide)) hc
    exact hgreen

end Sys2Proof.Machine
end

section
/-! Frame blending and commands in place (42_frame_blend.md R172 to R174, 44_bulk_copy.md R213): a blended channel is a
weighted mean of its inputs, so it lies between them, and a pixel blended with itself is itself. -/

namespace Sys2Proof.Machine

/-! ### One channel -/

/-- The weights of BLEND add up to 256, so the sum lies between 256 times the bounds of its inputs. -/
theorem weightedSum_bounds {f s d lo hi : Nat} (hf : f ≤ 256) (hs : lo ≤ s ∧ s ≤ hi) (hd : lo ≤ d ∧ d ≤ hi) :
    lo * 256 ≤ s * f + d * (256 - f) ∧ s * f + d * (256 - f) ≤ hi * 256 := by
  have htotal : ∀ c, c * 256 = c * f + c * (256 - f) := fun c => by rw [← Nat.mul_add, Nat.add_sub_cancel' hf]
  rw [htotal lo, htotal hi]
  exact ⟨Nat.add_le_add (Nat.mul_le_mul_right f hs.1) (Nat.mul_le_mul_right _ hd.1),
    Nat.add_le_add (Nat.mul_le_mul_right f hs.2) (Nat.mul_le_mul_right _ hd.2)⟩

/-- A blended channel lies between every two bounds of both its inputs (42_frame_blend.md R173). -/
theorem blendChannel_bounds {f s d lo hi : Nat} (hf : f ≤ 256) (hs : lo ≤ s ∧ s ≤ hi) (hd : lo ≤ d ∧ d ≤ hi) :
    lo ≤ blendChannel f s d ∧ blendChannel f s d ≤ hi := by
  obtain ⟨hlo, hhi⟩ := weightedSum_bounds hf hs hd
  rw [blendChannel_eq]
  omega

theorem blendChannel_self {f : Nat} (hf : f ≤ 256) (c : Nat) : blendChannel f c c = c := by
  obtain ⟨hlo, hhi⟩ := blendChannel_bounds hf ⟨le_refl c, le_refl c⟩ ⟨le_refl c, le_refl c⟩
  exact le_antisymm hhi hlo

/-- Exchanging the inputs and the weights gives the same channel (42_frame_blend.md R173). -/
theorem blendChannel_swap {f : Nat} (hf : f ≤ 256) (s d : Nat) : blendChannel f s d = blendChannel (256 - f) d s := by
  rw [blendChannel_eq, blendChannel_eq, Nat.sub_sub_self hf, Nat.add_comm]

theorem blendChannel_256 (s d : Nat) : blendChannel 256 s d = s := by simp [blendChannel_eq]

theorem blendChannel_zero (s d : Nat) : blendChannel 0 s d = d := by simp [blendChannel_eq]

/-! ### One pixel -/

/-- No field of a blended pixel reaches another (42_frame_blend.md R173). -/
theorem blendPixel_channels {f : Nat} (hf : f ≤ 256) (s d : Half) :
    red565 (blendPixel f s d) = blendChannel f (red565 s) (red565 d) ∧
      green565 (blendPixel f s d) = blendChannel f (green565 s) (green565 d) ∧
      blue565 (blendPixel f s d) = blendChannel f (blue565 s) (blue565 d) := by
  simp only [blendPixel, blendChannel_eq]
  exact channels_pack565 (weightedMean_lt hf (red565_lt s) (red565_lt d))
    (weightedMean_lt hf (green565_lt s) (green565_lt d)) (weightedMean_lt hf (blue565_lt s) (blue565_lt d))

theorem blendPixel_swap {f : Nat} (hf : f ≤ 256) (s d : Half) : blendPixel f s d = blendPixel (256 - f) d s := by
  simp only [blendPixel, blendChannel_swap hf]

theorem blendPixel_256 (s d : Half) : blendPixel 256 s d = s := by
  simp only [blendPixel, blendChannel_256, pack565_channels]

theorem blendPixel_zero (s d : Half) : blendPixel 0 s d = d := by
  simp only [blendPixel, blendChannel_zero, pack565_channels]

/-- Blending a pixel with itself gives it back (42_frame_blend.md R174). -/
theorem blendPixel_self {f : Nat} (hf : f ≤ 256) (p : Half) : blendPixel f p p = p := by
  simp only [blendPixel, blendChannel_self hf, pack565_channels]

/-- Settles O31: the weights add up to 256, so each channel is a mean of its inputs and fits their field. -/
theorem blendStaysBetweenItsInputs : Obligations.BlendStaysBetweenItsInputs := by
  refine ⟨fun f cs cd hf => ?_, fun f s d hf => ?_, by decide, by decide, by decide⟩
  · exact blendChannel_bounds hf ⟨min_le_left cs cd, le_max_left cs cd⟩ ⟨min_le_right cs cd, le_max_right cs cd⟩
  · obtain ⟨hred, hgreen, hblue⟩ := blendPixel_channels hf s d
    obtain ⟨-, hsum⟩ := weightedSum_bounds hf ⟨Nat.zero_le _, Nat.le_of_lt_succ (green565_lt s)⟩
      ⟨Nat.zero_le _, Nat.le_of_lt_succ (green565_lt d)⟩
    exact ⟨hred, hgreen, hblue, hsum, blendPixel_swap hf s d⟩

/-! ### The whole command -/

/-- The destination elements after an undisturbed BLEND (42_frame_blend.md R171). -/
theorem elem16_blend {f : BitVec 9} {op : OpRecord} {k : Nat} (hk : k < op.count.toNat) (m m0 : Memory) :
    elem16 (Memory.writeAll m (effectOf (.blend f) op m0).writes) op.dst0.toNat k =
      blendPixel f.toNat (elem16 m0 op.src0.toNat k) (elem16 m0 op.dst0.toNat k) :=
  elem16_writeBytes_pixels m op.dst0.toNat op.n k (blendOut f op m0) hk

/-- The destination bytes after an undisturbed COPY (44_bulk_copy.md R210). -/
theorem read_copy {op : OpRecord} {j : Nat} (hj : j < op.count.toNat) (m m0 : Memory) :
    Memory.read (Memory.writeAll m (effectOf .copy op m0).writes) (op.dst0.toNat + j) =
      Memory.read m0 (op.src0.toNat + j) := by
  have hread := Memory.read_writeBytes m op.dst0.toNat ((List.range op.n).map (copyOut op m0)) (op.dst0.toNat + j)
  rw [if_pos (by simpa [OpRecord.n] using hj)] at hread
  exact hread.trans (by simp [OpRecord.n, copyOut, hj])

/-- Settles O30: a weight of 0 drops its input, and the other one is passed through. -/
theorem blendIdentitiesAreExact : Obligations.BlendIdentitiesAreExact := by
  refine ⟨fun s d => ⟨blendPixel_256 s d, blendPixel_zero s d⟩, fun s run he hu => ?_, fun s run he hu => ?_⟩
  · exact ⟨_, exec_undisturbed he hu, fun k hk => (elem16_blend hk _ _).trans (blendPixel_256 _ _)⟩
  · exact ⟨_, exec_undisturbed he hu, fun k hk => (elem16_blend hk _ _).trans (blendPixel_zero _ _)⟩

/-! ### In place -/

/-- Equal 16-bit elements have equal bytes. -/
theorem Memory.read_eq_of_read16_eq {m m' : Memory} {a : Nat} (h : Memory.read16 m a = Memory.read16 m' a) :
    Memory.read m a = Memory.read m' a ∧ Memory.read m (a + 1) = Memory.read m' (a + 1) := by
  have hvalue := congrArg BitVec.toNat h
  rw [Memory.read16_toNat, Memory.read16_toNat] at hvalue
  bv_omega

/-- A range whose 16-bit elements agree agrees in every byte. -/
theorem read_eq_of_elem16_eq {m m' : Memory} {a n j : Nat} (h : ∀ k, k < n → elem16 m a k = elem16 m' a k)
    (hj : j < 2 * n) : Memory.read m (a + j) = Memory.read m' (a + j) := by
  obtain ⟨hlow, hhigh⟩ := Memory.read_eq_of_read16_eq (h (j / 2) (by omega))
  rcases Nat.mod_two_eq_zero_or_one j with heven | hodd
  · rwa [show a + 2 * (j / 2) = a + j by omega] at hlow
  · rwa [show a + 2 * (j / 2) + 1 = a + j by omega] at hhigh

/-- COPY and BLEND with the destination at the source store the snapshot's own bytes (44_bulk_copy.md R213,
42_frame_blend.md R174). -/
theorem read_inPlace {i : Instr} (hi : i = .copy ∨ ∃ f : BitVec 9, f.toNat ≤ 256 ∧ i = .blend f) {op : OpRecord}
    (hplace : op.src0 = op.dst0) {j : Nat} (hj : j < (rangeD i op).len) (m m0 : Memory) :
    Memory.read (Memory.writeAll m (effectOf i op m0).writes) (op.dst0.toNat + j) =
      Memory.read m0 (op.dst0.toNat + j) := by
  rcases hi with rfl | ⟨f, hf, rfl⟩
  · rw [read_copy (by simpa [destBytes] using hj), hplace]
  · refine read_eq_of_elem16_eq (fun k hk => ?_) hj
    rw [elem16_blend hk, hplace, blendPixel_self hf]

/-- The overlap rule of every command but MAC passes in place (40_command_model.md R117). -/
theorem overlapOk_inPlace {i : Instr} (hi : i ≠ .mac) {op : OpRecord} (hplace : op.src0 = op.dst0) :
    overlapOk i op = true := by
  rw [← Bool.not_eq_false, overlapOk_of_ne_mac_eq_false hi]
  rintro ⟨-, -, -, hne⟩
  exact hne hplace

/-- Settles O35: in place each pixel is blended with itself, and the overlap rule is the last of the checks. -/
theorem inPlaceCopyAndBlendChangeNothing : Obligations.InPlaceCopyAndBlendChangeNothing := by
  refine ⟨fun i hi => ⟨fun op hplace => overlapOk_inPlace ?_ hplace, fun s run he hu hplace => ?_⟩,
    fun f op hf halign hranges hmeet hne => ?_⟩
  · rcases hi with rfl | ⟨f, -, rfl⟩ <;> simp
  · refine ⟨_, exec_undisturbed he hu, fun a h1 h2 => ?_⟩
    obtain ⟨j, rfl⟩ := Nat.exists_eq_add_of_le h1
    exact read_inPlace hi hplace (Nat.lt_of_add_lt_add_left h2) _ _
  · have hoverlap : overlapOk (.blend f) op = false := inPlaceOrDisjoint_eq_false.mpr ⟨hmeet, hne⟩
    have hwf : (Instr.blend f).wellFormed = true := decide_eq_true hf
    rw [validate_encode hwf]
    simp [validateOperands, halign, hranges, hoverlap]

end Sys2Proof.Machine
end

section
/-! Audio multiply-accumulate (43_audio_mac.md R192 to R194): overflow and the order of the taps, a MAC in two
parts, and the lanes it does not touch. -/

namespace Sys2Proof.Machine

/-! ### The taps of one MAC -/

/-- A beat overflows where an exact running sum after one of its taps leaves the s32 range (43_audio_mac.md R193). -/
theorem macBeat_ovf_eq_true {a : MacSums} {taps : List MacTap} :
    (macBeat a taps).ovf = true ↔ a.ovf = true ∨ ∃ j, j < taps.length ∧
      (outsideS32 (a.left + ((taps.take (j + 1)).map (fun t => t.sl * t.k)).sum) = true ∨
        outsideS32 (a.right + ((taps.take (j + 1)).map (fun t => t.sr * t.k)).sum) = true) := by
  simp only [macBeat, Bool.or_eq_true, List.any_eq_true, List.mem_range]

/-- The lanes are the exact sums over all taps, wrapped once (43_audio_mac.md R193). -/
theorem foldl_macStep_lanes {a : MacSums} (ha : a.InRange) (taps : List MacTap) :
    (taps.foldl macStep a).left = wrapS32 (a.left + (taps.map (fun t => t.sl * t.k)).sum) ∧
      (taps.foldl macStep a).right = wrapS32 (a.right + (taps.map (fun t => t.sr * t.k)).sum) := by
  rw [← macBeat_eq_foldl ha]
  simp [macBeat]

/-- The order of the taps does not change the lanes. -/
theorem foldl_macStep_lanes_perm {a : MacSums} (ha : a.InRange) {taps taps' : List MacTap} (h : taps.Perm taps') :
    (taps.foldl macStep a).left = (taps'.foldl macStep a).left ∧
      (taps.foldl macStep a).right = (taps'.foldl macStep a).right := by
  obtain ⟨hl, hr⟩ := foldl_macStep_lanes ha taps
  obtain ⟨hl', hr'⟩ := foldl_macStep_lanes ha taps'
  rw [hl, hr, hl', hr', (h.map _).sum_eq, (h.map _).sum_eq]
  exact ⟨rfl, rfl⟩

/-- Settles O32: all taps are one beat, and the sum before the first tap is in range. -/
theorem macOverflowIsThatOfTheExactSums : Obligations.MacOverflowIsThatOfTheExactSums := by
  refine ⟨fun a taps hl hl' hr hr' => ?_, fun a taps taps' hl hl' hr hr' => ?_, by decide⟩
  · intro sumL sumR
    have hstart : ¬(sumL 0 < -2 ^ 31 ∨ 2 ^ 31 ≤ sumL 0 ∨ sumR 0 < -2 ^ 31 ∨ 2 ^ 31 ≤ sumR 0) := by
      simp only [sumL, sumR, List.take_zero, List.map_nil, List.sum_nil]
      omega
    rw [← macBeat_eq_foldl ⟨⟨hl, hl'⟩, hr, hr'⟩]
    refine ⟨rfl, rfl, ?_⟩
    simp only [← Nat.lt_succ_iff, Nat.exists_lt_succ_left, hstart, false_or]
    rw [macBeat_ovf_eq_true]
    simp only [outsideS32_iff, or_assoc, sumL, sumR]
  · exact foldl_macStep_lanes_perm ⟨⟨hl, hl'⟩, hr, hr'⟩

/-! ### What a validated MAC keeps apart -/

theorem validateOperands_eq_none_iff {i : Instr} {op : OpRecord} :
    validateOperands i op = none ↔ ¬alignedOk i op = false ∧ ¬rangesOk i op = false ∧ ¬overlapOk i op = false := by
  unfold validateOperands
  split_ifs <;> simp_all

/-- A MAC passes the checks when its addresses are aligned, no range passes the top of the address space, and the
accumulator arrays lie apart from each other and from the samples and the kernel (40_command_model.md R114 to R117). -/
theorem validateOperands_mac_eq_none_iff {op : OpRecord} :
    validateOperands .mac op = none ↔
      (op.src0.toNat % 2 = 0 ∧ op.src1.toNat % 2 = 0 ∧ op.dst0.toNat % 4 = 0 ∧ op.dst1.toNat % 4 = 0) ∧
      (op.src0.toNat + 4 * op.count.toNat ≤ 2 ^ 32 ∧ op.src1.toNat + 2 * op.count.toNat ≤ 2 ^ 32 ∧
        op.dst0.toNat + 16 ≤ 2 ^ 32 ∧ op.dst1.toNat + 16 ≤ 2 ^ 32) ∧
      (op.dst0.toNat + 16 ≤ op.dst1.toNat ∨ op.dst1.toNat + 16 ≤ op.dst0.toNat) ∧
      (op.count.toNat ≠ 0 → ∀ d ∈ [op.dst0.toNat, op.dst1.toNat],
        (op.src0.toNat + 4 * op.count.toNat ≤ d ∨ d + 16 ≤ op.src0.toNat) ∧
          (op.src1.toNat + 2 * op.count.toNat ≤ d ∨ d + 16 ≤ op.src1.toNat)) := by
  rw [validateOperands_eq_none_iff, alignedOk_mac_eq_false, rangesOk_mac_eq_false, overlapOk_mac_eq_false_iff,
    OpRecord.count_ne_zero]
  simp only [List.mem_cons, List.not_mem_nil, or_false, exists_eq_or_imp, exists_eq_left, forall_eq_or_imp, forall_eq]
  omega

/-- The samples and the kernel of a validated MAC lie apart from both accumulator arrays. -/
theorem inputs_apart {op : OpRecord} (hv : validateOperands .mac op = none) {a : Nat}
    (ha : (op.src0.toNat ≤ a ∧ a < op.src0.toNat + 4 * op.count.toNat) ∨
      (op.src1.toNat ≤ a ∧ a < op.src1.toNat + 2 * op.count.toNat)) :
    ¬(op.dst0.toNat ≤ a ∧ a < op.dst0.toNat + 16) ∧ ¬(op.dst1.toNat ≤ a ∧ a < op.dst1.toNat + 16) := by
  obtain ⟨-, -, -, hinputs⟩ := validateOperands_mac_eq_none_iff.mp hv
  have hinputs := hinputs (by omega)
  have hleft := hinputs op.dst0.toNat (by simp)
  have hright := hinputs op.dst1.toNat (by simp)
  omega

/-! ### A MAC in two parts -/

/-- The MAC over the first `j` taps. -/
def OpRecord.firstTaps (op : OpRecord) (j : Nat) : OpRecord := { op with count := BitVec.ofNat 32 j }

/-- The MAC over the taps from `j` on: SRC0 and SRC1 advanced (43_audio_mac.md R194). -/
def OpRecord.tapsFrom (op : OpRecord) (j : Nat) : OpRecord :=
  { op with
    src0 := op.src0 + BitVec.ofNat 32 (4 * j), src1 := op.src1 + BitVec.ofNat 32 (2 * j)
    count := op.count - BitVec.ofNat 32 j }

section
variable {op : OpRecord} {j : Nat}

@[simp] theorem firstTaps_src0 : (op.firstTaps j).src0 = op.src0 := rfl
@[simp] theorem firstTaps_src1 : (op.firstTaps j).src1 = op.src1 := rfl
@[simp] theorem firstTaps_dst0 : (op.firstTaps j).dst0 = op.dst0 := rfl
@[simp] theorem firstTaps_dst1 : (op.firstTaps j).dst1 = op.dst1 := rfl
@[simp] theorem tapsFrom_dst0 : (op.tapsFrom j).dst0 = op.dst0 := rfl
@[simp] theorem tapsFrom_dst1 : (op.tapsFrom j).dst1 = op.dst1 := rfl

@[simp] theorem tapsFrom_src0_toNat : (op.tapsFrom j).src0.toNat = (op.src0.toNat + 4 * j) % 2 ^ 32 := by
  simp [OpRecord.tapsFrom]

@[simp] theorem tapsFrom_src1_toNat : (op.tapsFrom j).src1.toNat = (op.src1.toNat + 2 * j) % 2 ^ 32 := by
  simp [OpRecord.tapsFrom]

theorem firstTaps_count_toNat (hj : j ≤ op.count.toNat) : (op.firstTaps j).count.toNat = j := by
  have hlt := op.count.isLt
  simp only [OpRecord.firstTaps, BitVec.toNat_ofNat]
  omega

theorem tapsFrom_count_toNat (hj : j ≤ op.count.toNat) : (op.tapsFrom j).count.toNat = op.count.toNat - j := by
  have hlt := op.count.isLt
  simp only [OpRecord.tapsFrom, BitVec.toNat_sub, BitVec.toNat_ofNat]
  omega

variable (hv : validateOperands .mac op = none)
include hv

/-- Both parts of a validated MAC are validated; with no tap left the advanced addresses may wrap to 0, where the empty
ranges are legal too. -/
theorem validateOperands_parts (hj : j ≤ op.count.toNat) :
    validateOperands .mac (op.firstTaps j) = none ∧ validateOperands .mac (op.tapsFrom j) = none := by
  simp only [validateOperands_mac_eq_none_iff, firstTaps_count_toNat hj, tapsFrom_count_toNat hj, firstTaps_src0,
    firstTaps_src1, firstTaps_dst0, firstTaps_dst1, tapsFrom_src0_toNat, tapsFrom_src1_toNat, tapsFrom_dst0,
    tapsFrom_dst1] at hv ⊢
  obtain ⟨halign, hranges, hapart, hinputs⟩ := hv
  refine ⟨⟨halign, by omega, hapart, fun hcount d hd => ?_⟩, by omega, by omega, hapart, fun hcount d hd => ?_⟩
  · have hd := hinputs (by omega) d hd
    omega
  · have hd := hinputs (by omega) d hd
    omega

/-- The first part leaves every sample and every kernel element as it was. -/
theorem read_inputs_after_firstTaps (m m0 : Memory) {a : Nat}
    (ha : (op.src0.toNat ≤ a ∧ a < op.src0.toNat + 4 * op.count.toNat) ∨
      (op.src1.toNat ≤ a ∧ a < op.src1.toNat + 2 * op.count.toNat)) :
    Memory.read (Memory.writeAll m (macEffect (op.firstTaps j) m0).writes) a = Memory.read m a := by
  obtain ⟨hleft, hright⟩ := inputs_apart hv ha
  exact read_macEffect_of_not_mem (op := op.firstTaps j) (by rw [firstTaps_dst0]; omega)
    (by rw [firstTaps_dst1]; omega)
end

/-- After a MAC each lane 0 holds its running sum, also with no tap. -/
theorem read32_toInt_macEffect {op : OpRecord} (hv : validateOperands .mac op = none) (m : Memory) :
    (Memory.read32 (Memory.writeAll m (macEffect op m).writes) op.dst0.toNat).toInt = (macSums op m).left ∧
      (Memory.read32 (Memory.writeAll m (macEffect op m).writes) op.dst1.toNat).toInt = (macSums op m).right := by
  by_cases hn : op.n = 0
  · simp [macEffect, macSums, macStart, hn, Memory.writeAll]
  · obtain ⟨hleft, hright⟩ := read32_macEffect hn hv m m
    obtain ⟨hl, hr, -⟩ := macSums_eq_exact op m
    rw [hleft, hright, hl, hr]
    exact ⟨rfl, rfl⟩

/-- The taps of a MAC from `j` on. -/
def remainingTaps (op : OpRecord) (m : Memory) (j : Nat) : List MacTap :=
  (List.range (op.n - j)).map (fun i => macTap op m (j + i))

section
variable {op : OpRecord} {j : Nat} (hj : j ≤ op.count.toNat) (m : Memory)
include hj

/-- The sums of one MAC go on from those over its first `j` taps. -/
theorem macSums_eq_foldl_remainingTaps :
    macSums op m = (remainingTaps op m j).foldl macStep (macSums (op.firstTaps j) m) := by
  have hn : op.n = j + (op.n - j) := (Nat.add_sub_cancel' hj).symm
  have hfirst : (op.firstTaps j).n = j := firstTaps_count_toNat hj
  rw [macSums, hn, List.range_add, List.map_append, List.foldl_append, List.map_map, macSums, hfirst]
  rfl

variable (hv : validateOperands .mac op = none)
include hv

/-- Tap `i` of the second part is tap `j + i` of the one MAC: while a tap is left the advanced addresses do not wrap. -/
theorem macTap_tapsFrom {i : Nat} (hi : i < op.count.toNat - j) :
    macTap (op.tapsFrom j) (Memory.writeAll m (macEffect (op.firstTaps j) m).writes) i = macTap op m (j + i) := by
  obtain ⟨-, ⟨hsamples, hkernel, -⟩, -⟩ := validateOperands_mac_eq_none_iff.mp hv
  have hsrc0 : (op.tapsFrom j).src0.toNat = op.src0.toNat + 4 * j := by
    rw [tapsFrom_src0_toNat]
    omega
  have hsrc1 : (op.tapsFrom j).src1.toNat = op.src1.toNat + 2 * j := by
    rw [tapsFrom_src1_toNat]
    omega
  have hread := fun a => read_inputs_after_firstTaps (j := j) hv m m (a := a)
  have hk : elem16 (Memory.writeAll m (macEffect (op.firstTaps j) m).writes) (op.src1.toNat + 2 * j) i =
      elem16 m op.src1.toNat (j + i) := by
    rw [elem16, elem16, show op.src1.toNat + 2 * j + 2 * i = op.src1.toNat + 2 * (j + i) by omega]
    exact Memory.read16_congr fun x h1 h2 => hread x (by omega)
  have hs : ∀ c, c < 2 →
      elem16 (Memory.writeAll m (macEffect (op.firstTaps j) m).writes) (op.src0.toNat + 4 * j) (2 * i + c) =
        elem16 m op.src0.toNat (2 * (j + i) + c) := by
    intro c hc
    rw [elem16, elem16,
      show op.src0.toNat + 4 * j + 2 * (2 * i + c) = op.src0.toNat + 2 * (2 * (j + i) + c) by omega]
    exact Memory.read16_congr fun x h1 h2 => hread x (by omega)
  have hleft := hs 0 (by decide)
  have hright := hs 1 (by decide)
  rw [Nat.add_zero, Nat.add_zero] at hleft
  rw [macTap, macTap, hsrc0, hsrc1, hk, hleft, hright]

/-- The second part adds the remaining taps to the lanes that the first part left, with no overflow yet. -/
theorem macSums_tapsFrom :
    macSums (op.tapsFrom j) (Memory.writeAll m (macEffect (op.firstTaps j) m).writes) =
      (remainingTaps op m j).foldl macStep { macSums (op.firstTaps j) m with ovf := false } := by
  obtain ⟨hleft, hright⟩ := read32_toInt_macEffect (validateOperands_parts hv hj).1 m
  have hn : (op.tapsFrom j).n = op.n - j := tapsFrom_count_toNat hj
  have htaps : (List.range (op.n - j)).map
      (macTap (op.tapsFrom j) (Memory.writeAll m (macEffect (op.firstTaps j) m).writes)) = remainingTaps op m j :=
    List.map_congr_left fun i hi => macTap_tapsFrom hj m hv (List.mem_range.mp hi)
  have hstart : macStart (op.tapsFrom j) (Memory.writeAll m (macEffect (op.firstTaps j) m).writes) =
      { macSums (op.firstTaps j) m with ovf := false } :=
    congrArg₂ (fun left right => MacSums.mk left right false) hleft hright
  rw [macSums, hn, htaps, hstart]
end

/-- The lanes do not depend on whether a sum overflowed before. -/
theorem foldl_macStep_lanes_ovf (taps : List MacTap) (a : MacSums) (b : Bool) :
    (taps.foldl macStep { a with ovf := b }).left = (taps.foldl macStep a).left ∧
      (taps.foldl macStep { a with ovf := b }).right = (taps.foldl macStep a).right := by
  induction taps generalizing a b with
  | nil => exact ⟨rfl, rfl⟩
  | cons t taps ih => exact ih (macStep a t) _

/-- Settles O33: the second part starts from the lanes the first one left, and its taps are the remaining ones. -/
theorem splitMacGivesTheSameSums : Obligations.SplitMacGivesTheSameSums := by
  intro op m j hv hj op1 op2 m1 m2 mAll
  have hall : macSums op m = (remainingTaps op m j).foldl macStep (macSums op1 m) :=
    macSums_eq_foldl_remainingTaps hj m
  have hsecond : macSums op2 m1 = (remainingTaps op m j).foldl macStep { macSums op1 m with ovf := false } :=
    macSums_tapsFrom hj m hv
  obtain ⟨hleft, hright⟩ := foldl_macStep_lanes_ovf (remainingTaps op m j) (macSums op1 m) false
  obtain ⟨hleft2, hright2⟩ := read32_toInt_macEffect (validateOperands_parts hv hj).2 m1
  obtain ⟨hleftAll, hrightAll⟩ := read32_toInt_macEffect hv m
  refine ⟨BitVec.eq_of_toInt_eq ?_, BitVec.eq_of_toInt_eq ?_, fun hovf => ?_⟩
  · calc (Memory.read32 m2 op.dst0.toNat).toInt
        = (macSums op2 m1).left := hleft2
      _ = (macSums op m).left := by rw [hsecond, hall, hleft]
      _ = (Memory.read32 mAll op.dst0.toNat).toInt := hleftAll.symm
  · calc (Memory.read32 m2 op.dst1.toNat).toInt
        = (macSums op2 m1).right := hright2
      _ = (macSums op m).right := by rw [hsecond, hall, hright]
      _ = (Memory.read32 mAll op.dst1.toNat).toInt := hrightAll.symm
  · rw [macEffect_ovf] at hovf
    rw [macEffect_ovf, macEffect_ovf, hsecond, hall, ← hovf]

/-! ### Lanes 1 to 3 -/

/-- The address lies in lanes 1 to 3 of an accumulator array (43_audio_mac.md R192). -/
def OpRecord.InUpperLanes (op : OpRecord) (a : Nat) : Prop :=
  (op.dst0.toNat + 4 ≤ a ∧ a < op.dst0.toNat + 16) ∨ (op.dst1.toNat + 4 ≤ a ∧ a < op.dst1.toNat + 16)

section
variable {op : OpRecord} (hv : validateOperands .mac op = none) {a : Nat}
include hv

/-- A validated MAC reads nothing in lanes 1 to 3. -/
theorem not_inUpperLanes_of_mem_readRanges {r : Range} (hr : r ∈ readRanges .mac op)
    (h1 : r.base ≤ a) (h2 : a < r.base + r.len) : ¬op.InUpperLanes a := by
  have hapart := accumulators_disjoint hv
  have hinputs := inputs_apart hv (a := a)
  unfold OpRecord.InUpperLanes
  simp only [readRanges, List.mem_cons, List.not_mem_nil, or_false] at hr
  rcases hr with rfl | rfl | rfl | rfl
  · have := hinputs (.inl ⟨h1, h2⟩)
    omega
  · have := hinputs (.inr ⟨h1, h2⟩)
    omega
  · simp only [laneL_base, laneL_len] at h1 h2
    omega
  · simp only [laneR_base, laneR_len] at h1 h2
    omega

/-- Nor does it write anything there. -/
theorem read_macEffect_of_inUpperLanes (ha : op.InUpperLanes a) (m m0 : Memory) :
    Memory.read (Memory.writeAll m (macEffect op m0).writes) a = Memory.read m a := by
  have hapart := accumulators_disjoint hv
  unfold OpRecord.InUpperLanes at ha
  exact read_macEffect_of_not_mem (by omega) (by omega)
end

/-- The same writes keep two memories equal where they were. -/
theorem read_writeAll_congr {m m' : Memory} {a : Nat} (h : Memory.read m a = Memory.read m' a)
    (ws : List (Nat × List Byte)) :
    Memory.read (Memory.writeAll m ws) a = Memory.read (Memory.writeAll m' ws) a := by
  induction ws generalizing m m' with
  | nil => exact h
  | cons w ws ih =>
    refine ih ?_
    rw [Memory.read_writeBytes, Memory.read_writeBytes, h]

/-- Settles O34: both runs store the same lanes into memories that agree outside lanes 1 to 3. -/
theorem macIgnoresLanesOneToThree : Obligations.MacIgnoresLanesOneToThree := by
  intro s s' run run' he he' hu hu' hop hst hv hagree
  have hagree : ∀ a, ¬run.op.InUpperLanes a →
      Memory.read run.m0 a = Memory.read run'.m0 a ∧ Memory.read s.mem a = Memory.read s'.mem a :=
    fun a ha => hagree a (not_or.mp ha).1 (not_or.mp ha).2
  have heff : effectOf .mac run'.op run'.m0 = macEffect run.op run.m0 := by
    rw [hop]
    exact (effectOf_congr fun r hr a h1 h2 =>
      (hagree a (not_inUpperLanes_of_mem_readRanges hv hr h1 h2)).1).symm
  have hmem : ∀ a, ¬run.op.InUpperLanes a →
      Memory.read (Memory.writeAll s.mem (macEffect run.op run.m0).writes) a =
        Memory.read (Memory.writeAll s'.mem (macEffect run.op run.m0).writes) a :=
    fun a ha => read_writeAll_congr (hagree a ha).2 _
  refine ⟨_, _, exec_undisturbed he hu, exec_undisturbed he' hu', ?_, ?_, ?_, fun a ha => ⟨?_, ?_⟩⟩
  · rw [complete_status, complete_status, heff, hst]
    rfl
  · rw [complete_mem, complete_mem, heff]
    exact Memory.read32_congr fun a h1 h2 =>
      hmem a (not_inUpperLanes_of_mem_readRanges hv (r := laneL run.op) (by simp [readRanges]) h1 h2)
  · rw [complete_mem, complete_mem, heff]
    exact Memory.read32_congr fun a h1 h2 =>
      hmem a (not_inUpperLanes_of_mem_readRanges hv (r := laneR run.op) (by simp [readRanges]) h1 h2)
  · exact read_macEffect_of_inUpperLanes hv ha s.mem run.m0
  · rw [complete_mem, heff]
    exact read_macEffect_of_inUpperLanes hv ha s'.mem run.m0

end Sys2Proof.Machine
end

section
/-! The completion of COPY (44_bulk_copy.md R210, R212). -/

namespace Sys2Proof.Machine

/-- An undisturbed COPY completes with OVF as it was: memory, BUSY, DONE and the record of unread ends change alone. -/
theorem exec_copy_undisturbed {s : State} {run : Run} (he : s.eng = .busy run) (hu : Undisturbed .copy run s) :
    exec .copy s = .next { s with
      mem := Memory.writeAll s.mem (effectOf .copy run.op run.m0).writes
      status := { s.status with busy := false, done := true }
      eng := .idle
      unread := run :: s.unread } := by
  have hovf : (effectOf .copy run.op run.m0).ovf = false := rfl
  rw [exec_undisturbed he hu, complete, hovf, Status.endDone, Bool.or_false]

/-- Outside its destination a COPY stores nothing (44_bulk_copy.md R210). -/
theorem read_copy_of_not_mem {op : OpRecord} {a : Nat}
    (ha : ¬(op.dst0.toNat ≤ a ∧ a < op.dst0.toNat + op.count.toNat)) (m m0 : Memory) :
    Memory.read (Memory.writeAll m (effectOf .copy op m0).writes) a = Memory.read m a := by
  have hlength : ((List.range op.n).map (copyOut op m0)).length = op.count.toNat := by simp [OpRecord.n]
  exact Memory.read_writeBytes_of_not_mem (by rwa [hlength])

/-- Settles O23: the one store of COPY holds the source bytes of the snapshot and covers the destination alone. -/
theorem copyMovesEveryByte : Obligations.CopyMovesEveryByte := fun s run he hu =>
  ⟨Memory.writeAll s.mem (effectOf .copy run.op run.m0).writes, exec_copy_undisturbed he hu,
    fun _ hj => read_copy hj s.mem run.m0, fun _ ha => read_copy_of_not_mem ha s.mem run.m0⟩

end Sys2Proof.Machine
end

section
/-! Missing memory and the critical section: an access to memory that does not exist ends a command by a bus error
(60_exceptions.md R233, R236), and who owns the programming section after a step (60_exceptions.md R244). -/

namespace Sys2Proof.Machine

/-! ### An access to missing memory -/

/-- A BUSY command one of whose accesses fails ends by a bus error, raced or not. -/
theorem exec_accessFails {i : Instr} {s : State} {run : Run} (he : s.eng = .busy run)
    (hf : accessFails s.platform (accessRanges i run.op) = true) :
    exec i s = .next (endWithBusError (writeRanges i run.op) run s) :=
  (exec_busy he).trans (congrArg Host.Outcome.next (if_pos hf))

/-- Settles O39: a missing byte among those the command accesses makes an access fail, and the bus-error end draws the
write ranges alone. -/
theorem missingMemoryEndsTheCommandWithBus : Obligations.MissingMemoryEndsTheCommandWithBus := by
  intro i s run he hb hc hmissing
  have hf : accessFails s.platform (accessRanges i run.op) = true := by
    rw [accessFails, accessRanges_of_count hc, Platform.covers_iff.mpr hmissing, hb, Bool.true_and]
  exact ⟨drawBytes s.draws (writeRanges i run.op) s.mem, exec_accessFails he hf,
    fun r hr a h1 h2 => read_drawBytes_of_mem ⟨r, hr, h1, h2⟩, fun a ha => read_drawBytes_of_not_mem ha⟩

/-! ### Entering the critical section -/

/-- Inside another core's section no core can claim the block. -/
theorem claim_of_other_owner {core : Nat} {o : Session} {s : State} (ho : s.owner = some o) (hne : o.core ≠ core)
    (c : Bool) : claim core c s = none := by
  simp [claim, ho, hne]

/-- Settles O45: the write programs a register, and the claim before it fails. -/
theorem interleavedProgrammingIsRefused : Obligations.InterleavedProgrammingIsRefused := by
  intro s core v rest o ho hne reg hr h
  rw [step_programReg hr h, programReg, claim_of_other_owner (s := { s with pending := rest }) ho hne]

/-- A claim that succeeds sets the owner to the section after the write. -/
theorem claim_owner {core : Nat} {c : Bool} {s s1 : State} (h : claim core c s = some s1) :
    s1.owner = s.claimed core c := by
  have hm : s.mayProgram core := by
    intro o ho
    by_contra hne
    simp [claim_of_other_owner ho hne] at h
  rw [claim_mayProgram hm, Option.some.injEq] at h
  rw [← h]

/-! ### The owner after a write -/

theorem writeCmd_owner {w : Word} {s t : State} (h : writeCmd w s = .next t) : t.owner = s.owner := by
  rcases writeCmd_cases w s with ha | ⟨run, i, -, hf⟩
  · rcases accept_next (ha.symm.trans h) with ⟨e, -, rfl⟩ | ⟨-, rfl⟩ <;> rfl
  · obtain ⟨-, -, -, ho, -⟩ := finish_host_frame i run s
    obtain rfl := Host.Outcome.next.inj (hf.symm.trans h)
    exact ho

@[simp] theorem writeOperand_owner (reg : Reg) (v : Word) (s : State) : (writeOperand reg v s).owner = s.owner := by
  cases reg <;> rfl

/-- A write to CMD or to an operand register leaves the writer in the section, ignored while BUSY or not. -/
theorem programReg_owner {core : Nat} {reg : Reg} {v : Word} {s t : State} (h : programReg core reg v s = .next t) :
    t.owner = s.claimed core (decide (reg = .cmd)) := by
  unfold programReg at h
  split at h
  · cases h
  · rename_i s1 hc
    rw [← claim_owner hc]
    split at h
    · obtain rfl := Host.Outcome.next.inj h
      rfl
    · split at h
      · exact writeCmd_owner h
      · obtain rfl := Host.Outcome.next.inj h
        exact writeOperand_owner reg v s1

/-- An access that reaches a register is a word access at its offset (10_state.md R30, R31). -/
theorem eq_regOffset_of_accessedReg {off : BitVec 8} {size : Size} {reg : Reg} (h : accessedReg off size = some reg) :
    off = regOffset reg ∧ size = .word := by
  have offsets : ∀ off : BitVec 8, ∀ reg ∈ regAt off, off = regOffset reg := by decide
  unfold accessedReg at h
  split at h
  · rename_i hok
    exact ⟨offsets off reg h, (regAccessOk_iff.mp hok).1⟩
  · cases h

/-- The owner of the section after a host move of `core`, by the register it writes and the core that reads STATUS by
it (60_exceptions.md R244, log entry 12). -/
def State.ownerAfter (s : State) (core : Nat) (written : Option (Reg × Word)) (reader : Option Nat) : Option Session :=
  match written with
  | some (.status, _) => s.owner
  | some (reg, _) => s.claimed core (decide (reg = .cmd))
  | none => if reader = some core then (seeEnd core s).owner else s.owner

theorem State.ownerAfter_program {reg : Reg} (hr : reg ≠ .status) (s : State) (core : Nat) (v : Word)
    (reader : Option Nat) : s.ownerAfter core (some (reg, v)) reader = s.claimed core (decide (reg = .cmd)) := by
  cases reg with
  | status => exact absurd rfl hr
  | _ => rfl

theorem hostRegWrite_owner {core : Nat} {off : BitVec 8} {size : Size} {v : Word} {s t : State}
    (h : hostRegWrite core off size v s = .next t) :
    t.owner = s.ownerAfter core ((accessedReg off size).map (fun reg => (reg, v))) none := by
  rcases hostRegWrite_cases h with ⟨ha, rfl⟩ | ⟨ha, rfl⟩ | ⟨reg, -, ha, hr, -⟩
  · rw [ha]
    rfl
  · rw [ha]
    rfl
  · obtain ⟨rfl, rfl⟩ := eq_regOffset_of_accessedReg ha
    rw [hostRegWrite_program hr] at h
    rw [ha]
    exact (programReg_owner h).trans (s.ownerAfter_program hr core v none).symm

/-! ### The owner after a read -/

/-- A STATUS read of BUSY = 0 ends a section in which a command was started. -/
theorem seeEnd_owner (core : Nat) (s : State) :
    (seeEnd core s).owner =
      if s.status.busy = false ∧ s.owner = some { core := core, started := true } then none else s.owner := by
  unfold seeEnd
  cases s.status.busy <;> simp

/-- Without a register write only such a STATUS read changes the owner. -/
theorem State.ownerAfter_of_no_write (s : State) (core : Nat) (reader : Option Nat) :
    s.ownerAfter core none reader =
      if reader = some core ∧ s.status.busy = false ∧ s.owner = some { core := core, started := true } then none
      else s.owner := by
  rw [ite_and, ← seeEnd_owner]
  rfl

theorem hostRegRead_owner {core : Nat} {off : BitVec 8} {size : Size} {s t : State}
    (h : hostRegRead core off size s = .next t) :
    t.owner = s.ownerAfter core none (if accessedReg off size = some .status then some core else none) := by
  cases ha : accessedReg off size with
  | none =>
    unfold hostRegRead at h
    unfold accessedReg at ha
    split at h
    · cases h
    · rename_i hok
      rw [if_pos (by simpa using hok)] at ha
      rw [ha] at h
      obtain rfl := Host.Outcome.next.inj h
      rfl
  | some reg =>
    obtain ⟨rfl, rfl⟩ := eq_regOffset_of_accessedReg ha
    by_cases hr : reg = .status
    · subst hr
      obtain rfl := Host.Outcome.next.inj h
      simp [State.ownerAfter_of_no_write, seeEnd_owner]
    · rw [hostRegRead_register hr] at h
      obtain rfl := Host.Outcome.next.inj h
      simp [State.ownerAfter, hr]

/-! ### The owner after a host move -/

/-- A host store that goes on is a register write inside the window, or a store to data memory. -/
theorem hostStore_cases {core : Nat} {addr : Word} {size : Size} {v : Word} {visible : Bool} {s t : State}
    (h : hostStore core addr size v visible s = .next t) :
    (addr.toNat + size.bytes ≤ Config.addressSpace ∧ (Platform.window s.platform).holds addr.toNat = true ∧
      hostRegWrite core (windowOffset s.platform addr) size v s = .next t) ∨
    ((Platform.window s.platform).holds addr.toNat = false ∧ t = storeData addr size v visible s) := by
  unfold hostStore at h
  split at h
  · cases h
  · rename_i hspace
    split at h
    · rename_i hwin
      exact .inl ⟨Nat.le_of_not_lt hspace, hwin, h⟩
    · rename_i hwin
      split at h
      · cases h
      · exact .inr ⟨by simpa using hwin, (Host.Outcome.next.inj h).symm⟩

/-- A host load that goes on is a register read inside the window, or a load from data memory. -/
theorem hostLoad_cases {core : Nat} {addr : Word} {size : Size} {s t : State}
    (h : hostLoad core addr size s = .next t) :
    (addr.toNat + size.bytes ≤ Config.addressSpace ∧ (Platform.window s.platform).holds addr.toNat = true ∧
      hostRegRead core (windowOffset s.platform addr) size s = .next t) ∨
    ((Platform.window s.platform).holds addr.toNat = false ∧ t = loadData addr size s) := by
  unfold hostLoad at h
  split at h
  · cases h
  · rename_i hspace
    split at h
    · rename_i hwin
      exact .inl ⟨Nat.le_of_not_lt hspace, hwin, h⟩
    · rename_i hwin
      split at h
      · cases h
      · exact .inr ⟨by simpa using hwin, (Host.Outcome.next.inj h).symm⟩

/-- A host move changes the owner by the register it writes and the STATUS read it makes, and by nothing else. -/
theorem hostMove_owner {core : Nat} {op : HostOp} {s t : State} (h : hostMove core op s = .next t) :
    t.owner = s.ownerAfter core ((Move.host core op).registerWrite s.platform)
      ((Move.host core op).statusRead s.platform) := by
  cases op with
  | regWrite off size v => exact hostRegWrite_owner h
  | regRead off size => exact hostRegRead_owner h
  | publish =>
    obtain rfl := Host.Outcome.next.inj h
    rfl
  | load addr size =>
    rcases hostLoad_cases h with ⟨hspace, hwin, hr⟩ | ⟨hwin, rfl⟩
    · simpa [Move.registerWrite, Move.statusRead, hspace, hwin] using hostRegRead_owner hr
    · simp [Move.registerWrite, Move.statusRead, hwin, State.ownerAfter, loadData]
  | store addr size v visible =>
    rcases hostStore_cases h with ⟨hspace, hwin, hw⟩ | ⟨hwin, rfl⟩
    · simpa [Move.registerWrite, Move.statusRead, hspace, hwin] using hostRegWrite_owner hw
    · rw [storeData_eq]
      simp [Move.registerWrite, Move.statusRead, hwin, State.ownerAfter]

/-! ### The owner after a step -/

theorem engineMove_owner {answer : BusAnswer} {s t : State} (h : engineMove answer s = .next t) :
    t.owner = s.owner := by
  rcases engineMove_ends h with ⟨-, rfl⟩ | ⟨run, i, -, -, rfl | ⟨rfl, -⟩ | ⟨rfl, -⟩⟩ <;> rfl

/-- Settles O54: reset ends every section, the engine leaves it, and a host move follows `State.ownerAfter`. -/
theorem ownerFollowsTheCriticalSection : Obligations.OwnerFollowsTheCriticalSection := by
  intro s t h
  rcases step_cases h with ⟨hm, rfl⟩ | ⟨answer, hm, he⟩ | ⟨v, answer, hm, he⟩ | ⟨core, op, hm, hh⟩
  · rw [hm]
    rfl
  · rw [hm]
    exact (engineMove_owner he).trans (popMove_owner s)
  · rw [hm]
    exact (engineMove_owner he).trans (popMove_owner s)
  · rw [hm, hostMove_owner hh]
    dsimp only [popMove_platform]
    cases (Move.host core op).registerWrite s.platform with
    | none => exact s.popMove.ownerAfter_of_no_write core _
    | some written =>
      obtain ⟨reg, v⟩ := written
      cases reg <;> rfl

end Sys2Proof.Machine
end

section
/-! The reset input (70_reset_and_hazards.md R260, R261). -/

namespace Sys2Proof.Machine

/-- The reset input leaves the block as in `State.reset` (10_state.md R50). -/
theorem resetInput_block (s : State) :
    (∀ reg, reg ≠ .status → readReg reg (resetInput s) = readReg reg State.reset) ∧
    (resetInput s).status = State.reset.status ∧ (resetInput s).eng = State.reset.eng := by
  refine ⟨fun reg hr => ?_, rfl, rfl⟩
  cases reg with
  | status => exact absurd rfl hr
  | _ => rfl

theorem resetInput_platform (s : State) : (resetInput s).platform = s.platform := by
  unfold resetInput
  cases s.eng <;> rfl

theorem resetInput_mem_idle {s : State} (he : s.eng = .idle) : (resetInput s).mem = s.mem := by
  simp [resetInput, he]

/-- The reset input abandons a running command, whose write ranges it frees (70_reset_and_hazards.md R261). -/
theorem resetInput_mem_busy {s : State} {run : Run} (he : s.eng = .busy run) :
    (resetInput s).mem = drawBytes s.draws run.op.writes s.mem := by
  simp [resetInput, he]

/-- Settles O40: the block is as after power-up, and memory is the old one but for the draw over the write ranges of a
running command. -/
theorem resetInputClearsEveryRegister : Obligations.ResetInputClearsEveryRegister := by
  intro s rest h
  obtain ⟨hreg, hstatus, heng⟩ := resetInput_block { s with pending := rest }
  obtain ⟨hcmd, hword, hsrc0, hsrc1, hdst0, hdst1, hcount, hidle⟩ := resetStateIsAllZero
  refine ⟨_, step_of_pending h, (hreg .cmd (by decide)).trans hcmd, (congrArg Status.toWord hstatus).trans hword,
    (hreg .src0 (by decide)).trans hsrc0, (hreg .src1 (by decide)).trans hsrc1,
    (hreg .dst0 (by decide)).trans hdst0, (hreg .dst1 (by decide)).trans hdst1,
    (hreg .count (by decide)).trans hcount, heng.trans hidle, resetInput_pending _, resetInput_platform _,
    fun he => resetInput_mem_idle he, fun run hbusy => ?_⟩
  have hmem := resetInput_mem_busy (s := { s with pending := rest }) hbusy
  rw [hmem]
  exact ⟨fun a hout => read_drawBytes_of_not_mem hout, fun r hr a hlo hhi => read_drawBytes_of_mem ⟨r, hr, hlo, hhi⟩⟩

end Sys2Proof.Machine
end
